-- ==== Sys2Proof/Word.lean ====
section
/-! DEFINITION. The data the machine computes with: characters, tokens, lines, programs and the
tagged values of registers (spec/00_scope.md R6, spec/10_state.md R51, spec/30_encoding.md R130). -/

namespace Sys2Proof

/-- A text: a finite sequence of characters, each one Unicode scalar value (R6). -/
abbrev Text := List Char

/-- A token of a line: a run of non-whitespace characters (R133). -/
abbrev Token := List Char

/-- One line of a program, without a line terminator (R130). -/
abbrev Line := List Char

/-- A program: the ordered list of lines, indexed from 0 (R130, R8). -/
abbrev Program := List Line

/-- What a register slot holds: exactly one of an unbounded signed integer and a text (R6, R51). -/
inductive Value where
  | int (n : Int)
  | text (t : Text)
  deriving DecidableEq, Repr

end Sys2Proof
end

