-- ==== Sys2Proof/Syntax.lean ====
section
/-! DEFINITION. The general registers (spec/10_state.md R52) and the decoded instruction
(spec/30_encoding.md R154): one constructor per row of spec/opcode_table.json, carrying the operand
tokens as the decoder cut them and the line's text. An operand's meaning (immediate, register, error)
is resolved when the line executes (R154), in Machine/Operands.lean. -/

namespace Sys2Proof

/-- The 24 general registers, in the order of R52. -/
inductive Reg where
  | rax | rbx | rcx | rdx | rsi | rdi | rbp | rsp
  | r0 | r1 | r2 | r3 | r4 | r5 | r6 | r7
  | r8 | r9 | r10 | r11 | r12 | r13 | r14 | r15
  deriving DecidableEq, Repr

/-- What the decoder's `Instr(op, ops, raw)` carries beside the opcode (R154). -/
structure Fields where
  /-- The operand tokens, as R133 cuts them. -/
  ops : List Token
  /-- The line's text. -/
  raw : Line
  deriving DecidableEq, Repr

/-- What the decoder's `Unknown(tok, raw)` carries (R154). -/
structure UnknownFields where
  /-- The opcode after case folding (R134). -/
  tok : Token
  /-- The line's text. -/
  raw : Line
  deriving DecidableEq, Repr

/-- A decoded line (R154). Each of the 34 opcodes of R135 is the decoder's `Instr(op, ops, raw)`;
`skipLine` is its `Skip`, and `unknownOpcode` its `Unknown(tok, raw)`. -/
inductive Instr where
  | mov (f : Fields)
  | add (f : Fields)
  | sub (f : Fields)
  | mul (f : Fields)
  | div (f : Fields)
  | inc (f : Fields)
  | dec (f : Fields)
  | neg (f : Fields)
  | andOp (f : Fields)
  | orOp (f : Fields)
  | xorOp (f : Fields)
  | shl (f : Fields)
  | shr (f : Fields)
  | ror (f : Fields)
  | rol (f : Fields)
  | cmp (f : Fields)
  | jmp (f : Fields)
  | jeq (f : Fields)
  | jne (f : Fields)
  | jg (f : Fields)
  | jl (f : Fields)
  | jge (f : Fields)
  | jle (f : Fields)
  | push (f : Fields)
  | pop (f : Fields)
  | define (f : Fields)
  | call (f : Fields)
  | hlt (f : Fields)
  | incl (f : Fields)
  | notOp (f : Fields)
  | ret (f : Fields)
  | string (f : Fields)
  | cov (f : Fields)
  | je (f : Fields)
  | skipLine
  | unknownOpcode (f : UnknownFields)
  deriving DecidableEq, Repr

end Sys2Proof
end

