-- ==== Sys2Proof/Decode.lean ====
section
/-! DEFINITION. The decoder of spec/30_encoding.md (R131 to R135, R154), total on every character
sequence, and the encoder that writes a decoded instruction back as a line. Last, the reading of a
number of spec/opcode_table.json as a line, for the host. -/

namespace Sys2Proof

/-- The five whitespace characters: space, tab, vertical tab, form feed, carriage return (R131). -/
def isSpace (c : Char) : Bool :=
  c.toNat == 32 || c.toNat == 9 || c.toNat == 11 || c.toNat == 12 || c.toNat == 13

/-- R132: after its leading whitespace the line is empty or begins with `;`. -/
def isSkip (l : Line) : Bool :=
  match l.dropWhile isSpace with
  | [] => true
  | c :: _ => c == ';'

/-- Put the character `c` in front of the tokens of the rest `l` of its line: it joins the rest's
first token when no whitespace stands between, and else is a token of its own. -/
def consToken (c : Char) (l : Line) (ts : List Token) : List Token :=
  match l, ts with
  | d :: _, t :: ts' => if isSpace d then [c] :: ts else (c :: t) :: ts'
  | _, _ => [c] :: ts

/-- R133: the maximal runs of non-whitespace characters, in order. -/
def tokens : Line → List Token
  | [] => []
  | c :: l => if isSpace c then tokens l else consToken c l (tokens l)

/-- R134 on one character: ASCII `a`..`z` becomes upper case, any other character stays. -/
def foldChar (c : Char) : Char :=
  if 97 ≤ c.toNat ∧ c.toNat ≤ 122 then Char.ofNat (c.toNat - 32) else c

/-- R134: the opcode of an opcode token. -/
def foldCase (t : Token) : Token :=
  t.map foldChar

/-- R135: the recognized opcodes and the instruction each stands for. -/
def opcodeTable : List (Token × (Fields → Instr)) :=
  [ ("MOV".toList, .mov), ("ADD".toList, .add), ("SUB".toList, .sub), ("MUL".toList, .mul),
    ("DIV".toList, .div), ("INC".toList, .inc), ("DEC".toList, .dec), ("NEG".toList, .neg) ] ++
  [ ("AND".toList, .andOp), ("OR".toList, .orOp), ("XOR".toList, .xorOp), ("SHL".toList, .shl),
    ("SHR".toList, .shr), ("ROR".toList, .ror), ("ROL".toList, .rol) ] ++
  [ ("CMP".toList, .cmp), ("JMP".toList, .jmp), ("JEQ".toList, .jeq), ("JNE".toList, .jne),
    ("JG".toList, .jg), ("JL".toList, .jl), ("JGE".toList, .jge), ("JLE".toList, .jle) ] ++
  [ ("PUSH".toList, .push), ("POP".toList, .pop) ] ++
  [ ("DEFINE".toList, .define), ("CALL".toList, .call), ("HLT".toList, .hlt),
    ("INCLUDE".toList, .incl) ] ++
  [ ("NOT".toList, .notOp), ("RET".toList, .ret), ("STRING".toList, .string), ("COV".toList, .cov),
    ("JE".toList, .je) ]

/-- The instruction of an opcode (already folded) with these operand tokens and this text; any opcode
outside the table is unknown (R152), and carries no operand tokens (R154). -/
def ofOpcode (op : Token) (f : Fields) : Instr :=
  match opcodeTable.find? (fun row => row.1 == op) with
  | some row => row.2 f
  | none => .unknownOpcode ⟨op, f.raw⟩

/-- R154: every line decodes to exactly one instruction. -/
def decode (l : Line) : Instr :=
  if isSkip l then .skipLine
  else
    match tokens l with
    | [] => .skipLine
    | t :: ops => ofOpcode (foldCase t) ⟨ops, l⟩

/-- The opcode spelling of a decoded instruction (R135); a skip line has none. -/
def Instr.opcodeName : Instr → Token
  | .mov _ => "MOV".toList
  | .add _ => "ADD".toList
  | .sub _ => "SUB".toList
  | .mul _ => "MUL".toList
  | .div _ => "DIV".toList
  | .inc _ => "INC".toList
  | .dec _ => "DEC".toList
  | .neg _ => "NEG".toList
  | .andOp _ => "AND".toList
  | .orOp _ => "OR".toList
  | .xorOp _ => "XOR".toList
  | .shl _ => "SHL".toList
  | .shr _ => "SHR".toList
  | .ror _ => "ROR".toList
  | .rol _ => "ROL".toList
  | .cmp _ => "CMP".toList
  | .jmp _ => "JMP".toList
  | .jeq _ => "JEQ".toList
  | .jne _ => "JNE".toList
  | .jg _ => "JG".toList
  | .jl _ => "JL".toList
  | .jge _ => "JGE".toList
  | .jle _ => "JLE".toList
  | .push _ => "PUSH".toList
  | .pop _ => "POP".toList
  | .define _ => "DEFINE".toList
  | .call _ => "CALL".toList
  | .hlt _ => "HLT".toList
  | .incl _ => "INCLUDE".toList
  | .notOp _ => "NOT".toList
  | .ret _ => "RET".toList
  | .string _ => "STRING".toList
  | .cov _ => "COV".toList
  | .je _ => "JE".toList
  | .skipLine => []
  | .unknownOpcode u => u.tok

/-- The operand tokens and the text of a decoded instruction; a skip line carries neither, and an
unknown opcode no operand tokens (R154). -/
def Instr.fields : Instr → Fields
  | .mov f | .add f | .sub f | .mul f | .div f | .inc f | .dec f | .neg f => f
  | .andOp f | .orOp f | .xorOp f | .shl f | .shr f | .ror f | .rol f => f
  | .cmp f | .jmp f | .jeq f | .jne f | .jg f | .jl f | .jge f | .jle f => f
  | .push f | .pop f | .define f | .call f | .hlt f | .incl f => f
  | .notOp f | .ret f | .string f | .cov f | .je f => f
  | .skipLine => ⟨[], []⟩
  | .unknownOpcode u => ⟨[], u.raw⟩

/-- The operand tokens of a decoded instruction. -/
def Instr.operands (i : Instr) : List Token :=
  i.fields.ops

/-- The text of the line an instruction was decoded from. -/
def Instr.raw (i : Instr) : Line :=
  i.fields.raw

/-- The same instruction, decoded from the line `raw`. -/
def Instr.withRaw (raw : Line) : Instr → Instr
  | .mov f => .mov ⟨f.ops, raw⟩
  | .add f => .add ⟨f.ops, raw⟩
  | .sub f => .sub ⟨f.ops, raw⟩
  | .mul f => .mul ⟨f.ops, raw⟩
  | .div f => .div ⟨f.ops, raw⟩
  | .inc f => .inc ⟨f.ops, raw⟩
  | .dec f => .dec ⟨f.ops, raw⟩
  | .neg f => .neg ⟨f.ops, raw⟩
  | .andOp f => .andOp ⟨f.ops, raw⟩
  | .orOp f => .orOp ⟨f.ops, raw⟩
  | .xorOp f => .xorOp ⟨f.ops, raw⟩
  | .shl f => .shl ⟨f.ops, raw⟩
  | .shr f => .shr ⟨f.ops, raw⟩
  | .ror f => .ror ⟨f.ops, raw⟩
  | .rol f => .rol ⟨f.ops, raw⟩
  | .cmp f => .cmp ⟨f.ops, raw⟩
  | .jmp f => .jmp ⟨f.ops, raw⟩
  | .jeq f => .jeq ⟨f.ops, raw⟩
  | .jne f => .jne ⟨f.ops, raw⟩
  | .jg f => .jg ⟨f.ops, raw⟩
  | .jl f => .jl ⟨f.ops, raw⟩
  | .jge f => .jge ⟨f.ops, raw⟩
  | .jle f => .jle ⟨f.ops, raw⟩
  | .push f => .push ⟨f.ops, raw⟩
  | .pop f => .pop ⟨f.ops, raw⟩
  | .define f => .define ⟨f.ops, raw⟩
  | .call f => .call ⟨f.ops, raw⟩
  | .hlt f => .hlt ⟨f.ops, raw⟩
  | .incl f => .incl ⟨f.ops, raw⟩
  | .notOp f => .notOp ⟨f.ops, raw⟩
  | .ret f => .ret ⟨f.ops, raw⟩
  | .string f => .string ⟨f.ops, raw⟩
  | .cov f => .cov ⟨f.ops, raw⟩
  | .je f => .je ⟨f.ops, raw⟩
  | .skipLine => .skipLine
  | .unknownOpcode u => .unknownOpcode ⟨u.tok, raw⟩

/-- An opcode token and its operand tokens as one line, one space before each operand (R133). -/
def lineOf (op : Token) (ops : List Token) : Line :=
  op ++ ops.flatMap (fun t => ' ' :: t)

/-- A line that decodes to the instruction: the empty line for a skip line, else the opcode as R135
spells it and the operand tokens. -/
def encode (i : Instr) : Line :=
  lineOf i.opcodeName i.operands

/-- The `n` lowest bytes of `w`, the least significant first. -/
def bytesOfNat : Nat → Nat → List Nat
  | 0, _ => []
  | n + 1, w => w % 256 :: bytesOfNat n (w / 256)

/-- DESIGN CHOICE (log entry 10): the line that a number of spec/opcode_table.json stands for. Each
whole byte of it, the least significant first, is the character with that code, and zero bytes at
the end are no characters of the line. -/
def tableWordLine (nbits w : Nat) : Line :=
  (((bytesOfNat (nbits / 8) w).map Char.ofNat).reverse.dropWhile (fun c => c.toNat == 0)).reverse

/-- What the decoder reads from the line a number of the opcode table stands for. -/
def decodeTableWord (nbits w : Nat) : Option Instr :=
  some (decode (tableWordLine nbits w))

end Sys2Proof
end

