-- ==== Sys2Proof/Config.lean ====
section
/-! DEFINITION. The implementation parameters of spec/00_scope.md R5 as plain data, their defaults and
legal values, and the free values: what the host answers where the model holds no answer. -/

namespace Sys2Proof

/-- `STACK_INDEX_MODE` (R5, R101). -/
inductive StackIndexMode where
  | window
  | strict
  deriving DecidableEq, Repr

/-- `POP_ORDER` (R5, R351). -/
inductive PopOrder where
  | readThenIncrement
  | incrementThenRead
  deriving DecidableEq, Repr

/-- `INCLUDE_MODE` (R5, R385, R386). -/
inductive IncludeMode where
  | nested
  | refuse
  deriving DecidableEq, Repr

/-- What a configured `CALL_HANDLER` answers (R383): `Fail`, or `Ok(writes, out)` with register
names, as the host spells them, and the values it wants in them. -/
inductive HostAnswer where
  | fail
  | ok (writes : List (Token × Value)) (out : Option Text)
  deriving DecidableEq, Repr, Inhabited

/-- The parameters of R5. `GPR_NAMES` is fixed (the type `Reg`); `MAX_TEXT_LEN` has the one legal
value `unbounded`. -/
structure Config where
  /-- `MEM_CELLS`: how many cells the data memory has. -/
  memCells : Nat
  /-- `ROT_WIDTH`: the field width in the rotate formulas. -/
  rotWidth : Nat
  /-- `VALUE_BITS`: `none` is `unbounded`, `some W` a finite width. -/
  valueBits : Option Nat
  stackIndexMode : StackIndexMode
  popOrder : PopOrder
  includeMode : IncludeMode
  /-- `LOADER`, as far as the model holds it: what the host's loader answers for these paths. -/
  loader : List (Token × Option Program)
  /-- Whether a `CALL_HANDLER` is configured. -/
  callHandler : Bool
  deriving DecidableEq, Repr

/-- The default of every parameter (R5); the OPEN `LOADER` has no entry. -/
def Config.default : Config where
  memCells := 1024
  rotWidth := 32
  valueBits := none
  stackIndexMode := .window
  popOrder := .readThenIncrement
  includeMode := .nested
  loader := []
  callHandler := false

/-- The legal parameter values of R5: positive sizes, a finite width of at least 2. -/
def Config.legal (c : Config) : Bool :=
  decide (0 < c.memCells) && decide (0 < c.rotWidth) &&
    match c.valueBits with
    | none => true
    | some w => decide (2 ≤ w)

/-- FREE VALUE (log entry 2): what the OPEN `LOADER` answers for a path that the table
`Config.loader` does not list. -/
opaque Config.freeLoader : Token → Option Program

/-- FREE VALUE (log entry 3): what the OPEN `CALL_HANDLER` answers to its n-th call (the free input
`draw` of R383) for the action's name, the argument tokens and the argument values. -/
opaque Config.freeAnswer : Nat → Token → List Token → List Value → HostAnswer

end Sys2Proof
end

