-- ==== Sys2Proof/Machine/State.lean ====
section
/-! DEFINITION. The state of the machine as plain data (spec/10_state.md R50), the errors and events it
speaks of, and the state at power-on (R66, R603). -/

namespace Sys2Proof.Machine

/-- The fatal errors of spec/60_exceptions.md R500, each with the info R500 says it records. -/
inductive Err where
  | unsupportedInstruction (opcode : Token)
  | malformedInstruction (token : Token)
  | unknownRegister (token : Token)
  | typeMismatch (operand : Token)
  | divisionByZero
  | lengthMismatch (declared actual : Nat)
  | unknownCallTarget (name : Token)
  | includeNotFound (path : Token)
  | stackOutOfRange (index : Int)
  | valueOutOfRange (value : Int)
  | hostCallFault (name : Token)
  deriving DecidableEq, Repr

/-- The non-fatal errors of R500, answers to a host command. -/
inductive CommandErr where
  | stepWhileNotPaused
  | runRejected
  deriving DecidableEq, Repr

/-- The fault record of R511 and R62. -/
structure FaultRecord where
  code : Nat
  index : Int
  text : Line
  depth : Nat
  deriving DecidableEq, Repr

/-- The scheduler's five states (R61). -/
inductive Sched where
  | idle
  | running
  | paused
  | halted
  | faulted
  deriving DecidableEq, Repr

/-- An include frame: the suspended program and the index to resume at (R60). -/
structure Frame where
  prog : Program
  resume : Int
  deriving DecidableEq, Repr

/-- The host commands of spec/46_scheduler.md R431. -/
inductive Command where
  | run (program : Program)
  | step
  | reset
  | setDebug (enabled : Bool)
  | setRate (instructionsPerSecond : Nat)
  deriving DecidableEq, Repr

/-- Who acts next between two micro-steps (R430, R445): the host with a command, or the core. -/
inductive Turn where
  | host (c : Command)
  | core
  deriving DecidableEq, Repr

/-- What the block tells the host (R431): an observer's `Notify`, a `FaultReport`, the answer to a
command. -/
inductive Event where
  | notify
  | faultReport (r : FaultRecord)
  | accepted
  | rejected (e : CommandErr)
  deriving DecidableEq, Repr

/-- The data memory as (cell, integer) pairs: cells strictly rising, no entry equal to what an
unlisted cell reads as (`Memory.wf` in Machine/Ops.lean; log entry 9). -/
abbrev Memory := List (Nat × Int)

/-- The state. The first eleven fields are the record of R50; the others are the model's own: the
parameters (log entry 1), the info of the last fatal error (log entry 7), and the host's side of the
interfaces (log entries 3, 4 and 6). -/
structure State where
  /-- `x[r]`, in the order of R52. -/
  regs : Vector Value 24
  rip : Int
  rflags : BitVec 1
  mem : Memory
  out : Option Text
  prog : Program
  incStack : List Frame
  sched : Sched
  fault : Option FaultRecord
  debug : Bool
  rate : Nat
  /-- The implementation parameters of R5, which no step changes. -/
  cfg : Config
  /-- The info R500 says the fatal error records; `none` outside Faulted. -/
  errorInfo : Option Err
  /-- The turns to come, the next one first; where it is empty it is the core's turn. -/
  turns : List Turn
  /-- The events sent to the host, the latest first. -/
  events : List Event
  /-- Answers the host will give to the next host calls, the next one first. -/
  hostAnswers : List HostAnswer
  /-- How many host calls have been answered: the argument that makes each free answer fresh. -/
  draws : Nat
  deriving DecidableEq, Repr

/-- No step of this model answers a fault: every error of R500 is a transition to the state Faulted
(R501), and every address and value the instructions can produce has a meaning. -/
inductive Fault where
  deriving DecidableEq, Repr

/-- Why a step can give no meaning. -/
inductive Refusal where
  /-- An instruction without a meaning yet, by its mnemonic; only arms of `exec` could raise it, and
  none does. Safe: the model stops where the hardware goes on. -/
  | notModelled (mnemonic : String)
  deriving DecidableEq, Repr

/-- The state at power-on, which is the reset state with `debug` false and `rate` 0 (R66, R603):
every register and cell zero, no program, Idle. The parameters have their defaults (R5); the host
has said and been told nothing (log entries 3, 4 and 6). -/
def State.reset : State where
  regs := Vector.replicate 24 (.int 0)
  rip := 0
  rflags := 0
  mem := []
  out := none
  prog := []
  incStack := []
  sched := .idle
  fault := none
  debug := false
  rate := 0
  cfg := .default
  errorInfo := none
  turns := []
  events := []
  hostAnswers := []
  draws := 0

end Sys2Proof.Machine
end

