-- ==== Sys2Proof/Machine/Ops.lean ====
section
/-! DEFINITION. The named operations over registers, memory and integers; how an instruction
completes (spec/46_scheduler.md R434), how a fatal error is taken (spec/60_exceptions.md R501) and the
only way back from it, the reset of spec/70_reset_and_hazards.md R600. -/

namespace Sys2Proof

/-- A register's place in the register file, in the order of R52. -/
def Reg.index : Reg → Fin 24
  | .rax => 0 | .rbx => 1 | .rcx => 2 | .rdx => 3
  | .rsi => 4 | .rdi => 5 | .rbp => 6 | .rsp => 7
  | .r0 => 8 | .r1 => 9 | .r2 => 10 | .r3 => 11
  | .r4 => 12 | .r5 => 13 | .r6 => 14 | .r7 => 15
  | .r8 => 16 | .r9 => 17 | .r10 => 18 | .r11 => 19
  | .r12 => 20 | .r13 => 21 | .r14 => 22 | .r15 => 23

/-- An integer fits `VALUE_BITS` (R200). -/
def Config.fits (c : Config) (n : Int) : Bool :=
  match c.valueBits with
  | none => true
  | some w => decide (-(2 ^ (w - 1)) ≤ n) && decide (n ≤ 2 ^ (w - 1) - 1)

/-- What the loader answers for a path (R385): the table's entry, else the free value. -/
def Config.load (c : Config) (path : Token) : Option Program :=
  match c.loader.find? (fun row => row.1 == path) with
  | some row => row.2
  | none => Config.freeLoader path

namespace Machine

/-! Registers. -/

/-- `x[r]` (R7). -/
def State.reg (s : State) (r : Reg) : Value :=
  s.regs[r.index.val]

/-- `x[r] <- v` (R7, R146). -/
def State.setReg (s : State) (r : Reg) (v : Value) : State :=
  { s with regs := s.regs.set r.index v r.index.isLt }

/-! Memory. -/

/-- What a cell without an entry reads as: 0 at power-on and after reset (R58). -/
def Memory.unlisted : Int := 0

/-- `MemRead(i, 1)` (R102). -/
def Memory.read : Memory → Nat → Int
  | [], _ => Memory.unlisted
  | (a, v) :: m, i => if a = i then v else Memory.read m i

/-- Put an entry for `i` in front of `m`, unless it says what an unlisted cell reads as anyway. -/
def Memory.entry (i : Nat) (n : Int) (m : Memory) : Memory :=
  if n = Memory.unlisted then m else (i, n) :: m

/-- `MemWrite(i, 1, n)` (R102), keeping the canonical form. -/
def Memory.write : Memory → Nat → Int → Memory
  | [], i, n => Memory.entry i n []
  | (a, v) :: m, i, n =>
    if i < a then Memory.entry i n ((a, v) :: m)
    else if i = a then Memory.entry i n m
    else (a, v) :: Memory.write m i n

/-- The canonical form: cells strictly rising, no entry equal to what an unlisted cell reads as. -/
def Memory.wf (m : Memory) : Bool :=
  decide (m.Pairwise (fun p q => p.1 < q.1)) && m.all (fun p => p.2 != Memory.unlisted)

/-- `Cell(a)` (R101): the cell of a stack index, in either `STACK_INDEX_MODE`. -/
def cellOf (c : Config) (a : Int) : Except Err Nat :=
  if 0 ≤ a ∧ a < c.memCells then .ok a.toNat
  else
    match c.stackIndexMode with
    | .window =>
      if -(c.memCells : Int) ≤ a ∧ a < 0 then .ok (a + c.memCells).toNat
      else .error (.stackOutOfRange a)
    | .strict => .error (.stackOutOfRange a)

/-! Integers. -/

/-- `Fit(n)` (R200). -/
def fit (c : Config) (n : Int) : Except Err Int :=
  if c.fits n then .ok n else .error (.valueOutOfRange n)

/-- A value that an instruction copies to a register: an integer passes through `Fit` (R200), a text
stays (log entry 16). -/
def fitValue (c : Config) : Value → Except Err Value
  | .int n => (fit c n).map Value.int
  | .text t => .ok (.text t)

/-- `a // b`: floor division (R7, R206). -/
def floorDiv (a b : Int) : Int :=
  Int.fdiv a b

/-- The bits of `m` that `n` does not have. -/
def natAndNot (m n : Nat) : Nat :=
  m ^^^ (m &&& n)

/-- `a AND b` on infinite two's complement integers (R250). -/
def bitAnd : Int → Int → Int
  | .ofNat m, .ofNat n => .ofNat (m &&& n)
  | .ofNat m, .negSucc n => .ofNat (natAndNot m n)
  | .negSucc m, .ofNat n => .ofNat (natAndNot n m)
  | .negSucc m, .negSucc n => .negSucc (m ||| n)

/-- `a OR b` on infinite two's complement integers (R250). -/
def bitOr : Int → Int → Int
  | .ofNat m, .ofNat n => .ofNat (m ||| n)
  | .ofNat m, .negSucc n => .negSucc (natAndNot n m)
  | .negSucc m, .ofNat n => .negSucc (natAndNot m n)
  | .negSucc m, .negSucc n => .negSucc (m &&& n)

/-- `a XOR b` on infinite two's complement integers (R250). -/
def bitXor : Int → Int → Int
  | .ofNat m, .ofNat n => .ofNat (m ^^^ n)
  | .ofNat m, .negSucc n => .negSucc (m ^^^ n)
  | .negSucc m, .ofNat n => .negSucc (m ^^^ n)
  | .negSucc m, .negSucc n => .ofNat (m ^^^ n)

/-- `a << s` for a count `s >= 0` (R250). -/
def shiftLeft (a s : Int) : Int :=
  a * 2 ^ s.toNat

/-- `a >> s` for a count `s >= 0` (R250). -/
def shiftRight (a s : Int) : Int :=
  floorDiv a (2 ^ s.toNat)

/-- The value R256 writes for the field width `w`. -/
def rotateRight (w : Nat) (a b : Int) : Int :=
  bitOr (shiftRight a b) (shiftLeft a (w - b))

/-- The value R257 writes for the field width `w`. -/
def rotateLeft (w : Nat) (a b : Int) : Int :=
  bitOr (shiftLeft a b) (shiftRight a (w - b))

/-- The decimal digits of `n`, at most `fuel` of them, the most significant first. -/
def decimalDigits : Nat → Nat → Text
  | 0, _ => []
  | fuel + 1, n =>
    if n < 10 then [Char.ofNat (48 + n)]
    else decimalDigits fuel (n / 10) ++ [Char.ofNat (48 + n % 10)]

/-- `n` in base 10, without leading zeros. -/
def renderNat (n : Nat) : Text :=
  decimalDigits (n.log2 + 1) n

/-- `Render(v)` (R382). -/
def render : Value → Text
  | .int (.ofNat n) => renderNat n
  | .int (.negSucc n) => '-' :: renderNat (n + 1)
  | .text t => t

/-! Errors and the fault entry. -/

/-- The numeric code of a fatal error (R500). -/
def Err.code : Err → Nat
  | .unsupportedInstruction _ => 1
  | .malformedInstruction _ => 2
  | .unknownRegister _ => 3
  | .typeMismatch _ => 4
  | .divisionByZero => 5
  | .lengthMismatch _ _ => 6
  | .unknownCallTarget _ => 7
  | .includeNotFound _ => 8
  | .stackOutOfRange _ => 9
  | .valueOutOfRange _ => 10
  | .hostCallFault _ => 11

/-- The numeric code of a non-fatal error (R500). -/
def CommandErr.code : CommandErr → Nat
  | .stepWhileNotPaused => 32
  | .runRejected => 33

/-- Send an event to the host. -/
def State.emit (s : State) (e : Event) : State :=
  { s with events := e :: s.events }

/-- The fault record of an error raised in this state by the line whose text is `raw` (R511). -/
def State.faultRecord (s : State) (raw : Line) (e : Err) : FaultRecord where
  code := e.code
  index := s.rip
  text := raw
  depth := s.incStack.length

/-- Taking a fatal error raised by the line whose text is `raw` (R501): nothing of the instruction is
committed, RIP stays at the failing line, the record is saved and reported, and the run is over. -/
def State.raise (s : State) (raw : Line) (e : Err) : State :=
  { s with
    sched := .faulted
    fault := some (s.faultRecord raw e)
    errorInfo := some e
    events := .faultReport (s.faultRecord raw e) :: s.events }

/-- `reset()` (R600): the only way out of Faulted (R506). It leaves `debug`, `rate`, the parameters
and the host's side of the interfaces. -/
def State.afterReset (s : State) : State :=
  { s with
    regs := Vector.replicate 24 (.int 0)
    rip := 0
    rflags := 0
    mem := []
    out := none
    prog := []
    incStack := []
    sched := .idle
    fault := none
    errorInfo := none }

/-! How an instruction ends. -/

/-- The implicit `RIP <- RIP + 1` (R434). -/
def State.advance (s : State) : State :=
  { s with rip := s.rip + 1 }

/-- The end of an instruction of the text `raw` on the state `s` (R434): its writes are committed, RIP
advances and one `Notify` is emitted; or, where a statement raised, the fault entry is taken on `s`
itself. -/
def finish (s : State) (raw : Line) (r : Except Err State) : Host.Outcome State Fault Refusal :=
  match r with
  | .ok t => .next (t.advance.emit .notify)
  | .error e => .next (s.raise raw e)

/-- The end of an instruction that has set RIP itself and is exempt from the increment (R385, R434). -/
def finishInPlace (s : State) (raw : Line) (r : Except Err State) : Host.Outcome State Fault Refusal :=
  match r with
  | .ok t => .next (t.emit .notify)
  | .error e => .next (s.raise raw e)

/-- `AtEnd` (R432). -/
def State.atEnd (s : State) : Bool :=
  decide ((s.prog.length : Int) ≤ s.rip) && s.incStack.isEmpty

end Machine

end Sys2Proof
end

