-- ==== Sys2Proof/Machine/Operands.lean ====
section
/-! DEFINITION. The operand resolver of spec/30_encoding.md (R136 to R150): operand counts, immediates,
register references, sources, destinations, kinds, and the literal of DEFINE. -/

namespace Sys2Proof

/-- The name of a general register (R52). -/
def Reg.name : Reg → Token
  | .rax => "RAX".toList | .rbx => "RBX".toList | .rcx => "RCX".toList | .rdx => "RDX".toList
  | .rsi => "RSI".toList | .rdi => "RDI".toList | .rbp => "RBP".toList | .rsp => "RSP".toList
  | .r0 => "R0".toList | .r1 => "R1".toList | .r2 => "R2".toList | .r3 => "R3".toList
  | .r4 => "R4".toList | .r5 => "R5".toList | .r6 => "R6".toList | .r7 => "R7".toList
  | .r8 => "R8".toList | .r9 => "R9".toList | .r10 => "R10".toList | .r11 => "R11".toList
  | .r12 => "R12".toList | .r13 => "R13".toList | .r14 => "R14".toList | .r15 => "R15".toList

/-- The 24 general registers, in the order of R52. -/
def Reg.all : List Reg :=
  [.rax, .rbx, .rcx, .rdx, .rsi, .rdi, .rbp, .rsp] ++
  [.r0, .r1, .r2, .r3, .r4, .r5, .r6, .r7] ++
  [.r8, .r9, .r10, .r11, .r12, .r13, .r14, .r15]

/-- An ASCII digit (R140). -/
def isDigit (c : Char) : Bool :=
  decide (48 ≤ c.toNat) && decide (c.toNat ≤ 57)

/-- R140: a token of one or more ASCII digits is an immediate; any other is a register reference. -/
def isImmediate (t : Token) : Bool :=
  !t.isEmpty && t.all isDigit

/-- R141: the integer the digits spell in base 10. -/
def immediateValue (t : Token) : Nat :=
  t.foldl (fun n c => 10 * n + (c.toNat - 48)) 0

/-- R142: the register whose name is exactly the token. -/
def lookupReg (t : Token) : Option Reg :=
  Reg.all.find? (fun r => r.name == t)

namespace Machine

/-- `lookup(tok)` (R142). -/
def regRef (t : Token) : Except Err Reg :=
  match lookupReg t with
  | some r => .ok r
  | none => .error (.unknownRegister t)

/-- The value of an immediate, refused beyond a finite `VALUE_BITS` (R141). -/
def immediate (c : Config) (t : Token) : Except Err Nat :=
  if c.fits (immediateValue t) then .ok (immediateValue t)
  else .error (.valueOutOfRange (immediateValue t))

/-- `ReadSrc(tok)` (R143). -/
def readSrc (s : State) (t : Token) : Except Err Value :=
  if isImmediate t then (immediate s.cfg t).map (fun n : Nat => Value.int (n : Int))
  else (regRef t).map s.reg

/-- `DestRef(tok)` (R144). -/
def destRef (t : Token) : Except Err Reg :=
  if isImmediate t then .error (.malformedInstruction t) else regRef t

/-- `IntOf(v)` for the value of the operand `t` (R145). -/
def intOf (t : Token) (v : Value) : Except Err Int :=
  match v with
  | .int n => .ok n
  | .text _ => .error (.typeMismatch t)

/-- Every source token's value, resolved in order (R383). -/
def readAll (s : State) : List Token → Except Err (List Value)
  | [] => .ok []
  | t :: ts => do
    let v ← readSrc s t
    let vs ← readAll s ts
    return v :: vs

/-! Operand counts (R136, R137), for the opcode `op`. -/

/-- A line that has not the `n` operand tokens its format allows (R137). DESIGN CHOICE (log entry 7):
the offending token of R500 is the first one too many or, where one is missing, the token it is
missing after, which is the opcode where there is no operand token. -/
def countError (op : Token) (n : Nat) (ops : List Token) : Err :=
  .malformedInstruction ((ops.drop n).headD (ops.getLastD op))

/-- Format F0: no operand token. -/
def noOperand (op : Token) (ops : List Token) : Except Err Unit :=
  match ops with
  | [] => .ok ()
  | _ => .error (countError op 0 ops)

/-- Formats F1d, F1s and FI: exactly one operand token. -/
def oneOperand (op : Token) (ops : List Token) : Except Err Token :=
  match ops with
  | [a] => .ok a
  | _ => .error (countError op 1 ops)

/-- Formats F2 and F2ss: exactly two operand tokens. -/
def twoOperands (op : Token) (ops : List Token) : Except Err (Token × Token) :=
  match ops with
  | [a, b] => .ok (a, b)
  | _ => .error (countError op 2 ops)

/-! The DEFINE literal. -/

/-- R138: the tokens joined with exactly one space. -/
def joinTokens : List Token → Line
  | [] => []
  | [t] => t
  | t :: ts => t ++ ' ' :: joinTokens ts

/-- R139: the text of a well-formed raw literal, which begins and ends with a quote and has no other. -/
def stripQuotes (raw : Line) : Option Text :=
  match raw with
  | '"' :: rest =>
    match rest.reverse with
    | '"' :: body => if body.contains '"' then none else some body.reverse
    | _ => none
  | _ => none

/-- Format FD (R136, R139, R150): the destination token, the length token and the literal's text. The
offending token of a literal that is not well formed is its first one (log entry 7). -/
def defineOperands (ops : List Token) : Except Err (Token × Token × Text) :=
  match ops with
  | d :: n :: w :: ws =>
    if isImmediate n then
      match stripQuotes (joinTokens (w :: ws)) with
      | some t => .ok (d, n, t)
      | none => .error (.malformedInstruction w)
    else .error (.malformedInstruction n)
  | _ => .error (countError "DEFINE".toList 3 ops)

end Machine

end Sys2Proof
end

