-- ==== Sys2Proof/Machine/Arithmetic.lean ====
section
/-! DEFINITION. The instructions of spec/41_move_arithmetic.md: MOV ADD SUB MUL DIV INC DEC NEG. -/

namespace Sys2Proof.Machine

/-- The two-operand integer template of R201 for the opcode `op` and the integer function `f`, which
may raise. -/
def alu2 (op : Token) (f : Int → Int → Except Err Int) (ops : List Token) (s : State) :
    Except Err State := do
  let (d, src) ← twoOperands op ops
  let r ← destRef d
  let v ← readSrc s src
  let a ← intOf d (s.reg r)
  let b ← intOf src v
  let c ← f a b
  let n ← fit s.cfg c
  return s.setReg r (.int n)

/-- The one-operand integer template of R207 for the opcode `op` and the integer function `f`. -/
def alu1 (op : Token) (f : Int → Int) (ops : List Token) (s : State) : Except Err State := do
  let d ← oneOperand op ops
  let r ← destRef d
  let a ← intOf d (s.reg r)
  let n ← fit s.cfg (f a)
  return s.setReg r (.int n)

/-- R202: the source's value, of either kind, is copied unchanged; an integer passes through `Fit` as
every integer this family writes does (R200; log entry 16). -/
def movEffect (ops : List Token) (s : State) : Except Err State := do
  let (d, src) ← twoOperands "MOV".toList ops
  let r ← destRef d
  let v ← readSrc s src
  let w ← fitValue s.cfg v
  return s.setReg r w

/-- R206: the floor of the quotient; a zero divisor raises. -/
def divide (a b : Int) : Except Err Int :=
  if b = 0 then .error .divisionByZero else .ok (floorDiv a b)

/-- `MOV d s` (R202). -/
def execMov (f : Fields) (s : State) : Host.Outcome State Fault Refusal :=
  finish s f.raw (movEffect f.ops s)

/-- `ADD d s` (R203). -/
def execAdd (f : Fields) (s : State) : Host.Outcome State Fault Refusal :=
  finish s f.raw (alu2 "ADD".toList (fun a b => .ok (b + a)) f.ops s)

/-- `SUB d s` (R204). -/
def execSub (f : Fields) (s : State) : Host.Outcome State Fault Refusal :=
  finish s f.raw (alu2 "SUB".toList (fun a b => .ok (a - b)) f.ops s)

/-- `MUL d s` (R205). -/
def execMul (f : Fields) (s : State) : Host.Outcome State Fault Refusal :=
  finish s f.raw (alu2 "MUL".toList (fun a b => .ok (a * b)) f.ops s)

/-- `DIV d s` (R206). -/
def execDiv (f : Fields) (s : State) : Host.Outcome State Fault Refusal :=
  finish s f.raw (alu2 "DIV".toList divide f.ops s)

/-- `INC d` (R207). -/
def execInc (f : Fields) (s : State) : Host.Outcome State Fault Refusal :=
  finish s f.raw (alu1 "INC".toList (fun a => a + 1) f.ops s)

/-- `DEC d` (R208). -/
def execDec (f : Fields) (s : State) : Host.Outcome State Fault Refusal :=
  finish s f.raw (alu1 "DEC".toList (fun a => a - 1) f.ops s)

/-- `NEG d` (R209). -/
def execNeg (f : Fields) (s : State) : Host.Outcome State Fault Refusal :=
  finish s f.raw (alu1 "NEG".toList (fun a => -a) f.ops s)

end Sys2Proof.Machine
end

