-- ==== Sys2Proof/Machine/Bitwise.lean ====
section
/-! DEFINITION. The instructions of spec/42_bitwise.md: AND OR XOR SHL SHR ROR ROL. -/

namespace Sys2Proof.Machine

/-- A shift (R254, R255): a negative count raises. -/
def shiftBy (f : Int → Int → Int) (a b : Int) : Except Err Int :=
  if b < 0 then .error (.valueOutOfRange b) else .ok (f a b)

/-- A rotate in a field of `w` bits (R256, R257): a count outside `0 .. w` raises. -/
def rotateBy (w : Nat) (f : Nat → Int → Int → Int) (a b : Int) : Except Err Int :=
  if b < 0 ∨ (w : Int) < b then .error (.valueOutOfRange b) else .ok (f w a b)

/-- `AND d s` (R251). -/
def execAnd (f : Fields) (s : State) : Host.Outcome State Fault Refusal :=
  finish s f.raw (alu2 "AND".toList (fun a b => .ok (bitAnd a b)) f.ops s)

/-- `OR d s` (R252). -/
def execOr (f : Fields) (s : State) : Host.Outcome State Fault Refusal :=
  finish s f.raw (alu2 "OR".toList (fun a b => .ok (bitOr a b)) f.ops s)

/-- `XOR d s` (R253). -/
def execXor (f : Fields) (s : State) : Host.Outcome State Fault Refusal :=
  finish s f.raw (alu2 "XOR".toList (fun a b => .ok (bitXor a b)) f.ops s)

/-- `SHL d s` (R254). -/
def execShl (f : Fields) (s : State) : Host.Outcome State Fault Refusal :=
  finish s f.raw (alu2 "SHL".toList (shiftBy shiftLeft) f.ops s)

/-- `SHR d s` (R255). -/
def execShr (f : Fields) (s : State) : Host.Outcome State Fault Refusal :=
  finish s f.raw (alu2 "SHR".toList (shiftBy shiftRight) f.ops s)

/-- `ROR d s` (R256). -/
def execRor (f : Fields) (s : State) : Host.Outcome State Fault Refusal :=
  finish s f.raw (alu2 "ROR".toList (rotateBy s.cfg.rotWidth rotateRight) f.ops s)

/-- `ROL d s` (R257). -/
def execRol (f : Fields) (s : State) : Host.Outcome State Fault Refusal :=
  finish s f.raw (alu2 "ROL".toList (rotateBy s.cfg.rotWidth rotateLeft) f.ops s)

end Sys2Proof.Machine
end

