-- ==== Sys2Proof/Machine/Flags.lean ====
section
/-! DEFINITION. RFLAGS (spec/10_state.md R57): what CMP writes and when each conditional jump is taken
(spec/43_compare_branch.md R300 to R309). -/

namespace Sys2Proof.Machine

/-- The flag CMP writes: 1 when its operands are equal, else 0 (R300). -/
def equalFlag (m n : Int) : BitVec 1 :=
  if m = n then 1 else 0

/-- JMP is always taken (R302). -/
def takenJmp (_f : BitVec 1) : Bool := true

/-- JEQ is taken when the flag is 1 (R303). -/
def takenJeq (f : BitVec 1) : Bool := f == 1

/-- JNE is taken when the flag is 0 (R304). -/
def takenJne (f : BitVec 1) : Bool := f == 0

/-- JG is taken when the flag is 0 (R305). -/
def takenJg (f : BitVec 1) : Bool := f == 0

/-- JL is taken when the flag is 1 (R306). -/
def takenJl (f : BitVec 1) : Bool := f == 1

/-- JGE is taken when the flag is not 1 (R307). -/
def takenJge (f : BitVec 1) : Bool := f != 1

/-- JLE is taken when the flag is not 0 (R308). -/
def takenJle (f : BitVec 1) : Bool := f != 0

end Sys2Proof.Machine
end

