-- ==== Sys2Proof/Machine/Branch.lean ====
section
/-! DEFINITION. The instructions of spec/43_compare_branch.md: CMP JMP JEQ JNE JG JL JGE JLE. -/

namespace Sys2Proof.Machine

/-- R300: RFLAGS says whether the two integers are equal. -/
def cmpEffect (ops : List Token) (s : State) : Except Err State := do
  let (a, b) ← twoOperands "CMP".toList ops
  let va ← readSrc s a
  let vb ← readSrc s b
  let m ← intOf a va
  let n ← intOf b vb
  return { s with rflags := equalFlag m n }

/-- R301, for the opcode `op`: the target is resolved whether or not the jump is taken; a taken jump
sets RIP to one less, so that the implicit increment lands on the target. -/
def jump (op : Token) (taken : BitVec 1 → Bool) (clears : Bool) (ops : List Token) (s : State) :
    Except Err State := do
  let addr ← oneOperand op ops
  let v ← readSrc s addr
  let t ← intOf addr v
  return { s with
    rip := if taken s.rflags then t - 1 else s.rip
    rflags := if clears then 0 else s.rflags }

/-- `CMP a b` (R300). -/
def execCmp (f : Fields) (s : State) : Host.Outcome State Fault Refusal :=
  finish s f.raw (cmpEffect f.ops s)

/-- `JMP addr` (R302). -/
def execJmp (f : Fields) (s : State) : Host.Outcome State Fault Refusal :=
  finish s f.raw (jump "JMP".toList takenJmp false f.ops s)

/-- `JEQ addr` (R303), which clears RFLAGS. -/
def execJeq (f : Fields) (s : State) : Host.Outcome State Fault Refusal :=
  finish s f.raw (jump "JEQ".toList takenJeq true f.ops s)

/-- `JNE addr` (R304). -/
def execJne (f : Fields) (s : State) : Host.Outcome State Fault Refusal :=
  finish s f.raw (jump "JNE".toList takenJne false f.ops s)

/-- `JG addr` (R305). -/
def execJg (f : Fields) (s : State) : Host.Outcome State Fault Refusal :=
  finish s f.raw (jump "JG".toList takenJg false f.ops s)

/-- `JL addr` (R306). -/
def execJl (f : Fields) (s : State) : Host.Outcome State Fault Refusal :=
  finish s f.raw (jump "JL".toList takenJl false f.ops s)

/-- `JGE addr` (R307). -/
def execJge (f : Fields) (s : State) : Host.Outcome State Fault Refusal :=
  finish s f.raw (jump "JGE".toList takenJge false f.ops s)

/-- `JLE addr` (R308). -/
def execJle (f : Fields) (s : State) : Host.Outcome State Fault Refusal :=
  finish s f.raw (jump "JLE".toList takenJle false f.ops s)

end Sys2Proof.Machine
end

