-- ==== Sys2Proof/Machine/Calls.lean ====
section
/-! DEFINITION. The instructions of spec/45_define_call_halt.md: DEFINE CALL HLT INCLUDE and the
declared but unimplemented NOT RET STRING COV JE; and the two other results of the decoder, the skip
line and the unknown opcode. -/

namespace Sys2Proof.Machine

/-! DEFINE. -/

/-- R380: the literal's text goes to the destination when its length is the declared one. -/
def defineEffect (ops : List Token) (s : State) : Except Err State := do
  let (d, len, t) ← defineOperands ops
  let r ← destRef d
  let n ← immediate s.cfg len
  if t.length = n then return s.setReg r (.text t)
  else .error (.lengthMismatch n t.length)

/-- `DEFINE d n "text"` (R380). -/
def execDefine (f : Fields) (s : State) : Host.Outcome State Fault Refusal :=
  finish s f.raw (defineEffect f.ops s)

/-! CALL. -/

/-- The call table's names (R381, R387). -/
def callTable : List Token :=
  ["print".toList, "input".toList, "wait".toList, "play".toList,
    "add".toList, "sub".toList, "mul".toList, "div".toList]

/-- R382: the output buffer becomes the rendering of the one argument. -/
def printEffect (args : List Token) (s : State) : Except Err State := do
  let src ← oneOperand "print".toList args
  let v ← readSrc s src
  return { s with out := some (render v) }

/-- The writes of a host's answer, in list order (R383): each must name, as one of the call's
argument tokens does, a general register. -/
def hostWrites (name : Token) (args : List Token) :
    List (Token × Value) → State → Except Err State
  | [], s => .ok s
  | (t, v) :: ws, s =>
    match lookupReg t with
    | some r =>
      if args.contains t then hostWrites name args ws (s.setReg r v)
      else .error (.hostCallFault name)
    | none => .error (.hostCallFault name)

/-- What a host's answer does to the state (R383). -/
def applyAnswer (name : Token) (args : List Token) (answer : HostAnswer) (s : State) :
    Except Err State :=
  match answer with
  | .fail => .error (.hostCallFault name)
  | .ok ws out => do
    let t ← hostWrites name args ws s
    match out with
    | some o => return { t with out := some o }
    | none => return t

/-- The answer of a configured `CALL_HANDLER` (R383): the next one the state holds, else the free
value for this call (log entry 3). -/
def State.hostAnswer (s : State) (name : Token) (args : List Token) (vals : List Value) :
    HostAnswer :=
  match s.hostAnswers with
  | a :: _ => a
  | [] => Config.freeAnswer s.draws name args vals

/-- The state after the host has answered one call: that answer is used up. -/
def State.answered (s : State) : State :=
  { s with hostAnswers := s.hostAnswers.tail, draws := s.draws + 1 }

/-- R383: a host call; without a `CALL_HANDLER` it fails. -/
def hostCall (name : Token) (args : List Token) (raw : Line) (s : State) :
    Host.Outcome State Fault Refusal :=
  match readAll s args with
  | .error e => .next (s.raise raw e)
  | .ok vals =>
    if s.cfg.callHandler then
      finish s.answered raw (applyAnswer name args (s.hostAnswer name args vals) s.answered)
    else .next (s.raise raw (.hostCallFault name))

/-- `CALL name a1 ... ak` (R381). -/
def execCall (f : Fields) (s : State) : Host.Outcome State Fault Refusal :=
  match f.ops with
  | [] => .next (s.raise f.raw (.malformedInstruction "CALL".toList))
  | name :: args =>
    if callTable.contains name then
      if name == "print".toList then finish s f.raw (printEffect args s)
      else hostCall name args f.raw s
    else .next (s.raise f.raw (.unknownCallTarget name))

/-! HLT and INCLUDE. -/

/-- `HLT` (R384): nothing but the implicit increment. -/
def execHlt (f : Fields) (s : State) : Host.Outcome State Fault Refusal :=
  finish s f.raw ((noOperand "HLT".toList f.ops).map (fun _ => s))

/-- R385 and R386: suspend the running program and begin the loaded one at its line 0. -/
def includeEffect (ops : List Token) (s : State) : Except Err State :=
  match s.cfg.includeMode with
  | .refuse => .error (.unsupportedInstruction "INCLUDE".toList)
  | .nested => do
    let path ← oneOperand "INCLUDE".toList ops
    match s.cfg.load path with
    | none => .error (.includeNotFound path)
    | some q => return { s with
        incStack := ⟨s.prog, s.rip + 1⟩ :: s.incStack
        prog := q
        rip := 0 }

/-- `INCLUDE path` (R385, R386). -/
def execInclude (f : Fields) (s : State) : Host.Outcome State Fault Refusal :=
  finishInPlace s f.raw (includeEffect f.ops s)

/-! Declared but unimplemented opcodes, and the rest of the decoder's answers. -/

/-- `NOT`, unsupported whatever its operands (R388). -/
def execNot (f : Fields) (s : State) : Host.Outcome State Fault Refusal :=
  .next (s.raise f.raw (.unsupportedInstruction "NOT".toList))

/-- `RET`, unsupported whatever its operands (R388). -/
def execRet (f : Fields) (s : State) : Host.Outcome State Fault Refusal :=
  .next (s.raise f.raw (.unsupportedInstruction "RET".toList))

/-- `STRING`, unsupported whatever its operands (R388). -/
def execString (f : Fields) (s : State) : Host.Outcome State Fault Refusal :=
  .next (s.raise f.raw (.unsupportedInstruction "STRING".toList))

/-- `COV`, unsupported whatever its operands (R388). -/
def execCov (f : Fields) (s : State) : Host.Outcome State Fault Refusal :=
  .next (s.raise f.raw (.unsupportedInstruction "COV".toList))

/-- `JE`, unsupported whatever its operands (R388). -/
def execJe (f : Fields) (s : State) : Host.Outcome State Fault Refusal :=
  .next (s.raise f.raw (.unsupportedInstruction "JE".toList))

/-- A skip line (R132, R433): RIP advances; it is no instruction, so no `Notify`. -/
def execSkipLine (s : State) : Host.Outcome State Fault Refusal :=
  .next s.advance

/-- A line whose opcode is unknown (R152). -/
def execUnknownOpcode (u : UnknownFields) (s : State) : Host.Outcome State Fault Refusal :=
  .next (s.raise u.raw (.unsupportedInstruction u.tok))

end Sys2Proof.Machine
end

