-- ==== Sys2Proof/Machine/Stack.lean ====
section
/-! DEFINITION. The instructions of spec/44_stack.md: PUSH POP, in both orders of `POP_ORDER`. -/

namespace Sys2Proof.Machine

/-- The stack index: the integer in RSP (R54). -/
def stackIndex (s : State) : Except Err Int :=
  intOf (Reg.name .rsp) (s.reg .rsp)

/-- R350: store at RSP, then decrement RSP. -/
def pushEffect (ops : List Token) (s : State) : Except Err State := do
  let src ← oneOperand "PUSH".toList ops
  let v ← readSrc s src
  let n ← intOf src v
  let sp ← stackIndex s
  let i ← cellOf s.cfg sp
  let sp' ← fit s.cfg (sp - 1)
  return { s with mem := Memory.write s.mem i n }.setReg .rsp (.int sp')

/-- R351 with `ReadThenIncrement`: read at RSP, then increment the RSP found after that write. Both
integers pass through `Fit` (R200; log entry 16). -/
def popReadThenIncrement (r : Reg) (s : State) : Except Err State := do
  let sp ← stackIndex s
  let i ← cellOf s.cfg sp
  let v ← fit s.cfg (Memory.read s.mem i)
  let t := s.setReg r (.int v)
  let sp' ← stackIndex t
  let n ← fit s.cfg (sp' + 1)
  return t.setReg .rsp (.int n)

/-- R351 with `IncrementThenRead`: increment RSP, then read at the new RSP. Both integers pass through
`Fit` (R200; log entry 16). -/
def popIncrementThenRead (r : Reg) (s : State) : Except Err State := do
  let sp ← stackIndex s
  let i ← cellOf s.cfg (sp + 1)
  let n ← fit s.cfg (sp + 1)
  let v ← fit s.cfg (Memory.read s.mem i)
  return (s.setReg .rsp (.int n)).setReg r (.int v)

/-- R351: the destination, then the pop in the order `POP_ORDER` says. -/
def popEffect (ops : List Token) (s : State) : Except Err State := do
  let d ← oneOperand "POP".toList ops
  let r ← destRef d
  match s.cfg.popOrder with
  | .readThenIncrement => popReadThenIncrement r s
  | .incrementThenRead => popIncrementThenRead r s

/-- `PUSH s` (R350). -/
def execPush (f : Fields) (s : State) : Host.Outcome State Fault Refusal :=
  finish s f.raw (pushEffect f.ops s)

/-- `POP d` (R351). -/
def execPop (f : Fields) (s : State) : Host.Outcome State Fault Refusal :=
  finish s f.raw (popEffect f.ops s)

end Sys2Proof.Machine
end

