-- ==== Sys2Proof/Machine/Dispatch.lean ====
section
/-! DEFINITION. One arm per constructor of Instr (spec/30_encoding.md R155). -/

namespace Sys2Proof.Machine

def exec (i : Instr) (s : State) : Host.Outcome State Fault Refusal :=
  match i with
  -- spec/41_move_arithmetic.md
  | .mov f => Sys2Proof.Machine.execMov f s
  | .add f => Sys2Proof.Machine.execAdd f s
  | .sub f => Sys2Proof.Machine.execSub f s
  | .mul f => Sys2Proof.Machine.execMul f s
  | .div f => Sys2Proof.Machine.execDiv f s
  | .inc f => Sys2Proof.Machine.execInc f s
  | .dec f => Sys2Proof.Machine.execDec f s
  | .neg f => Sys2Proof.Machine.execNeg f s
  -- spec/42_bitwise.md
  | .andOp f => Sys2Proof.Machine.execAnd f s
  | .orOp f => Sys2Proof.Machine.execOr f s
  | .xorOp f => Sys2Proof.Machine.execXor f s
  | .shl f => Sys2Proof.Machine.execShl f s
  | .shr f => Sys2Proof.Machine.execShr f s
  | .ror f => Sys2Proof.Machine.execRor f s
  | .rol f => Sys2Proof.Machine.execRol f s
  -- spec/43_compare_branch.md
  | .cmp f => Sys2Proof.Machine.execCmp f s
  | .jmp f => Sys2Proof.Machine.execJmp f s
  | .jeq f => Sys2Proof.Machine.execJeq f s
  | .jne f => Sys2Proof.Machine.execJne f s
  | .jg f => Sys2Proof.Machine.execJg f s
  | .jl f => Sys2Proof.Machine.execJl f s
  | .jge f => Sys2Proof.Machine.execJge f s
  | .jle f => Sys2Proof.Machine.execJle f s
  -- spec/44_stack.md
  | .push f => Sys2Proof.Machine.execPush f s
  | .pop f => Sys2Proof.Machine.execPop f s
  -- spec/45_define_call_halt.md
  | .define f => Sys2Proof.Machine.execDefine f s
  | .call f => Sys2Proof.Machine.execCall f s
  | .hlt f => Sys2Proof.Machine.execHlt f s
  | .incl f => Sys2Proof.Machine.execInclude f s
  | .notOp f => Sys2Proof.Machine.execNot f s
  | .ret f => Sys2Proof.Machine.execRet f s
  | .string f => Sys2Proof.Machine.execString f s
  | .cov f => Sys2Proof.Machine.execCov f s
  | .je f => Sys2Proof.Machine.execJe f s
  -- spec/30_encoding.md R132 and R152
  | .skipLine => Sys2Proof.Machine.execSkipLine s
  | .unknownOpcode f => Sys2Proof.Machine.execUnknownOpcode f s

end Sys2Proof.Machine
end

