-- ==== Sys2Proof/Machine/Scheduler.lean ====
section
/-! DEFINITION. The scheduler of spec/46_scheduler.md: fetch (R432), micro-step (R433), running and the
debug pause (R435, R436), the host commands (R437 to R441) and the accessors (R444). -/

namespace Sys2Proof.Machine

/-- What a fetch finds (R432). -/
inductive Fetched where
  /-- RIP is negative: the fetch raises. -/
  | negative
  /-- An included program has ended: the frame to return to, and the frames below it. -/
  | leave (f : Frame) (rest : List Frame)
  /-- The program has ended with no frame open: no run fetches here (log entry 13). -/
  | ended
  /-- The line at RIP. -/
  | line (l : Line)
  deriving DecidableEq, Repr

/-- What a micro-step consumed (R433). -/
inductive Consumed where
  | nothing
  | includeReturn
  | skipped
  | executed
  | raised
  deriving DecidableEq, Repr

/-- Go on with the state of a next outcome; a fault or a refusal stays. -/
def andThen {α β : Type} (o : Host.Outcome α Fault Refusal)
    (f : α → Host.Outcome β Fault Refusal) : Host.Outcome β Fault Refusal :=
  match o with
  | .next a => f a
  | .fault r => .fault r
  | .refused r => .refused r

/-- `Fetch()` (R432), as what it finds. -/
def fetch (s : State) : Fetched :=
  if s.rip < 0 then .negative
  else
    match s.prog[s.rip.toNat]?, s.incStack with
    | some l, _ => .line l
    | none, f :: rest => .leave f rest
    | none, [] => .ended

/-- The end test of R433. -/
def endTest (s : State) : State :=
  if (s.sched = .running ∨ s.sched = .paused) ∧ s.atEnd then { s with sched := .halted } else s

/-- Which kind of line was consumed, from the decoded line and the state after it. -/
def consumedBy (i : Instr) (t : State) : Consumed :=
  if t.sched = .faulted then .raised else if i = .skipLine then .skipped else .executed

/-- One fetched line: decode it anew (R112), execute it (R434), and make the end test. -/
def runLine (l : Line) (s : State) : Host.Outcome (Consumed × State) Fault Refusal :=
  andThen (exec (decode l) s) (fun t => .next (consumedBy (decode l) t, endTest t))

/-- `MicroStep()` (R433); a fetch that raises has no line text (R62). -/
def microStep (s : State) : Host.Outcome (Consumed × State) Fault Refusal :=
  match fetch s with
  | .negative => .next (.raised, s.raise [] (.valueOutOfRange s.rip))
  | .leave f rest =>
    .next (.includeReturn, endTest { s with prog := f.prog, rip := f.resume, incStack := rest })
  | .ended => .next (.nothing, endTest s)
  | .line l => runLine l s

/-- R436: in debug mode an executed instruction pauses a machine that still runs. -/
def debugPause (c : Consumed) (t : State) : State :=
  if c = .executed ∧ t.debug = true ∧ t.sched = .running then { t with sched := .paused } else t

/-- One turn of the core: a micro-step while Running (R435); in any other state the core waits for
the host, and nothing changes (log entry 5). -/
def coreTurn (s : State) : Host.Outcome State Fault Refusal :=
  if s.sched = .running then
    andThen (microStep s) (fun p => .next (debugPause p.1 p.2))
  else .next s

/-! Host commands. -/

/-- The effect of an accepted `run(P)` (R437). -/
def startRun (P : Program) (s : State) : State :=
  endTest { s with
    prog := P
    incStack := []
    rip := 0
    fault := none
    errorInfo := none
    sched := .running }

/-- How many lines and include returns the machine can consume before it is at the end. -/
def State.linesLeft (s : State) : Nat :=
  ((s.prog.length : Int) - s.rip).toNat +
    (s.incStack.map (fun f => ((f.prog.length : Int) - f.resume).toNat + 1)).sum

/-- The loop of R439: micro-steps until an instruction was executed or raised, or the machine is
Halted. `fuel` bounds it; `linesLeft + 1` is always enough (log entry 12). -/
def stepLoop : Nat → State → Host.Outcome State Fault Refusal
  | 0, s => .next s
  | fuel + 1, s =>
    andThen (microStep s) (fun p =>
      if p.1 = .executed ∨ p.1 = .raised ∨ p.2.sched = .halted then .next p.2
      else stepLoop fuel p.2)

/-- One host command with its answer (R437 to R441, R600). -/
def command (c : Command) (s : State) : Host.Outcome State Fault Refusal :=
  match c with
  | .run P =>
    if s.sched = .idle ∨ s.sched = .halted then .next (startRun P (s.emit .accepted))
    else .next (s.emit (.rejected .runRejected))
  | .step =>
    if s.sched = .paused then stepLoop (s.linesLeft + 1) (s.emit .accepted)
    else .next (s.emit (.rejected .stepWhileNotPaused))
  | .reset => .next (s.afterReset.emit .accepted)
  | .setDebug b => .next ({ s with debug := b }.emit .accepted)
  | .setRate n => .next ({ s with rate := n }.emit .accepted)

/-- One turn (R430, R445): the host's or the core's next one, and the core's where none is listed. -/
def takeTurn (s : State) : Host.Outcome State Fault Refusal :=
  match s.turns with
  | [] => coreTurn s
  | .core :: rest => coreTurn { s with turns := rest }
  | .host c :: rest => command c { s with turns := rest }

/-! Accessors (R444): pure functions of the state. -/

/-- `readReg(name)` (R444): a general register, RIP or RFLAGS; no other name has an answer. -/
def readReg (s : State) (name : Token) : Option Value :=
  match lookupReg name with
  | some r => some (s.reg r)
  | none =>
    if name = "RIP".toList then some (.int s.rip)
    else if name = "RFLAGS".toList then some (.int s.rflags.toNat)
    else none

/-- `readOutput()` (R444). -/
def readOutput (s : State) : Option Text :=
  s.out

/-- `readState()` (R444). -/
def readState (s : State) : Sched × Option FaultRecord :=
  (s.sched, s.fault)

end Sys2Proof.Machine
end

