-- ==== Sys2Proof/Machine/Step.lean ====
section
/-! DEFINITION. The step of the machine: one turn of spec/46_scheduler.md R430 and R445. -/

namespace Sys2Proof.Machine

/-- One turn: a micro-step of the core, or a command of the host. -/
def step (s : State) : Host.Outcome State Fault Refusal :=
  takeTurn s

/-- The state in which the very next step runs the line a number of the opcode table stands for: the
host has run that one-line program (R437), and it is the core's turn (log entry 11). -/
def State.withFetchWord (s : State) (nbits w : Nat) : State :=
  { startRun [tableWordLine nbits w] s with turns := [] }

end Sys2Proof.Machine
end

