-- ==== Sys2Proof/WellFormed.lean ====
section
/-! DEFINITION. Which instructions are well formed: those that the decoder of spec/30_encoding.md can
produce from some line. How MANY operand tokens a line has is no part of this check: a line with a
wrong number decodes, and raises when it executes (R137, R154). -/

namespace Sys2Proof

/-- A token is one or more non-whitespace characters (R133). -/
def Token.wellFormed (t : Token) : Bool :=
  !t.isEmpty && t.all (fun c => !isSpace c)

/-- An unknown opcode as the decoder reports it: a token that does not begin a comment (R132), has no
lower-case ASCII letter left (R134) and is not in the opcode table (R152). -/
def Token.isUnknownOpcode (t : Token) : Bool :=
  Token.wellFormed t && t.head? != some ';' && foldCase t == t &&
    opcodeTable.all (fun row => row.1 != t)

/-- The instruction's text is an instruction line, cut into a token of this opcode (in either case) and
these operand tokens (R133, R134, R154); a skip line carries no text, and an unknown opcode no operand
tokens. -/
def Instr.agreesWithRaw : Instr → Bool
  | .skipLine => true
  | .unknownOpcode u => !isSkip u.raw && (tokens u.raw).head?.map foldCase == some u.tok
  | i => !isSkip i.raw &&
    match tokens i.raw with
    | [] => false
    | t :: ops => foldCase t == i.opcodeName && ops == i.operands

/-- The opcode and the operand tokens are ones the decoder can cut. -/
def Instr.tokensWellFormed : Instr → Bool
  | .skipLine => true
  | .unknownOpcode u => Token.isUnknownOpcode u.tok
  | i => i.operands.all Token.wellFormed

/-- The instruction is one the decoder can produce. -/
def Instr.wellFormed (i : Instr) : Bool :=
  i.tokensWellFormed && i.agreesWithRaw

end Sys2Proof
end

