-- ==== Sys2Proof/Safety.lean ====
section
/-! DEFINITION. The terms claims use: the invariant of the machine, safe and ended runs, what an
operand token means (said from the spec's words, without the resolver), and how an instruction ends. -/

namespace Sys2Proof.Machine

/-- The raw text of the line at RIP, empty where there is none (R62). -/
def State.lineText (s : State) : Line :=
  if 0 ≤ s.rip then (s.prog[s.rip.toNat]?).getD [] else []

/-! The invariant. -/

/-- What every step keeps, from whatever state it holds in. -/
structure Inv (s : State) : Prop where
  /-- The parameters have legal values (R5). -/
  cfg_legal : s.cfg.legal = true
  /-- Memory is in its canonical form. -/
  mem_wf : Memory.wf s.mem = true
  /-- Memory lists only cells that exist (R58). -/
  mem_cells : ∀ p ∈ s.mem, p.1 < s.cfg.memCells
  /-- A frame resumes after the line of its program that included (R385). -/
  frames : ∀ f ∈ s.incStack, 0 < f.resume ∧ f.resume ≤ f.prog.length
  /-- A machine that can still run is not at the end of its program (R433, R437). -/
  active_before_end : s.sched = .running ∨ s.sched = .paused → s.atEnd = false
  /-- Halted means that RIP is past the last line and no include is open (R61, R432). -/
  halted_at_end : s.sched = .halted → s.atEnd = true
  /-- Idle means that no program is loaded (R61). -/
  idle_empty : s.sched = .idle → s.prog = [] ∧ s.incStack = [] ∧ s.rip = 0
  /-- There is a fault record exactly in Faulted (R62). -/
  fault_iff : s.sched = .faulted ↔ s.fault.isSome = true
  /-- The record describes the line RIP stays at (R501, R511), and its code is a fatal one (R500). -/
  fault_record : ∀ f, s.fault = some f →
    f.index = s.rip ∧ f.text = s.lineText ∧ f.depth = s.incStack.length ∧ 1 ≤ f.code ∧ f.code ≤ 11
  /-- The recorded info belongs to the recorded code. -/
  fault_info : s.fault.map (fun f => f.code) = s.errorInfo.map Err.code

/-! Runs. -/

/-- The run has met no fatal error. -/
def Safe (s : State) : Prop :=
  s.sched ≠ .faulted

/-- The run has ended normally (R446). -/
def EndedNormally (s : State) : Prop :=
  s.sched = .halted

/-- The run has ended abnormally (R446). -/
def EndedAbnormally (s : State) : Prop :=
  s.sched = .faulted

/-- `t` is reached from `s` in `n` steps. -/
def Reaches (s : State) (n : Nat) (t : State) : Prop :=
  Host.Core.run ⟨State, Fault, Refusal, step, State.reset⟩ n s = .next t

/-! What an operand token means, from the words of R140 to R144. -/

/-- One or more ASCII digits (R140). -/
def IsDigits (t : Token) : Prop :=
  t ≠ [] ∧ ∀ c ∈ t, 48 ≤ c.toNat ∧ c.toNat ≤ 57

/-- The token names no general register (R142). -/
def NamesNoRegister (t : Token) : Prop :=
  ∀ r : Reg, t ≠ r.name

/-- The source token `t` denotes the value `v` (R143). -/
def SrcIs (s : State) (t : Token) (v : Value) : Prop :=
  (IsDigits t ∧ s.cfg.fits (immediateValue t) = true ∧ v = .int (immediateValue t)) ∨
    ∃ r : Reg, t = r.name ∧ v = s.reg r

/-- The source token `t` raises the error with this code (R141, R142). -/
def SrcFails (s : State) (t : Token) (code : Nat) : Prop :=
  (IsDigits t ∧ s.cfg.fits (immediateValue t) = false ∧ code = 10) ∨
    (¬ IsDigits t ∧ NamesNoRegister t ∧ code = 3)

/-- The destination token `t` raises the error with this code (R144). -/
def DestFails (t : Token) (code : Nat) : Prop :=
  (IsDigits t ∧ code = 2) ∨ (¬ IsDigits t ∧ NamesNoRegister t ∧ code = 3)

/-- An integer value fits `VALUE_BITS`; a text always does (R200). -/
def ValueFits (c : Config) (v : Value) : Prop :=
  ∀ n, v = .int n → c.fits n = true

/-- The stack index `a` is the cell `i` (R101). -/
def CellIs (c : Config) (a : Int) (i : Nat) : Prop :=
  (0 ≤ a ∧ a < c.memCells ∧ a = i) ∨
    (c.stackIndexMode = .window ∧ -(c.memCells : Int) ≤ a ∧ a < 0 ∧ a + c.memCells = i)

/-- The stack index `a` is no cell (R101). -/
def NoCell (c : Config) (a : Int) : Prop :=
  ∀ i, ¬ CellIs c a i

/-- `t` is the canonical decimal spelling of `n`: digits of value `n` without a leading zero. -/
def SpellsNat (t : Text) (n : Nat) : Prop :=
  IsDigits t ∧ immediateValue t = n ∧ (t.head? = some '0' → t = ['0'])

/-- `t` is the rendering of `v` (R382). -/
def Renders (v : Value) (t : Text) : Prop :=
  match v with
  | .int n => (0 ≤ n ∧ SpellsNat t n.toNat) ∨ (n < 0 ∧ ∃ u, t = '-' :: u ∧ SpellsNat u (-n).toNat)
  | .text x => t = x

/-! How an instruction ends. -/

/-- Executing `i` raises an error with this code (R500) and takes the fault entry of R501: the record,
with the text `i` carries (R154, R511), is saved and reported, the machine is Faulted, and nothing else
changes. (That the error's info stands in the field `errorInfo` and the report in `events` is the
model's form: log entries 7 and 6.) -/
def Raises (i : Instr) (s : State) (code : Nat) : Prop :=
  ∃ e : Err, e.code = code ∧
    exec i s = .next { s with
      sched := .faulted
      fault := some ⟨code, s.rip, i.raw, s.incStack.length⟩
      errorInfo := some e
      events := .faultReport ⟨code, s.rip, i.raw, s.incStack.length⟩ :: s.events }

/-- Executing `i` completes with only register writes: RIP advances, one `Notify` goes out, and all
that is neither a register nor these two is as before (R434, R443). -/
def CompletesWithRegs (i : Instr) (s t : State) : Prop :=
  exec i s = .next t ∧
    t = { s with regs := t.regs, rip := s.rip + 1, events := .notify :: s.events }

/-- Register `r` holds `v` in `t`, and every other register is as in `s`. -/
def WritesReg (s t : State) (r : Reg) (v : Value) : Prop :=
  t.reg r = v ∧ ∀ q, q ≠ r → t.reg q = s.reg q

/-- The two-operand integer instruction `mk ⟨[d, src], raw⟩` computes `f` and raises its errors in the
order of R201: count, destination, source, kinds (destination first), the errors of `f`, width. -/
def TwoOperandInteger (mk : Fields → Instr) (f : State → Int → Int → Except Nat Int) : Prop :=
  ∀ (s : State) (raw : Line),
    (∀ ops, ops.length ≠ 2 → Raises (mk ⟨ops, raw⟩) s 2) ∧
    ∀ d src : Token,
      (∀ c, DestFails d c → Raises (mk ⟨[d, src], raw⟩) s c) ∧
      ∀ r : Reg, d = r.name →
        (∀ c, SrcFails s src c → Raises (mk ⟨[d, src], raw⟩) s c) ∧
        ∀ v, SrcIs s src v →
          (∀ x, s.reg r = .text x → Raises (mk ⟨[d, src], raw⟩) s 4) ∧
          (∀ a x, s.reg r = .int a → v = .text x → Raises (mk ⟨[d, src], raw⟩) s 4) ∧
          ∀ a b, s.reg r = .int a → v = .int b →
            (∀ c, f s a b = .error c → Raises (mk ⟨[d, src], raw⟩) s c) ∧
            (∀ n, f s a b = .ok n → s.cfg.fits n = false → Raises (mk ⟨[d, src], raw⟩) s 10) ∧
            ∀ n, f s a b = .ok n → s.cfg.fits n = true →
              ∃ t, CompletesWithRegs (mk ⟨[d, src], raw⟩) s t ∧ WritesReg s t r (.int n)

/-- The one-operand integer instruction `mk ⟨[d], raw⟩` computes `f`, with the errors of R207 in
its order. -/
def OneOperandInteger (mk : Fields → Instr) (f : Int → Int) : Prop :=
  ∀ (s : State) (raw : Line),
    (∀ ops, ops.length ≠ 1 → Raises (mk ⟨ops, raw⟩) s 2) ∧
    ∀ d : Token,
      (∀ c, DestFails d c → Raises (mk ⟨[d], raw⟩) s c) ∧
      ∀ r : Reg, d = r.name →
        (∀ x, s.reg r = .text x → Raises (mk ⟨[d], raw⟩) s 4) ∧
        ∀ a, s.reg r = .int a →
          (s.cfg.fits (f a) = false → Raises (mk ⟨[d], raw⟩) s 10) ∧
          (s.cfg.fits (f a) = true →
            ∃ t, CompletesWithRegs (mk ⟨[d], raw⟩) s t ∧ WritesReg s t r (.int (f a)))

/-- The jump `mk ⟨[addr], raw⟩` is taken when the flag is in `taken` and then clears the flag or leaves
it, with the errors of R301 in its order; the target is resolved whether or not the jump is taken. -/
def JumpInstruction (mk : Fields → Instr) (taken : BitVec 1 → Prop) (clears : Bool) : Prop :=
  ∀ (s : State) (raw : Line),
    (∀ ops, ops.length ≠ 1 → Raises (mk ⟨ops, raw⟩) s 2) ∧
    ∀ addr : Token,
      (∀ c, SrcFails s addr c → Raises (mk ⟨[addr], raw⟩) s c) ∧
      (∀ x, SrcIs s addr (.text x) → Raises (mk ⟨[addr], raw⟩) s 4) ∧
      ∀ n, SrcIs s addr (.int n) →
        (taken s.rflags → exec (mk ⟨[addr], raw⟩) s = .next { s with
          rip := n
          rflags := if clears then 0 else s.rflags
          events := .notify :: s.events }) ∧
        (¬ taken s.rflags → exec (mk ⟨[addr], raw⟩) s = .next { s with
          rip := s.rip + 1
          rflags := if clears then 0 else s.rflags
          events := .notify :: s.events })

/-! Turns. -/

/-- It is the core's turn in `s` (R430, R445; log entry 4), and `u` is `s` with that turn used up. -/
def CoreTurn (s u : State) : Prop :=
  (s.turns = [] ∧ u = s) ∨ ∃ rest, s.turns = .core :: rest ∧ u = { s with turns := rest }

/-- `RIP >= |prog|` and no include is open (R432). -/
abbrev PastTheEnd (s : State) : Prop :=
  (s.prog.length : Int) ≤ s.rip ∧ s.incStack = []

/-! What an error records (R500). -/

/-- `tok` is the token at fault where `ops` are not `n` operand tokens: the first one too many, else
the last token of the opcode and its operands (log entry 7: which token it is, is the model's choice). -/
def CountFault (op : Token) (n : Nat) (ops : List Token) (tok : Token) : Prop :=
  (∃ before rest, ops = before ++ tok :: rest ∧ before.length = n) ∨
    (ops.length < n ∧ (op :: ops).getLast? = some tok)

/-- The literal of a DEFINE with these tokens is the quoted text `t` (R138, R139). -/
def QuotedLiteral (w : Token) (ws : List Token) (t : Text) : Prop :=
  '"' ∉ t ∧ w ++ ws.flatMap (fun x => ' ' :: x) = '"' :: (t ++ ['"'])

/-- `tok` makes the instruction malformed by the number of its operand tokens (R136, R137, R382). -/
def Miscounted (i : Instr) (tok : Token) : Prop :=
  match i with
  | .hlt f => CountFault i.opcodeName 0 f.ops tok
  | .inc f | .dec f | .neg f | .push f | .pop f | .incl f
  | .jmp f | .jeq f | .jne f | .jg f | .jl f | .jge f | .jle f =>
    CountFault i.opcodeName 1 f.ops tok
  | .mov f | .add f | .sub f | .mul f | .div f | .andOp f | .orOp f | .xorOp f
  | .shl f | .shr f | .ror f | .rol f | .cmp f => CountFault i.opcodeName 2 f.ops tok
  | .define f => f.ops.length < 3 ∧ (i.opcodeName :: f.ops).getLast? = some tok
  | .call f => (f.ops = [] ∧ tok = i.opcodeName) ∨
      ∃ args, f.ops = "print".toList :: args ∧ CountFault "print".toList 1 args tok
  | .notOp _ | .ret _ | .string _ | .cov _ | .je _ | .skipLine | .unknownOpcode _ => False

/-- `tok` is the destination token of the instruction (R136). -/
def DestinationIs (i : Instr) (tok : Token) : Prop :=
  match i with
  | .mov f | .add f | .sub f | .mul f | .div f | .inc f | .dec f | .neg f
  | .andOp f | .orOp f | .xorOp f | .shl f | .shr f | .ror f | .rol f
  | .pop f | .define f => f.ops.head? = some tok
  | .cmp _ | .jmp _ | .jeq _ | .jne _ | .jg _ | .jl _ | .jge _ | .jle _ | .push _ | .call _
  | .hlt _ | .incl _ | .notOp _ | .ret _ | .string _ | .cov _ | .je _ | .skipLine
  | .unknownOpcode _ => False

/-- `tok` is the offending token of a malformed instruction (R500): a wrong count, an immediate
destination (R144), a DEFINE length that is no immediate (R150), or the first token of a literal that
is not well formed (R139; log entry 7). -/
def OffendingToken (i : Instr) (tok : Token) : Prop :=
  Miscounted i tok ∨ (DestinationIs i tok ∧ IsDigits tok) ∨
    (∃ d ws raw, i = .define ⟨d :: tok :: ws, raw⟩ ∧ ws ≠ [] ∧ ¬ IsDigits tok) ∨
    ∃ d len ws raw, i = .define ⟨d :: len :: tok :: ws, raw⟩ ∧ ∀ t, ¬ QuotedLiteral tok ws t

/-- `n` is the shift or rotate count of the instruction and out of its range (R254 to R257). -/
def CountOutOfRange (s : State) (i : Instr) (n : Int) : Prop :=
  ∃ d src raw, SrcIs s src (.int n) ∧
    ((n < 0 ∧ (i = .shl ⟨[d, src], raw⟩ ∨ i = .shr ⟨[d, src], raw⟩)) ∨
      ((n < 0 ∨ (s.cfg.rotWidth : Int) < n) ∧
        (i = .ror ⟨[d, src], raw⟩ ∨ i = .rol ⟨[d, src], raw⟩)))

/-- `n` is the function `f` of the integers of the destination and the source. -/
def Result2 (s : State) (ops : List Token) (f : Int → Int → Int) (n : Int) : Prop :=
  ∃ src r a b, ops = [Reg.name r, src] ∧ s.reg r = .int a ∧ SrcIs s src (.int b) ∧ n = f a b

/-- `n` is the function `f` of the integer of the destination. -/
def Result1 (s : State) (ops : List Token) (f : Int → Int) (n : Int) : Prop :=
  ∃ r a, ops = [Reg.name r] ∧ s.reg r = .int a ∧ n = f a

/-- `n` is an integer that the instruction would write to a register (R202 to R209, R251 to R257, R350,
R351): its result, the copied or popped integer, or the new RSP. -/
def WouldWrite (s : State) (i : Instr) (n : Int) : Prop :=
  match i with
  | .mov f => ∃ d src, f.ops = [d, src] ∧ SrcIs s src (.int n)
  | .add f => Result2 s f.ops (fun a b => b + a) n
  | .sub f => Result2 s f.ops (fun a b => a - b) n
  | .mul f => Result2 s f.ops (fun a b => a * b) n
  | .div f => Result2 s f.ops (fun a b => ⌊(a : ℚ) / (b : ℚ)⌋) n
  | .inc f => Result1 s f.ops (fun a => a + 1) n
  | .dec f => Result1 s f.ops (fun a => a - 1) n
  | .neg f => Result1 s f.ops (fun a => -a) n
  | .andOp f => Result2 s f.ops Int.land n
  | .orOp f => Result2 s f.ops Int.lor n
  | .xorOp f => Result2 s f.ops Int.xor n
  | .shl f => Result2 s f.ops (fun a b => a * 2 ^ b.toNat) n
  | .shr f => Result2 s f.ops (fun a b => ⌊(a : ℚ) / (2 : ℚ) ^ b.toNat⌋) n
  | .ror f => Result2 s f.ops (fun a b => Int.lor ⌊(a : ℚ) / (2 : ℚ) ^ b.toNat⌋
      (a * 2 ^ (s.cfg.rotWidth - b.toNat))) n
  | .rol f => Result2 s f.ops (fun a b => Int.lor (a * 2 ^ b.toNat)
      ⌊(a : ℚ) / (2 : ℚ) ^ (s.cfg.rotWidth - b.toNat)⌋) n
  | .push _ => ∃ sp, s.reg .rsp = .int sp ∧ n = sp - 1
  | .pop f => ∃ r sp k, f.ops = [Reg.name r] ∧ s.reg .rsp = .int sp ∧
      ((s.cfg.popOrder = .readThenIncrement ∧ CellIs s.cfg sp k ∧
          (n = Memory.read s.mem k ∨ n = (if r = .rsp then Memory.read s.mem k else sp) + 1)) ∨
        (s.cfg.popOrder = .incrementThenRead ∧ CellIs s.cfg (sp + 1) k ∧
          (n = Memory.read s.mem k ∨ n = sp + 1)))
  | .cmp _ | .jmp _ | .jeq _ | .jne _ | .jg _ | .jl _ | .jge _ | .jle _ | .define _ | .call _
  | .hlt _ | .incl _ | .notOp _ | .ret _ | .string _ | .cov _ | .je _ | .skipLine
  | .unknownOpcode _ => False

/-- The operand tokens that the instruction resolves as a register or an immediate (R136, R143, R144,
R150, R381). -/
def resolvedTokens : Instr → List Token
  | .mov f | .add f | .sub f | .mul f | .div f | .inc f | .dec f | .neg f
  | .andOp f | .orOp f | .xorOp f | .shl f | .shr f | .ror f | .rol f | .cmp f
  | .jmp f | .jeq f | .jne f | .jg f | .jl f | .jge f | .jle f
  | .push f | .pop f => f.ops
  | .define f => f.ops.take 2
  | .call f => f.ops.tail
  | .hlt _ | .incl _ | .notOp _ | .ret _ | .string _ | .cov _ | .je _ | .skipLine
  | .unknownOpcode _ => []

/-- The operand tokens that must denote integers (R145, R500): those of arithmetic, bitwise and compare
instructions, jump targets and pushed values. -/
def integerTokens : Instr → List Token
  | .add f | .sub f | .mul f | .div f | .inc f | .dec f | .neg f
  | .andOp f | .orOp f | .xorOp f | .shl f | .shr f | .ror f | .rol f | .cmp f
  | .jmp f | .jeq f | .jne f | .jg f | .jl f | .jge f | .jle f | .push f => f.ops
  | .mov _ | .pop _ | .define _ | .call _ | .hlt _ | .incl _ | .notOp _ | .ret _ | .string _
  | .cov _ | .je _ | .skipLine | .unknownOpcode _ => []

/-- The info that the table of R500 says the error records, for an instruction executed on `s`. -/
def RecordsInfo (s : State) (i : Instr) : Err → Prop
  | .unsupportedInstruction op => op = i.opcodeName
  | .malformedInstruction tok => OffendingToken i tok
  | .unknownRegister tok => tok ∈ resolvedTokens i ∧ ¬ IsDigits tok ∧ NamesNoRegister tok
  | .typeMismatch tok => (∃ x, SrcIs s tok (.text x)) ∧ (tok ∈ integerTokens i ∨
      (tok = "RSP".toList ∧ ∃ f, i = .push f ∨ i = .pop f))
  | .divisionByZero => ∃ d src raw, i = .div ⟨[d, src], raw⟩ ∧ SrcIs s src (.int 0)
  | .lengthMismatch declared actual => ∃ d len w ws t raw,
      i = .define ⟨d :: len :: w :: ws, raw⟩ ∧ declared = immediateValue len ∧
        QuotedLiteral w ws t ∧ actual = t.length ∧ declared ≠ actual
  | .unknownCallTarget name => name ∉ callTable ∧ ∃ args raw, i = .call ⟨name :: args, raw⟩
  | .includeNotFound path => (∃ raw, i = .incl ⟨[path], raw⟩) ∧ s.cfg.load path = none
  | .stackOutOfRange a => NoCell s.cfg a ∧ ∃ sp f, s.reg .rsp = .int sp ∧
      ((i = .push f ∧ a = sp) ∨
        (i = .pop f ∧ a = if s.cfg.popOrder = .readThenIncrement then sp else sp + 1))
  | .valueOutOfRange n =>
      (∃ tok ∈ resolvedTokens i, IsDigits tok ∧ n = immediateValue tok ∧ s.cfg.fits n = false) ∨
        CountOutOfRange s i n ∨ (WouldWrite s i n ∧ s.cfg.fits n = false)
  | .hostCallFault name => name ∈ callTable ∧ name ≠ "print".toList ∧
      ∃ args raw, i = .call ⟨name :: args, raw⟩

/-! Spellings and bits. -/

/-- `u` spells `name` with some of its ASCII capitals written in lower case (R134). -/
def CaseVariant (u name : Token) : Prop :=
  List.Forall₂ (fun c d : Char => c = d ∨ (65 ≤ d.toNat ∧ d.toNat ≤ 90 ∧ c.toNat = d.toNat + 32)) u name

/-- One of the five whitespace characters (R131). -/
def IsBlank (c : Char) : Prop :=
  c = ' ' ∨ c = '\t' ∨ c.toNat = 11 ∨ c.toNat = 12 ∨ c = '\r'

/-- Bit `k` of an integer in infinite two's complement (R250). -/
def bitOf (k : Nat) (a : Int) : Int :=
  (a / 2 ^ k) % 2

end Sys2Proof.Machine
end

