-- ==== Sys2Proof/Certificates/Slice0/Obligations.lean ====
section
/-! DEFINITION. The statements for the provers, one definition each. -/

open Sys2Proof Sys2Proof.Machine

/-! Encoding (spec/30_encoding.md). -/

/-- Lines of spec/95_test_vectors.md, one or more of every family, decode as their table says, each with
its own text (R154). -/
def Obligations.SampleLinesDecodeAsTheSpecSays : Prop :=
  decode "".toList = .skipLine ∧
  decode "   ;x".toList = .skipLine ∧
  (∀ p ∈ [("MOV R0,5", Instr.mov, ["R0,5"]), ("mov R0 5", .mov, ["R0", "5"]),
      ("\tMOV R0 1", .mov, ["R0", "1"]), ("DIV R0 R1", .div, ["R0", "R1"]),
      ("ROL R0 32", .rol, ["R0", "32"]), ("JEQ 9", .jeq, ["9"]), ("PUSH RSP", .push, ["RSP"]),
      ("DEFINE R0 11 \"hello world\"", .define, ["R0", "11", "\"hello", "world\""]),
      ("CALL print R0", .call, ["print", "R0"]), ("INCLUDE lib", .incl, ["lib"]),
      ("JE 3", .je, ["3"])],
    decode p.1.toList = p.2.1 ⟨p.2.2.map String.toList, p.1.toList⟩) ∧
  decode "FOO".toList = .unknownOpcode ⟨"FOO".toList, "FOO".toList⟩

/-- Decoding the line the encoder writes for a well-formed instruction gives that instruction back,
with every operand token at every value, and with the written line as its text; decoding the text it
carries gives the instruction itself (R154). -/
def Obligations.DecodeOfEncodeIsTheInstruction : Prop :=
  ∀ i : Instr, i.wellFormed = true →
    decode (encode i) = i.withRaw (encode i) ∧ decode i.raw = i

/-- R154: the decoder is total; what it gives is a well-formed instruction, and carries the line's text
unless it is a skip line. -/
def Obligations.EveryLineDecodesToAWellFormedInstruction : Prop :=
  ∀ l : Line, (decode l).wellFormed = true ∧ (decode l ≠ .skipLine → (decode l).raw = l)

/-- R132 and R131: the skip lines are exactly the lines that, after leading whitespace, are empty or
begin with `;`. -/
def Obligations.SkipLinesAreBlankOrComment : Prop :=
  ∀ l : Line, decode l = .skipLine ↔
    ∃ blanks rest : Line, l = blanks ++ rest ∧ (∀ c ∈ blanks, IsBlank c) ∧
      (rest = [] ∨ ∃ more, rest = ';' :: more)

/-- R134: an opcode is recognized in any mixture of ASCII cases and in no other spelling, and the
operand tokens stay as they are written. -/
def Obligations.OpcodeLettersMatchInEitherCase : Prop :=
  ∀ (i : Instr) (u : Token), i.wellFormed = true → i ≠ .skipLine → (∀ f, i ≠ .unknownOpcode f) →
    Token.wellFormed u = true → u.head? ≠ some ';' →
    (decode (lineOf u i.operands) = i.withRaw (lineOf u i.operands) ↔ CaseVariant u i.opcodeName)

/-- R133: leading and trailing whitespace and the number of whitespace characters between tokens carry
no meaning: they stand in the text the instruction carries (R154) and nowhere else. -/
def Obligations.WhitespaceAroundTokensCarriesNoMeaning : Prop :=
  ∀ (lead : Line) (op : Token) (ops : List (Line × Token)) (trail l : Line),
    (∀ c ∈ lead, IsBlank c) → (∀ c ∈ trail, IsBlank c) →
    Token.wellFormed op = true →
    (∀ p ∈ ops, p.1 ≠ [] ∧ (∀ c ∈ p.1, IsBlank c) ∧ Token.wellFormed p.2 = true) →
    l = lead ++ op ++ ops.flatMap (fun p => p.1 ++ p.2) ++ trail →
    decode l = (decode (lineOf op (ops.map Prod.snd))).withRaw l

/-- R152: an instruction line whose opcode is no recognized one decodes to that opcode, in upper case
(R134), with the line's text (R154), and raises UnsupportedInstruction (code 1) without any effect. -/
def Obligations.UnknownOpcodesAreUnsupported : Prop :=
  (∀ (f : UnknownFields) (s : State), Raises (.unknownOpcode f) s 1) ∧
  ∀ (l : Line) (u : Token) (ops : List Token),
    decode l ≠ .skipLine → tokens l = u :: ops →
    (∀ name ∈ ["MOV", "ADD", "SUB", "MUL", "DIV", "INC", "DEC", "NEG", "AND", "OR", "XOR", "SHL",
        "SHR", "ROR", "ROL", "CMP", "JMP", "JEQ", "JNE", "JG", "JL", "JGE", "JLE", "PUSH", "POP",
        "DEFINE", "CALL", "HLT", "INCLUDE", "NOT", "RET", "STRING", "COV", "JE"],
      ¬ CaseVariant u name.toList) →
    ∃ op, decode l = .unknownOpcode ⟨op, l⟩ ∧ CaseVariant u op ∧
      ∀ c ∈ op, ¬ (97 ≤ c.toNat ∧ c.toNat ≤ 122)

/-- R142: a token names a register exactly when it is the register's name as R52 spells it, and any
other token that is no immediate raises UnknownRegister with the token, as a destination and as a
source. -/
def Obligations.RegisterNamesMatchExactly : Prop :=
  (∀ (t : Token) (r : Reg), lookupReg t = some r ↔ t = r.name) ∧
  Reg.all.map Reg.name = ["RAX", "RBX", "RCX", "RDX", "RSI", "RDI", "RBP", "RSP", "R0", "R1", "R2",
    "R3", "R4", "R5", "R6", "R7", "R8", "R9", "R10", "R11", "R12", "R13", "R14", "R15"].map String.toList ∧
  (∀ t ∈ ["RIP", "RFLAGS", "rax", "Rax", "r0"], ¬ IsDigits t.toList ∧ NamesNoRegister t.toList) ∧
  ∀ (s : State) (t : Token) (raw : Line), ¬ IsDigits t → NamesNoRegister t →
    (∀ src, exec (.mov ⟨[t, src], raw⟩) s = .next (s.raise raw (.unknownRegister t))) ∧
    exec (.push ⟨[t], raw⟩) s = .next (s.raise raw (.unknownRegister t))

/-- R141: an immediate has the value its digits spell in base 10, whatever leading zeros it has: every
number has an immediate, and a digit more makes ten times the value plus that digit. -/
def Obligations.ImmediatesSpellNumbersInBaseTen : Prop :=
  (∀ n : Nat, ∃ t : Token, SpellsNat t n) ∧
  (∀ (t u : Token) (n : Nat), SpellsNat t n → SpellsNat u n → t = u) ∧
  (∀ t : Token, immediateValue ('0' :: t) = immediateValue t) ∧
  ∀ (t : Token) (k : Nat), k < 10 →
    immediateValue (t ++ [Char.ofNat (48 + k)]) = 10 * immediateValue t + k

/-! Move and arithmetic (spec/41_move_arithmetic.md). -/

/-- R202 with R200: MOV copies the source's value, of either kind, and raises no TypeMismatch. That an
integer it copies from a register passes through `Fit` is the sentence of R200 on every integer this
family writes, where R202's own pseudocode has no `Fit` (log entry 16). -/
def Obligations.MovCopiesTheSourceValue : Prop :=
  ∀ (s : State) (raw : Line),
    (∀ ops, ops.length ≠ 2 → Raises (.mov ⟨ops, raw⟩) s 2) ∧
    ∀ d src : Token,
      (∀ c, DestFails d c → Raises (.mov ⟨[d, src], raw⟩) s c) ∧
      ∀ r : Reg, d = r.name →
        (∀ c, SrcFails s src c → Raises (.mov ⟨[d, src], raw⟩) s c) ∧
        ∀ v, SrcIs s src v →
          (∀ n, v = .int n → s.cfg.fits n = false → Raises (.mov ⟨[d, src], raw⟩) s 10) ∧
          (ValueFits s.cfg v → ∃ t, CompletesWithRegs (.mov ⟨[d, src], raw⟩) s t ∧ WritesReg s t r v)

/-- R201 with R203, R204 and R205: ADD, SUB and MUL on unbounded integers. -/
def Obligations.AddSubMulComputeExactly : Prop :=
  TwoOperandInteger .add (fun _ a b => .ok (b + a)) ∧
  TwoOperandInteger .sub (fun _ a b => .ok (a - b)) ∧
  TwoOperandInteger .mul (fun _ a b => .ok (a * b))

/-- R206: DIV gives the exact floor of the rational quotient and raises DivisionByZero (code 5). -/
def Obligations.DivIsTheFloorOfTheRationalQuotient : Prop :=
  TwoOperandInteger .div (fun _ a b => if b = 0 then .error 5 else .ok ⌊(a : ℚ) / (b : ℚ)⌋)

/-- R207, R208 and R209: INC, DEC and NEG. -/
def Obligations.IncDecNegComputeExactly : Prop :=
  OneOperandInteger .inc (fun a => a + 1) ∧
  OneOperandInteger .dec (fun a => a - 1) ∧
  OneOperandInteger .neg (fun a => -a)

/-! Bitwise (spec/42_bitwise.md). -/

/-- R251, R252 and R253: AND, OR and XOR are Lean's `Int.land`, `Int.lor` and `Int.xor`, which R250
names as its operations. -/
def Obligations.AndOrXorAreTheIntegerOperations : Prop :=
  TwoOperandInteger .andOp (fun _ a b => .ok (Int.land a b)) ∧
  TwoOperandInteger .orOp (fun _ a b => .ok (Int.lor a b)) ∧
  TwoOperandInteger .xorOp (fun _ a b => .ok (Int.xor a b))

/-- R250: bit k of the result is the bit operation on the operands' bits k, for every k. -/
def Obligations.BitwiseResultsAreBitByBit : Prop :=
  ∀ (a b : Int) (k : Nat),
    (bitOf k (bitAnd a b) = 1 ↔ bitOf k a = 1 ∧ bitOf k b = 1) ∧
    (bitOf k (bitOr a b) = 1 ↔ bitOf k a = 1 ∨ bitOf k b = 1) ∧
    (bitOf k (bitXor a b) = 1 ↔ ¬ (bitOf k a = 1 ↔ bitOf k b = 1))

/-- R254 and R255: SHL multiplies by a power of two, SHR is the floor of the quotient by one, and a
negative count raises ValueOutOfRange (code 10). -/
def Obligations.ShiftsScaleByPowersOfTwo : Prop :=
  TwoOperandInteger .shl (fun _ a b => if b < 0 then .error 10 else .ok (a * 2 ^ b.toNat)) ∧
  TwoOperandInteger .shr (fun _ a b =>
    if b < 0 then .error 10 else .ok ⌊(a : ℚ) / (2 : ℚ) ^ b.toNat⌋)

/-- R256 and R257: the unmasked rotate formulas in the field width, and the counts that raise. -/
def Obligations.RotatesAreUnmaskedFormulas : Prop :=
  TwoOperandInteger .ror (fun s a b =>
    if b < 0 ∨ (s.cfg.rotWidth : Int) < b then .error 10
    else .ok (Int.lor ⌊(a : ℚ) / (2 : ℚ) ^ b.toNat⌋ (a * 2 ^ (s.cfg.rotWidth - b.toNat)))) ∧
  TwoOperandInteger .rol (fun s a b =>
    if b < 0 ∨ (s.cfg.rotWidth : Int) < b then .error 10
    else .ok (Int.lor (a * 2 ^ b.toNat) ⌊(a : ℚ) / (2 : ℚ) ^ (s.cfg.rotWidth - b.toNat)⌋))

/-- The law of R257: after ROL and then ROR by the same count, the low 32 bits are the value's. -/
def Obligations.RotateLeftThenRightKeepsTheLowBits : Prop :=
  ∀ a b : Int, 0 ≤ a → a < 2 ^ 32 → 0 ≤ b → b ≤ 32 →
    rotateRight 32 (rotateLeft 32 a b) b % 2 ^ 32 = a

/-! Compare and control transfer (spec/43_compare_branch.md). -/

/-- R300: CMP sets RFLAGS to 1 when its operands are equal integers, else to 0. -/
def Obligations.CmpSetsTheFlagOnEquality : Prop :=
  ∀ (s : State) (raw : Line),
    (∀ ops, ops.length ≠ 2 → Raises (.cmp ⟨ops, raw⟩) s 2) ∧
    ∀ a b : Token,
      (∀ c, SrcFails s a c → Raises (.cmp ⟨[a, b], raw⟩) s c) ∧
      ∀ va, SrcIs s a va →
        (∀ c, SrcFails s b c → Raises (.cmp ⟨[a, b], raw⟩) s c) ∧
        ∀ vb, SrcIs s b vb →
          (∀ x, va = .text x → Raises (.cmp ⟨[a, b], raw⟩) s 4) ∧
          (∀ m x, va = .int m → vb = .text x → Raises (.cmp ⟨[a, b], raw⟩) s 4) ∧
          (∀ m, va = .int m → vb = .int m → exec (.cmp ⟨[a, b], raw⟩) s = .next { s with
            rflags := 1, rip := s.rip + 1, events := .notify :: s.events }) ∧
          ∀ m n, m ≠ n → va = .int m → vb = .int n → exec (.cmp ⟨[a, b], raw⟩) s = .next { s with
            rflags := 0, rip := s.rip + 1, events := .notify :: s.events }

/-- R302 (with R301): JMP always jumps and leaves RFLAGS. -/
def Obligations.JmpAlwaysJumps : Prop :=
  JumpInstruction .jmp (fun _ => True) false

/-- R303 (with R301): JEQ jumps when RFLAGS is 1, and RFLAGS is 0 after it either way. -/
def Obligations.JeqJumpsOnOneAndClears : Prop :=
  JumpInstruction .jeq (fun f => f = 1) true

/-- R304, R305 and R307 (with R301): JNE, JG and JGE jump when RFLAGS is 0. -/
def Obligations.JneJgJgeJumpOnZero : Prop :=
  JumpInstruction .jne (fun f => f = 0) false ∧
  JumpInstruction .jg (fun f => f = 0) false ∧
  JumpInstruction .jge (fun f => f ≠ 1) false ∧
  JumpInstruction .jge (fun f => f = 0) false

/-- R306 and R308 (with R301): JL and JLE jump when RFLAGS is 1. -/
def Obligations.JlJleJumpOnOne : Prop :=
  JumpInstruction .jl (fun f => f = 1) false ∧
  JumpInstruction .jle (fun f => f ≠ 0) false ∧
  JumpInstruction .jle (fun f => f = 1) false

/-! Stack (spec/44_stack.md). -/

/-- R101: `Cell(a)` in the default configuration and in general. -/
def Obligations.StackIndexSelectsItsCell : Prop :=
  (∀ (c : Config) (a : Int) (i : Nat), cellOf c a = .ok i ↔ CellIs c a i) ∧
  (∀ (c : Config) (a : Int), NoCell c a → cellOf c a = .error (.stackOutOfRange a)) ∧
  CellIs .default 0 0 ∧ CellIs .default (-1) 1023 ∧ CellIs .default (-1023) 1 ∧
  CellIs .default (-1024) 0 ∧ NoCell .default (-1025) ∧ CellIs .default 1023 1023 ∧
  NoCell .default 1024 ∧ NoCell { Config.default with stackIndexMode := .strict } (-1)

/-- R350: PUSH stores the integer in the cell RSP selects and decrements RSP; every other cell and
register is as before. -/
def Obligations.PushStoresAtTheStackIndex : Prop :=
  ∀ (s : State) (raw : Line), Memory.wf s.mem = true →
    (∀ ops, ops.length ≠ 1 → Raises (.push ⟨ops, raw⟩) s 2) ∧
    ∀ src : Token,
      (∀ c, SrcFails s src c → Raises (.push ⟨[src], raw⟩) s c) ∧
      (∀ x, SrcIs s src (.text x) → Raises (.push ⟨[src], raw⟩) s 4) ∧
      ∀ n, SrcIs s src (.int n) →
        (∀ x, s.reg .rsp = .text x → Raises (.push ⟨[src], raw⟩) s 4) ∧
        ∀ sp, s.reg .rsp = .int sp →
          (NoCell s.cfg sp → Raises (.push ⟨[src], raw⟩) s 9) ∧
          ∀ i, CellIs s.cfg sp i →
            (s.cfg.fits (sp - 1) = false → Raises (.push ⟨[src], raw⟩) s 10) ∧
            (s.cfg.fits (sp - 1) = true → ∃ t, exec (.push ⟨[src], raw⟩) s = .next t ∧
              t = { s with
                regs := t.regs, mem := t.mem, rip := s.rip + 1, events := .notify :: s.events } ∧
              WritesReg s t .rsp (.int (sp - 1)) ∧
              Memory.read t.mem i = n ∧ ∀ j, j ≠ i → Memory.read t.mem j = Memory.read s.mem j)

/-- R351: POP in either order. With `ReadThenIncrement` it reads at RSP and increments the RSP it then
finds, so that a popped RSP is the cell's value plus one; with `IncrementThenRead` it reads at the
incremented RSP, and a popped RSP is the cell's value. That the popped integer passes through `Fit` is
the sentence of R200, which names this family, where R351's own pseudocode has no `Fit` (log entry 16). -/
def Obligations.PopReadsAtTheStackIndex : Prop :=
  ∀ (s : State) (raw : Line),
    (∀ ops, ops.length ≠ 1 → Raises (.pop ⟨ops, raw⟩) s 2) ∧
    ∀ d : Token,
      (∀ c, DestFails d c → Raises (.pop ⟨[d], raw⟩) s c) ∧
      ∀ r : Reg, d = r.name →
        (∀ x, s.reg .rsp = .text x → Raises (.pop ⟨[d], raw⟩) s 4) ∧
        ∀ sp, s.reg .rsp = .int sp →
          (s.cfg.popOrder = .readThenIncrement →
            (NoCell s.cfg sp → Raises (.pop ⟨[d], raw⟩) s 9) ∧
            ∀ i, CellIs s.cfg sp i → ∀ n, n = (if r = .rsp then Memory.read s.mem i else sp) + 1 →
              (s.cfg.fits (Memory.read s.mem i) = false → Raises (.pop ⟨[d], raw⟩) s 10) ∧
              (s.cfg.fits n = false → Raises (.pop ⟨[d], raw⟩) s 10) ∧
              (s.cfg.fits (Memory.read s.mem i) = true → s.cfg.fits n = true →
                ∃ t, CompletesWithRegs (.pop ⟨[d], raw⟩) s t ∧
                t.reg .rsp = .int n ∧
                (r ≠ .rsp → t.reg r = .int (Memory.read s.mem i)) ∧
                ∀ q, q ≠ r → q ≠ .rsp → t.reg q = s.reg q)) ∧
          (s.cfg.popOrder = .incrementThenRead →
            (NoCell s.cfg (sp + 1) → Raises (.pop ⟨[d], raw⟩) s 9) ∧
            ∀ i, CellIs s.cfg (sp + 1) i →
              (s.cfg.fits (sp + 1) = false → Raises (.pop ⟨[d], raw⟩) s 10) ∧
              (s.cfg.fits (Memory.read s.mem i) = false → Raises (.pop ⟨[d], raw⟩) s 10) ∧
              (s.cfg.fits (sp + 1) = true → s.cfg.fits (Memory.read s.mem i) = true →
                ∃ t, CompletesWithRegs (.pop ⟨[d], raw⟩) s t ∧
                t.reg r = .int (Memory.read s.mem i) ∧
                (r ≠ .rsp → t.reg .rsp = .int (sp + 1)) ∧
                ∀ q, q ≠ r → q ≠ .rsp → t.reg q = s.reg q))

/-- R352: a PUSH and then a POP restore RSP. In the default order the popped register gets the cell
below the pushed one, and with an INC RSP between them the pushed value; with `IncrementThenRead` it
gets the pushed value. -/
def Obligations.PushThenPopFollowsThePopOrder : Prop :=
  ∀ (s t u : State) (raw raw' raw'' : Line) (src : Token) (r : Reg) (n sp : Int),
    Memory.wf s.mem = true → SrcIs s src (.int n) → s.reg .rsp = .int sp → r ≠ .rsp →
    exec (.push ⟨[src], raw⟩) s = .next t → t.sched ≠ .faulted →
    (exec (.pop ⟨[r.name], raw'⟩) t = .next u → u.sched ≠ .faulted →
      u.reg .rsp = .int sp ∧
      (s.cfg.popOrder = .incrementThenRead → u.reg r = .int n) ∧
      (s.cfg.popOrder = .readThenIncrement → ∀ i, CellIs s.cfg (sp - 1) i → ¬ CellIs s.cfg sp i →
        u.reg r = .int (Memory.read s.mem i))) ∧
    ∀ v, exec (.inc ⟨["RSP".toList], raw''⟩) t = .next v → v.sched ≠ .faulted →
      exec (.pop ⟨[r.name], raw'⟩) v = .next u → u.sched ≠ .faulted →
      s.cfg.popOrder = .readThenIncrement → u.reg r = .int n ∧ u.reg .rsp = .int (sp + 1)

/-! String definition, calls, HLT, INCLUDE (spec/45_define_call_halt.md). -/

/-- R380 with R138, R139 and R150: DEFINE stores the quoted text when its length is the declared one,
and its errors come in R380's order. -/
def Obligations.DefineStoresTheQuotedText : Prop :=
  ∀ (s : State) (raw : Line),
    (∀ ops, ops.length < 3 → Raises (.define ⟨ops, raw⟩) s 2) ∧
    ∀ (d len w : Token) (ws : List Token),
      (¬ IsDigits len → Raises (.define ⟨d :: len :: w :: ws, raw⟩) s 2) ∧
      (IsDigits len →
        ((∀ t : Text, '"' ∈ t ∨ w ++ ws.flatMap (fun x => ' ' :: x) ≠ '"' :: (t ++ ['"'])) →
          Raises (.define ⟨d :: len :: w :: ws, raw⟩) s 2) ∧
        ∀ t : Text, '"' ∉ t → w ++ ws.flatMap (fun x => ' ' :: x) = '"' :: (t ++ ['"']) →
          (∀ c, DestFails d c → Raises (.define ⟨d :: len :: w :: ws, raw⟩) s c) ∧
          ∀ r : Reg, d = r.name →
            (s.cfg.fits (immediateValue len) = false → Raises (.define ⟨d :: len :: w :: ws, raw⟩) s 10) ∧
            (s.cfg.fits (immediateValue len) = true →
              (t.length ≠ immediateValue len → Raises (.define ⟨d :: len :: w :: ws, raw⟩) s 6) ∧
              (t.length = immediateValue len →
                ∃ u, CompletesWithRegs (.define ⟨d :: len :: w :: ws, raw⟩) s u ∧
                  WritesReg s u r (.text t))))

/-- R382: CALL print puts the rendering of its one argument in the output buffer; nothing else but RIP
changes. -/
def Obligations.CallPrintWritesTheOutputBuffer : Prop :=
  ∀ (s : State) (raw : Line),
    (∀ args, args.length ≠ 1 → Raises (.call ⟨"print".toList :: args, raw⟩) s 2) ∧
    ∀ src : Token,
      (∀ c, SrcFails s src c → Raises (.call ⟨["print".toList, src], raw⟩) s c) ∧
      ∀ v, SrcIs s src v → ∃ o, Renders v o ∧
        exec (.call ⟨["print".toList, src], raw⟩) s = .next { s with
          out := some o, rip := s.rip + 1, events := .notify :: s.events }

/-- The parts of R381 that are not of one action: a CALL without a name is malformed (code 2), and a
name outside the call table, in any other spelling too, is an UnknownCallTarget (code 7). -/
def Obligations.CallNeedsANameOfTheCallTable : Prop :=
  ∀ (s : State) (raw : Line),
    Raises (.call ⟨[], raw⟩) s 2 ∧
    ∀ (name : Token) (args : List Token),
      name ∉ ["print", "input", "wait", "play", "add", "sub", "mul", "div"].map String.toList →
      Raises (.call ⟨name :: args, raw⟩) s 7

/-- R383: an unresolved argument of a host call raises first, the leftmost one; without a
`CALL_HANDLER`, or when the host answers `Fail` or writes outside its arguments, the call raises
HostCallFault (code 11). The answer is the next one the state lists or, where it lists none, the free
value `Config.freeAnswer`; that it comes so, and that a call uses one up, is the model's choice (log
entry 3). -/
def Obligations.HostCallsFailWithoutALawfulAnswer : Prop :=
  ∀ (s : State) (raw : Line) (name : Token) (args : List Token),
    name ∈ ["input", "wait", "play", "add", "sub", "mul", "div"].map String.toList →
    (∀ (before : List Token) (tok : Token) (after : List Token) (c : Nat),
      args = before ++ tok :: after → (∀ t ∈ before, ∃ v, SrcIs s t v) → SrcFails s tok c →
      Raises (.call ⟨name :: args, raw⟩) s c) ∧
    ∀ vals : List Value, List.Forall₂ (SrcIs s) args vals →
      (s.cfg.callHandler = false → Raises (.call ⟨name :: args, raw⟩) s 11) ∧
      ∀ a : HostAnswer, s.cfg.callHandler = true → a = s.hostAnswer name args vals →
        (a = .fail ∨ ∃ ws out, a = .ok ws out ∧
          ∃ p ∈ ws, p.1 ∉ args ∨ NamesNoRegister p.1) →
        ∃ e, e.code = 11 ∧ exec (.call ⟨name :: args, raw⟩) s =
          .next ({ s with hostAnswers := s.hostAnswers.tail, draws := s.draws + 1 }.raise raw e)

/-- R383: a host answer that writes only argument registers completes the call; each register holds
the last value the answer writes to it, and the output buffer the answer's text if it has one. The
answer is the next one the state lists or, where it lists none, the free value `Config.freeAnswer` of
this call's name, arguments and values; that it comes so, and that a call uses one up, is the model's
choice (log entry 3). -/
def Obligations.HostCallsApplyALawfulAnswer : Prop :=
  ∀ (s : State) (raw : Line) (name : Token) (args : List Token) (vals : List Value),
    name ∈ ["input", "wait", "play", "add", "sub", "mul", "div"].map String.toList →
    List.Forall₂ (SrcIs s) args vals →
    (∀ a more, s.hostAnswers = a :: more → s.hostAnswer name args vals = a) ∧
    (s.hostAnswers = [] → s.hostAnswer name args vals = Config.freeAnswer s.draws name args vals) ∧
    ∀ (ws : List (Token × Value)) (out : Option Text), s.cfg.callHandler = true →
    s.hostAnswer name args vals = .ok ws out →
    (∀ p ∈ ws, p.1 ∈ args ∧ ∃ r : Reg, p.1 = r.name) →
    ∃ t, exec (.call ⟨name :: args, raw⟩) s = .next t ∧
      t = { s with
        regs := t.regs, out := t.out, rip := s.rip + 1, events := .notify :: s.events
        hostAnswers := s.hostAnswers.tail, draws := s.draws + 1 } ∧
      (∀ o, out = some o → t.out = some o) ∧ (out = none → t.out = s.out) ∧
      (∀ r : Reg, (∀ p ∈ ws, p.1 ≠ r.name) → t.reg r = s.reg r) ∧
      ∀ (before after : List (Token × Value)) (r : Reg) (v : Value),
        ws = before ++ (r.name, v) :: after → (∀ p ∈ after, p.1 ≠ r.name) → t.reg r = v

/-- R384: HLT has no effect but the implicit increment, and any operand token makes it malformed. -/
def Obligations.HltOnlyAdvances : Prop :=
  ∀ (s : State) (raw : Line),
    exec (.hlt ⟨[], raw⟩) s = .next { s with rip := s.rip + 1, events := .notify :: s.events } ∧
    ∀ ops, ops ≠ [] → Raises (.hlt ⟨ops, raw⟩) s 2

/-- R385 and R386: INCLUDE in `Nested` mode suspends the program and runs the loaded one from its line
0, or raises IncludeNotFound (code 8) where the loader finds nothing; in `Refuse` mode it raises
UnsupportedInstruction (code 1). -/
def Obligations.IncludeRunsTheLoadedProgramOrIsRefused : Prop :=
  ∀ (s : State) (raw : Line),
    (s.cfg.includeMode = .nested →
      (∀ ops, ops.length ≠ 1 → Raises (.incl ⟨ops, raw⟩) s 2) ∧
      ∀ path : Token,
        (s.cfg.load path = none → Raises (.incl ⟨[path], raw⟩) s 8) ∧
        ∀ q, s.cfg.load path = some q → exec (.incl ⟨[path], raw⟩) s = .next { s with
          incStack := ⟨s.prog, s.rip + 1⟩ :: s.incStack
          prog := q
          rip := 0
          events := .notify :: s.events }) ∧
    (s.cfg.includeMode = .refuse → ∀ ops, Raises (.incl ⟨ops, raw⟩) s 1)

/-- R388 and R151: the five declared but unimplemented opcodes raise UnsupportedInstruction (code 1)
whatever their operand tokens, and have no effect. -/
def Obligations.UnimplementedOpcodesAreUnsupported : Prop :=
  ∀ (s : State) (ops : List Token) (raw : Line),
    Raises (.notOp ⟨ops, raw⟩) s 1 ∧ Raises (.ret ⟨ops, raw⟩) s 1 ∧ Raises (.string ⟨ops, raw⟩) s 1 ∧
    Raises (.cov ⟨ops, raw⟩) s 1 ∧ Raises (.je ⟨ops, raw⟩) s 1

/-- R433: a skip line moves RIP on, and nothing else: it is no instruction and gives no `Notify`. -/
def Obligations.SkipLinesOnlyMoveRip : Prop :=
  ∀ s : State, exec .skipLine s = .next { s with rip := s.rip + 1 }

/-- The info that the table of R500 says an error records (`RecordsInfo`): the opcode, the token, name,
path or operand at fault, the index, the value, the two lengths. Which token of a malformed line it is,
and that the info stands in the state beside the fault record, is the model's choice (log entry 7). -/
def Obligations.ErrorsRecordTheirInfo : Prop :=
  ∀ (s t : State) (i : Instr) (e : Err), exec i s = .next t → s.sched ≠ .faulted →
    t.sched = .faulted → t.errorInfo = some e → RecordsInfo s i e

/-! Rules about every instruction. -/

/-- R503 with R501 and R443: an instruction either completes, with exactly one `Notify` (none for a
skip line), or takes the fault entry and leaves every register, RFLAGS, MEM, OUT, RIP, `prog` and
`incStack` as they were. No instruction ends in a fault or a refusal of the model. -/
def Obligations.EveryInstructionCompletesOrFaultsPrecisely : Prop :=
  ∀ (i : Instr) (s : State), ∃ t, exec i s = .next t ∧
    ((t.sched = s.sched ∧ t.fault = s.fault ∧ t.errorInfo = s.errorInfo ∧
        t.events = (if i = .skipLine then s.events else .notify :: s.events)) ∨
      (t.sched = .faulted ∧ t.regs = s.regs ∧ t.rflags = s.rflags ∧ t.mem = s.mem ∧
        t.out = s.out ∧ t.rip = s.rip ∧ t.prog = s.prog ∧ t.incStack = s.incStack ∧
        ∃ e : Err, t.errorInfo = some e ∧
          t.fault = some ⟨e.code, s.rip, i.raw, s.incStack.length⟩ ∧
          t.events = .faultReport ⟨e.code, s.rip, i.raw, s.incStack.length⟩ :: s.events))

/-- R57: of the instructions only CMP and JEQ write RFLAGS. -/
def Obligations.OnlyCmpAndJeqWriteTheFlag : Prop :=
  ∀ (i : Instr) (s t : State), exec i s = .next t →
    (∀ f, i ≠ .cmp f) → (∀ f, i ≠ .jeq f) → t.rflags = s.rflags

/-- R100 and R106: of the instructions only PUSH writes the data memory, and one cell of it: the one
its stack index selects. -/
def Obligations.OnlyPushWritesMemoryAndOneCell : Prop :=
  ∀ (i : Instr) (s t : State), exec i s = .next t →
    ((∀ f, i ≠ .push f) → t.mem = s.mem) ∧
    (Memory.wf s.mem = true → ∀ (sp : Int) (k : Nat), s.reg .rsp = .int sp → CellIs s.cfg sp k →
      ∀ j, j ≠ k → Memory.read t.mem j = Memory.read s.mem j)

/-- R59, R60, R63 and R65: of the instructions only CALL writes OUT, only INCLUDE writes `prog` and
`incStack`, and none writes `debug`, `rate` or the parameters. -/
def Obligations.OutputProgramAndConfigurationHaveTheirWriters : Prop :=
  ∀ (i : Instr) (s t : State), exec i s = .next t →
    ((∀ f, i ≠ .call f) →
      t.out = s.out ∧ t.hostAnswers = s.hostAnswers ∧ t.draws = s.draws) ∧
    ((∀ f, i ≠ .incl f) → t.prog = s.prog ∧ t.incStack = s.incStack) ∧
    t.debug = s.debug ∧ t.rate = s.rate ∧ t.cfg = s.cfg ∧ t.turns = s.turns

/-- An instruction changes no general register but one that its operand tokens name and, for PUSH and
POP, RSP; CMP, the jumps, HLT, INCLUDE, the unsupported opcodes and skip lines change none. -/
def Obligations.OnlyNamedRegistersChange : Prop :=
  ∀ (i : Instr) (s t : State) (r : Reg), exec i s = .next t → t.reg r ≠ s.reg r →
    match i with
    | .mov f | .add f | .sub f | .mul f | .div f | .inc f | .dec f | .neg f
    | .andOp f | .orOp f | .xorOp f | .shl f | .shr f | .ror f | .rol f
    | .define f => f.ops.head? = some r.name
    | .push _ => r = .rsp
    | .pop f => r = .rsp ∨ f.ops = [r.name]
    | .call f => r.name ∈ f.ops.tail
    | _ => False

/-- R56: an instruction that completes moves RIP on by one, but for a jump, which may set it to its
target, and INCLUDE, which sets it to 0; one that faults leaves RIP. -/
def Obligations.RipMovesOnByOne : Prop :=
  ∀ (i : Instr) (s t : State), exec i s = .next t → s.sched ≠ .faulted →
    (t.sched = .faulted → t.rip = s.rip) ∧
    (t.sched ≠ .faulted →
      match i with
      | .jmp f | .jeq f | .jne f | .jg f | .jl f | .jge f | .jle f =>
        t.rip = s.rip + 1 ∨ ∃ addr n, f.ops = [addr] ∧ SrcIs s addr (.int n) ∧ t.rip = n
      | .incl _ => t.rip = 0
      | _ => t.rip = s.rip + 1)

/-- R63 and R509: an instruction neither reads nor writes `debug` and `rate`: in two states that differ
in them alone it does the same. -/
def Obligations.InstructionsDoNotSeeTheConfiguration : Prop :=
  ∀ (i : Instr) (s t : State) (b : Bool) (n : Nat), exec i s = .next t →
    exec i { s with debug := b, rate := n } = .next { t with debug := b, rate := n }

/-- R102 and R109: a cell reads as the integer last written to it, and a write leaves every other cell
and the canonical form; memories in that form that read the same in every cell are equal data. -/
def Obligations.MemoryReadsTheLastWrite : Prop :=
  ∀ (m : Memory) (i : Nat) (n : Int), Memory.wf m = true →
    Memory.read (Memory.write m i n) i = n ∧
    (∀ j, j ≠ i → Memory.read (Memory.write m i n) j = Memory.read m j) ∧
    Memory.wf (Memory.write m i n) = true ∧
    ∀ m', Memory.wf m' = true → (∀ j, Memory.read m j = Memory.read m' j) → m = m'

/-! The scheduler (spec/46_scheduler.md) and reset (spec/70_reset_and_hazards.md). -/

/-- R433, R434 and R436: when it is the core's turn in Running, a step is `exec` of the decoded line
at RIP, then the end test and, for an instruction in debug mode, the pause; a record it saves carries
the text of that line (R511). In the other states the core waits for the host. (That a turn may be
listed in the state, and is then used up, is the model's choice: log entry 4; that a turn of the waiting
core is a step: log entry 5.) -/
def Obligations.AStepRunsTheDecodedLine : Prop :=
  ∀ s u : State, CoreTurn s u →
    (u.sched ≠ .running → step s = .next u) ∧
    ∀ (t : State) (l : Line), u.sched = .running → 0 ≤ u.rip →
      u.prog[u.rip.toNat]? = some l → exec (decode l) u = .next t →
      (t.sched = .faulted → step s = .next t ∧ ∃ r, t.fault = some r ∧ r.index = u.rip ∧ r.text = l) ∧
      (t.sched = .running → PastTheEnd t → step s = .next { t with sched := .halted }) ∧
      (t.sched = .running → ¬ PastTheEnd t →
        step s = .next (if decode l ≠ .skipLine ∧ u.debug = true
          then { t with sched := .paused } else t))

/-- R432: a fetch at a negative RIP raises ValueOutOfRange (code 10) with RIP as its value and an empty
line text, and one past the end of an included program returns to the frame, which is no instruction. -/
def Obligations.FetchOutsideTheProgram : Prop :=
  ∀ s u : State, CoreTurn s u → u.sched = .running →
    (u.rip < 0 → step s = .next { u with
      sched := .faulted
      fault := some ⟨10, u.rip, [], u.incStack.length⟩
      errorInfo := some (.valueOutOfRange u.rip)
      events := .faultReport ⟨10, u.rip, [], u.incStack.length⟩ :: u.events }) ∧
    ∀ (f : Frame) (rest : List Frame), (u.prog.length : Int) ≤ u.rip → u.incStack = f :: rest →
      step s = .next { u with
        prog := f.prog
        rip := f.resume
        incStack := rest
        sched := if (f.prog.length : Int) ≤ f.resume ∧ rest = [] then .halted else .running }

/-- R437 and R438: `run(P)` starts P in Idle and Halted and keeps registers, flag, memory and output;
in the other states it is rejected and changes nothing. -/
def Obligations.RunStartsAProgramOnlyFromIdleOrHalted : Prop :=
  ∀ (s : State) (P : Program) (rest : List Turn), s.turns = .host (.run P) :: rest →
    (s.sched = .idle ∨ s.sched = .halted → step s = .next { s with
      prog := P
      incStack := []
      rip := 0
      fault := none
      errorInfo := none
      sched := if P = [] then .halted else .running
      turns := rest
      events := .accepted :: s.events }) ∧
    (s.sched = .running ∨ s.sched = .paused ∨ s.sched = .faulted → step s = .next { s with
      turns := rest, events := .rejected .runRejected :: s.events })

/-- R440 and R441: `step()` outside Paused is rejected and changes nothing; `setDebug` and `setRate`
change their register alone, in every state. -/
def Obligations.OtherCommandsDoOnlyWhatTheySay : Prop :=
  ∀ (s : State) (rest : List Turn),
    (s.turns = .host .step :: rest → s.sched ≠ .paused → step s = .next { s with
      turns := rest, events := .rejected .stepWhileNotPaused :: s.events }) ∧
    (∀ b, s.turns = .host (.setDebug b) :: rest → step s = .next { s with
      debug := b, turns := rest, events := .accepted :: s.events }) ∧
    ∀ n, s.turns = .host (.setRate n) :: rest → step s = .next { s with
      rate := n, turns := rest, events := .accepted :: s.events }

/-- R439: an accepted `step()` is `exec` of the decoded line at RIP and the end test; a skip line and
an include return are passed over, and the loop goes on behind them with no further command; a negative
RIP raises. So it ends Paused, Halted or Faulted, having executed exactly one instruction (one
`Notify`), raised one error (one `FaultReport`), or found only skip lines and include returns before
the end. That the answer stands before the `Notify` or the `FaultReport` is the model's choice, which
the spec does not fix (log entry 6). -/
def Obligations.StepCommandConsumesOneInstruction : Prop :=
  ∀ (s u : State) (rest : List Turn), s.turns = .host .step :: rest → s.sched = .paused →
    u = { s with turns := rest, events := .accepted :: s.events } →
    (∀ l t, 0 ≤ s.rip → s.prog[s.rip.toNat]? = some l → decode l ≠ .skipLine →
      exec (decode l) u = .next t →
      step s = .next (if t.sched = .paused ∧ PastTheEnd t then { t with sched := .halted } else t)) ∧
    (s.rip < 0 → step s = .next (u.raise [] (.valueOutOfRange s.rip))) ∧
    (∀ l, 0 ≤ s.rip → s.prog[s.rip.toNat]? = some l → decode l = .skipLine →
      (PastTheEnd { s with rip := s.rip + 1 } →
        step s = .next { u with rip := s.rip + 1, sched := .halted }) ∧
      (¬ PastTheEnd { s with rip := s.rip + 1 } → step s = step { s with rip := s.rip + 1 })) ∧
    (∀ f frames, (s.prog.length : Int) ≤ s.rip → s.incStack = f :: frames →
      ((f.prog.length : Int) ≤ f.resume ∧ frames = [] → step s = .next { u with
        prog := f.prog, rip := f.resume, incStack := frames, sched := .halted }) ∧
      (¬ ((f.prog.length : Int) ≤ f.resume ∧ frames = []) →
        step s = step { s with prog := f.prog, rip := f.resume, incStack := frames })) ∧
    ∃ t, step s = .next t ∧
      ((t.events = .notify :: .accepted :: s.events ∧ (t.sched = .paused ∨ t.sched = .halted)) ∨
        (t.sched = .faulted ∧ ∃ r, t.fault = some r ∧
          t.events = .faultReport r :: .accepted :: s.events) ∨
        (t.sched = .halted ∧ t.events = .accepted :: s.events ∧ t.regs = s.regs ∧
          t.rflags = s.rflags ∧ t.mem = s.mem ∧ t.out = s.out))

/-- R600: `reset()`, accepted in every state, sets every piece of the block's state to its reset value
and leaves `debug` and `rate`; it emits no `Notify`. -/
def Obligations.ResetClearsTheMachine : Prop :=
  ∀ (s : State) (rest : List Turn), s.turns = .host .reset :: rest →
    ∃ t, step s = .next t ∧
      (∀ r, t.reg r = .int 0) ∧ t.rip = 0 ∧ t.rflags = 0 ∧ (∀ i, Memory.read t.mem i = 0) ∧
      t.out = none ∧ t.prog = [] ∧ t.incStack = [] ∧ t.fault = none ∧ t.sched = .idle ∧
      t.debug = s.debug ∧ t.rate = s.rate ∧ t.cfg = s.cfg ∧ t.events = .accepted :: s.events

/-- R601: a second reset gives the state the first one gave. -/
def Obligations.ResetIsIdempotent : Prop :=
  ∀ (s t u : State) (rest : List Turn), s.turns = .host .reset :: .host .reset :: rest →
    step s = .next t → step t = .next u →
    u = { t with turns := rest, events := .accepted :: t.events }

/-- R447: the transitions of `sched`. A step in Idle, Halted, Faulted or Paused changes `sched` only by
a command that R447 lists for that state. -/
def Obligations.SchedulerTransitionsAreThoseOfTheTable : Prop :=
  ∀ s t : State, step s = .next t → t.sched ≠ s.sched →
    (s.turns.head? = some (.host .reset) ∧ t.sched = .idle) ∨
    ((s.sched = .idle ∨ s.sched = .halted) ∧ ∃ P, s.turns.head? = some (.host (.run P)) ∧
      t.sched = (if P = [] then .halted else .running)) ∨
    (s.sched = .running ∧ (s.turns.head? = none ∨ s.turns.head? = some .core) ∧
      ((t.sched = .paused ∧ s.debug = true ∧ t.atEnd = false) ∨
        (t.sched = .halted ∧ t.atEnd = true) ∨ t.sched = .faulted)) ∨
    (s.sched = .paused ∧ s.turns.head? = some (.host .step) ∧
      ((t.sched = .halted ∧ t.atEnd = true) ∨ t.sched = .faulted))

/-- R507: once Faulted, the core takes no further step: until a reset, every step keeps the record and
all that the faulted program left. -/
def Obligations.FaultedStaysUntilReset : Prop :=
  ∀ s t : State, s.sched = .faulted → step s = .next t →
    s.turns.head? ≠ some (.host .reset) →
    t.sched = .faulted ∧ t.fault = s.fault ∧ t.regs = s.regs ∧ t.rip = s.rip ∧
      t.rflags = s.rflags ∧ t.mem = s.mem ∧ t.out = s.out ∧ t.prog = s.prog ∧
      t.incStack = s.incStack

/-- R442: `rate` has no effect: two states that differ in it alone step to states that differ in it
alone, or, when the turn is `setRate`, not at all. -/
def Obligations.RateHasNoEffect : Prop :=
  ∀ (s t : State) (n : Nat), step s = .next t →
    (step { s with rate := n } = .next t ∧ ∃ k, s.turns.head? = some (.host (.setRate k))) ∨
    step { s with rate := n } = .next { t with rate := n }

/-- Every step answers a next state: the model stops nowhere. -/
def Obligations.EveryStepAnswersANextState : Prop :=
  ∀ s : State, ∃ t, step s = .next t

/-- R444: the accessors return the value of the 24 general registers, RIP and RFLAGS, OUT, `sched` and
`fault`. -/
def Obligations.AccessorsReadTheirRegisters : Prop :=
  ∀ s : State,
    (∀ r : Reg, readReg s r.name = some (s.reg r)) ∧
    readReg s "RIP".toList = some (.int s.rip) ∧
    readReg s "RFLAGS".toList = some (.int (if s.rflags = 1 then 1 else 0)) ∧
    readOutput s = s.out ∧ readState s = (s.sched, s.fault)

/-- R66 and R603: the state at power-on. -/
def Obligations.PowerOnValuesAreThoseOfTheTable : Prop :=
  (∀ r, State.reset.reg r = .int 0) ∧ State.reset.rip = 0 ∧ State.reset.rflags = 0 ∧
  (∀ i, Memory.read State.reset.mem i = 0) ∧ State.reset.out = none ∧ State.reset.prog = [] ∧
  State.reset.incStack = [] ∧ State.reset.sched = .idle ∧ State.reset.fault = none ∧
  State.reset.debug = false ∧ State.reset.rate = 0

/-- The invariant holds at power-on. -/
def Obligations.PowerOnMeetsTheInvariant : Prop :=
  Inv State.reset

/-- Every step keeps the invariant, from every state in which it holds. -/
def Obligations.EveryStepKeepsTheInvariant : Prop :=
  ∀ s t : State, Inv s → step s = .next t → Inv t
end

