-- ==== Sys2Proof/Laws/Decode.lean ====
section
/-! SUPPORT. The laws of the tokenizer, the skip test and the case folding. -/

namespace Sys2Proof

/-! Whitespace. -/

theorem isSpace_iff {c : Char} : isSpace c = true ↔
    c.toNat = 32 ∨ c.toNat = 9 ∨ c.toNat = 11 ∨ c.toNat = 12 ∨ c.toNat = 13 := by
  simp [isSpace, or_assoc]

/-- Characters with one code are one character. -/
theorem char_eq_of_toNat {c d : Char} (h : c.toNat = d.toNat) : c = d :=
  Char.toNat_inj.mp h

/-- R131: the decoder's whitespace is the five characters. -/
theorem isSpace_iff_isBlank {c : Char} : isSpace c = true ↔ Machine.IsBlank c := by
  have h32 : c = ' ' ↔ c.toNat = 32 := ⟨fun h => h ▸ rfl, fun h => char_eq_of_toNat h⟩
  have h9 : c = '\t' ↔ c.toNat = 9 := ⟨fun h => h ▸ rfl, fun h => char_eq_of_toNat h⟩
  have h13 : c = '\r' ↔ c.toNat = 13 := ⟨fun h => h ▸ rfl, fun h => char_eq_of_toNat h⟩
  rw [isSpace_iff, Machine.IsBlank, h32, h9, h13]

@[simp] theorem isSpace_space : isSpace ' ' = true := rfl

/-! Tokens. -/

theorem Token.wellFormed_iff {t : Token} :
    Token.wellFormed t = true ↔ t ≠ [] ∧ ∀ c ∈ t, isSpace c = false := by
  simp [Token.wellFormed]

@[simp] theorem tokens_nil : tokens [] = [] := rfl

theorem tokens_cons_space {c : Char} (h : isSpace c = true) (l : Line) :
    tokens (c :: l) = tokens l := by
  simp [tokens, h]

/-- Leading whitespace carries no meaning (R133). -/
theorem tokens_blanks_append {b : Line} (h : ∀ c ∈ b, isSpace c = true) (l : Line) :
    tokens (b ++ l) = tokens l := by
  induction b with
  | nil => rfl
  | cons c b ih =>
    rw [List.cons_append, tokens_cons_space (h c (by simp)), ih (fun d hd => h d (by simp [hd]))]

theorem tokens_cons_char {c : Char} (h : isSpace c = false) (l : Line) :
    tokens (c :: l) = consToken c l (tokens l) := by
  simp [tokens, h]

/-- A character in front of a line joins its first token or becomes a token of its own. -/
theorem consToken_cases (c : Char) (l : Line) (ts : List Token) :
    consToken c l ts = [c] :: ts ∨ ∃ t ts', ts = t :: ts' ∧ consToken c l ts = (c :: t) :: ts' := by
  unfold consToken
  split
  · split
    · exact .inl rfl
    · exact .inr ⟨_, _, rfl, rfl⟩
  · exact .inl rfl

/-- A line whose first character is no whitespace has a first token. -/
theorem tokens_ne_nil {c : Char} (h : isSpace c = false) (l : Line) : tokens (c :: l) ≠ [] := by
  rw [tokens_cons_char h]
  rcases consToken_cases c l (tokens l) with h | ⟨t, ts, -, h⟩ <;> simp [h]

/-- A token at the end of a line, and one before whitespace, is cut off whole. -/
theorem tokens_token_append {t : Token} (ht : Token.wellFormed t = true) {l : Line}
    (hl : l = [] ∨ ∃ c l', l = c :: l' ∧ isSpace c = true) :
    tokens (t ++ l) = t :: tokens l := by
  obtain ⟨hne, hs⟩ := Token.wellFormed_iff.mp ht
  induction t with
  | nil => exact absurd rfl hne
  | cons c t ih =>
    have hc : isSpace c = false := hs c (by simp)
    cases t with
    | nil =>
      rcases hl with rfl | ⟨d, l', rfl, hd⟩
      · simp [tokens, hc, consToken]
      · simp only [List.cons_append, List.nil_append, tokens, hc, hd, consToken]
        cases tokens l' <;> simp [hd]
    | cons d t =>
      have hd : isSpace d = false := hs d (by simp)
      have htl : ∀ x ∈ d :: t, isSpace x = false := fun x hx => hs x (by simp [hx])
      have := ih (Token.wellFormed_iff.mpr ⟨by simp, htl⟩) (by simp) htl
      rw [List.cons_append, tokens, hc, this]
      simp [consToken, hd]

/-- Every token the decoder cuts is one (R133). -/
theorem tokens_wellFormed (l : Line) : ∀ t ∈ tokens l, Token.wellFormed t = true := by
  induction l with
  | nil => simp
  | cons c l ih =>
    cases hc : isSpace c with
    | true => rw [tokens_cons_space hc]; exact ih
    | false =>
      have one : Token.wellFormed [c] = true := Token.wellFormed_iff.mpr ⟨by simp, by simpa using hc⟩
      rw [tokens_cons_char hc]
      rcases consToken_cases c l (tokens l) with h | ⟨t, ts, hts, h⟩
      · intro u hu
        rcases List.mem_cons.mp (h ▸ hu) with rfl | hu
        · exact one
        · exact ih u hu
      · intro u hu
        rcases List.mem_cons.mp (h ▸ hu) with rfl | hu
        · have := Token.wellFormed_iff.mp (ih t (by rw [hts]; simp))
          refine Token.wellFormed_iff.mpr ⟨by simp, fun x hx => ?_⟩
          rcases List.mem_cons.mp hx with rfl | hx
          · exact hc
          · exact this.2 x hx
        · exact ih u (by rw [hts]; simp [hu])

/-- The first token of a line begins with the line's first character. -/
theorem tokens_head_head {c : Char} (h : isSpace c = false) (l : Line) {t : Token} {ts : List Token}
    (ht : tokens (c :: l) = t :: ts) : t.head? = some c := by
  rw [tokens_cons_char h] at ht
  rcases consToken_cases c l (tokens l) with hk | ⟨u, us, -, hk⟩
  all_goals
    rw [hk] at ht
    obtain ⟨rfl, -⟩ := List.cons.inj ht
    rfl

/-- The tokens of a line written with one space before each operand. -/
theorem tokens_lineOf {op : Token} {ops : List Token} (hop : Token.wellFormed op = true)
    (hops : ∀ t ∈ ops, Token.wellFormed t = true) : tokens (lineOf op ops) = op :: ops := by
  unfold lineOf
  induction ops generalizing op with
  | nil => simpa using tokens_token_append hop (l := []) (.inl rfl)
  | cons t ts ih =>
    rw [List.flatMap_cons, List.cons_append, tokens_token_append hop (.inr ⟨' ', _, rfl, rfl⟩),
      tokens_cons_space rfl, ih (hops t (by simp)) (fun u hu => hops u (by simp [hu]))]

/-! The skip test. -/

theorem isSkip_blanks_append {b : Line} (h : ∀ c ∈ b, isSpace c = true) (l : Line) :
    isSkip (b ++ l) = isSkip l := by
  unfold isSkip
  rw [List.dropWhile_append_of_pos h]

@[simp] theorem isSkip_nil : isSkip [] = true := rfl

theorem isSkip_cons {c : Char} (h : isSpace c = false) (l : Line) : isSkip (c :: l) = (c == ';') := by
  simp [isSkip, h]

/-- A line that is no skip line has an opcode token, which does not begin a comment. -/
theorem tokens_of_not_isSkip {l : Line} (h : isSkip l = false) :
    ∃ t ts, tokens l = t :: ts ∧ t.head? ≠ some ';' := by
  induction l with
  | nil => simp at h
  | cons c l ih =>
    cases hc : isSpace c with
    | true =>
      rw [tokens_cons_space hc]
      exact ih (by rw [← h]; exact (isSkip_blanks_append (b := [c]) (by simpa using hc) l).symm)
    | false =>
      rw [isSkip_cons hc] at h
      cases ht : tokens (c :: l) with
      | nil => exact absurd ht (tokens_ne_nil hc l)
      | cons t ts =>
        refine ⟨t, ts, rfl, ?_⟩
        rw [tokens_head_head hc l ht]
        simpa using h

/-- A line that begins with a token that begins no comment is no skip line. -/
theorem isSkip_token_append {t : Token} (ht : Token.wellFormed t = true) (hc : t.head? ≠ some ';')
    (l : Line) : isSkip (t ++ l) = false := by
  obtain ⟨hne, hs⟩ := Token.wellFormed_iff.mp ht
  cases t with
  | nil => exact absurd rfl hne
  | cons c t =>
    rw [List.cons_append, isSkip_cons (hs c (by simp))]
    simpa using hc

/-! Case folding. -/

/-- The code of a folded character. -/
theorem toNat_foldChar (c : Char) :
    (foldChar c).toNat = if 97 ≤ c.toNat ∧ c.toNat ≤ 122 then c.toNat - 32 else c.toNat := by
  unfold foldChar
  split
  · rw [Char.toNat_ofNat, if_pos (by left; omega)]
  · rfl

theorem foldChar_idem (c : Char) : foldChar (foldChar c) = foldChar c := by
  apply char_eq_of_toNat
  rw [toNat_foldChar, toNat_foldChar]
  split_ifs <;> omega

theorem foldCase_idem (t : Token) : foldCase (foldCase t) = foldCase t := by
  simp [foldCase, foldChar_idem]

/-- Folding makes no whitespace and loses none. -/
theorem isSpace_foldChar (c : Char) : isSpace (foldChar c) = isSpace c := by
  rw [Bool.eq_iff_iff, isSpace_iff, isSpace_iff, toNat_foldChar]
  split <;> omega

/-- Folding makes no comment marker. -/
theorem foldChar_eq_semicolon {c : Char} : foldChar c = ';' ↔ c = ';' := by
  have h : ∀ d : Char, d = ';' ↔ d.toNat = 59 := fun d => ⟨fun e => e ▸ rfl, fun e => char_eq_of_toNat e⟩
  rw [h, h, toNat_foldChar]
  split <;> omega

/-- A folded token is a token. -/
theorem Token.wellFormed_foldCase {t : Token} (h : Token.wellFormed t = true) :
    Token.wellFormed (foldCase t) = true := by
  obtain ⟨hne, hs⟩ := Token.wellFormed_iff.mp h
  refine Token.wellFormed_iff.mpr ⟨by simpa [foldCase] using hne, fun c hc => ?_⟩
  obtain ⟨d, hd, rfl⟩ := List.mem_map.mp hc
  rw [isSpace_foldChar, hs d hd]

/-- Folding keeps the first character from being a comment marker. -/
theorem head_foldCase {t : Token} (h : t.head? ≠ some ';') : (foldCase t).head? ≠ some ';' := by
  cases t with
  | nil => simp [foldCase]
  | cons c t => simpa [foldCase, foldChar_eq_semicolon] using h

/-! Decoding. -/

/-- What a line that is no skip line decodes to. -/
theorem decode_of_tokens {l : Line} (h : isSkip l = false) {t : Token} {ts : List Token}
    (ht : tokens l = t :: ts) : decode l = ofOpcode (foldCase t) ⟨ts, l⟩ := by
  simp [decode, h, ht]

/-- What a written line decodes to. -/
theorem decode_lineOf {op : Token} {ops : List Token} (hop : Token.wellFormed op = true)
    (hc : op.head? ≠ some ';') (hops : ∀ t ∈ ops, Token.wellFormed t = true) :
    decode (lineOf op ops) = ofOpcode (foldCase op) ⟨ops, lineOf op ops⟩ :=
  decode_of_tokens (isSkip_token_append hop hc _) (tokens_lineOf hop hops)

/-- A row's instruction has the row's name and what it is given. -/
theorem opcodeTable_rows : ∀ row ∈ opcodeTable, ∀ f,
    (row.2 f).opcodeName = row.1 ∧ (row.2 f).fields = f ∧ row.2 f ≠ .skipLine ∧
      ∀ u, row.2 f ≠ .unknownOpcode u := by
  simp [opcodeTable, Instr.opcodeName, Instr.fields]

/-! The text an instruction carries (R154). -/

@[simp] theorem Instr.withRaw_opcodeName (i : Instr) (raw : Line) :
    (i.withRaw raw).opcodeName = i.opcodeName := by
  cases i <;> rfl

@[simp] theorem Instr.withRaw_operands (i : Instr) (raw : Line) :
    (i.withRaw raw).operands = i.operands := by
  cases i <;> rfl

@[simp] theorem Instr.withRaw_withRaw (i : Instr) (raw raw' : Line) :
    (i.withRaw raw).withRaw raw' = i.withRaw raw' := by
  cases i <;> rfl

/-- An instruction read from its own text is the instruction. -/
@[simp] theorem Instr.withRaw_raw (i : Instr) : i.withRaw i.raw = i := by
  cases i <;> rfl

/-- A lookup's answer carries the text it is given, and with another text differs in it alone. -/
theorem ofOpcode_raw (op : Token) (f : Fields) (raw : Line) :
    (ofOpcode op f).raw = f.raw ∧ (ofOpcode op f).withRaw raw = ofOpcode op ⟨f.ops, raw⟩ := by
  have rows : ∀ row ∈ opcodeTable,
      (row.2 f).raw = f.raw ∧ (row.2 f).withRaw raw = row.2 ⟨f.ops, raw⟩ := by
    simp [opcodeTable, Instr.raw, Instr.fields, Instr.withRaw]
  unfold ofOpcode
  split
  · rename_i row h
    exact rows row (List.mem_of_find?_eq_some h)
  · exact ⟨rfl, rfl⟩

/-- Every decoded line but a skip line carries its text. -/
theorem decode_raw {l : Line} (h : decode l ≠ .skipLine) : (decode l).raw = l := by
  cases hs : isSkip l with
  | true => simp [decode, hs] at h
  | false =>
    obtain ⟨t, ts, ht, -⟩ := tokens_of_not_isSkip hs
    rw [decode_of_tokens hs ht, (ofOpcode_raw _ _ []).1]

/-- The opcodes are spelled in ASCII capitals (R135). -/
theorem opcodeTable_capitals : ∀ row ∈ opcodeTable, ∀ c ∈ row.1, 65 ≤ c.toNat ∧ c.toNat ≤ 90 := by
  have spelled : (opcodeTable.map Prod.fst).all
      (fun name => name.all (fun c => decide (65 ≤ c.toNat ∧ c.toNat ≤ 90))) = true := by decide
  intro row hrow c hc
  have inRow := List.all_eq_true.mp spelled row.1 (List.mem_map_of_mem hrow)
  exact of_decide_eq_true (List.all_eq_true.mp inRow c hc)

/-- What an opcode lookup answers: the unknown opcode itself, or an instruction of that name with
what it is given. -/
theorem ofOpcode_cases (op : Token) (f : Fields) :
    (opcodeTable.all (fun row => row.1 != op) = true ∧
        ofOpcode op f = .unknownOpcode ⟨op, f.raw⟩) ∨
      ((ofOpcode op f).opcodeName = op ∧ (ofOpcode op f).fields = f ∧
        ofOpcode op f ≠ .skipLine ∧ ∀ u, ofOpcode op f ≠ .unknownOpcode u) := by
  unfold ofOpcode
  split
  · rename_i row h
    right
    have hop : row.1 = op := by simpa using List.find?_some h
    have hmem : row ∈ opcodeTable := List.mem_of_find?_eq_some h
    subst hop
    exact opcodeTable_rows row hmem f
  · rename_i h
    left
    refine ⟨?_, rfl⟩
    simpa using h

end Sys2Proof
end

