-- ==== Sys2Proof/Laws/Dispatch.lean ====
section
/-! SUPPORT. What `exec` dispatches each constructor to: one lemma per constructor, so that no later
proof unfolds the whole dispatch. -/

namespace Sys2Proof.Machine

@[simp] theorem exec_mov (f : Fields) (s : State) : exec (.mov f) s = execMov f s := rfl
@[simp] theorem exec_add (f : Fields) (s : State) : exec (.add f) s = execAdd f s := rfl
@[simp] theorem exec_sub (f : Fields) (s : State) : exec (.sub f) s = execSub f s := rfl
@[simp] theorem exec_mul (f : Fields) (s : State) : exec (.mul f) s = execMul f s := rfl
@[simp] theorem exec_div (f : Fields) (s : State) : exec (.div f) s = execDiv f s := rfl
@[simp] theorem exec_inc (f : Fields) (s : State) : exec (.inc f) s = execInc f s := rfl
@[simp] theorem exec_dec (f : Fields) (s : State) : exec (.dec f) s = execDec f s := rfl
@[simp] theorem exec_neg (f : Fields) (s : State) : exec (.neg f) s = execNeg f s := rfl
@[simp] theorem exec_andOp (f : Fields) (s : State) : exec (.andOp f) s = execAnd f s := rfl
@[simp] theorem exec_orOp (f : Fields) (s : State) : exec (.orOp f) s = execOr f s := rfl
@[simp] theorem exec_xorOp (f : Fields) (s : State) : exec (.xorOp f) s = execXor f s := rfl
@[simp] theorem exec_shl (f : Fields) (s : State) : exec (.shl f) s = execShl f s := rfl
@[simp] theorem exec_shr (f : Fields) (s : State) : exec (.shr f) s = execShr f s := rfl
@[simp] theorem exec_ror (f : Fields) (s : State) : exec (.ror f) s = execRor f s := rfl
@[simp] theorem exec_rol (f : Fields) (s : State) : exec (.rol f) s = execRol f s := rfl
@[simp] theorem exec_cmp (f : Fields) (s : State) : exec (.cmp f) s = execCmp f s := rfl
@[simp] theorem exec_jmp (f : Fields) (s : State) : exec (.jmp f) s = execJmp f s := rfl
@[simp] theorem exec_jeq (f : Fields) (s : State) : exec (.jeq f) s = execJeq f s := rfl
@[simp] theorem exec_jne (f : Fields) (s : State) : exec (.jne f) s = execJne f s := rfl
@[simp] theorem exec_jg (f : Fields) (s : State) : exec (.jg f) s = execJg f s := rfl
@[simp] theorem exec_jl (f : Fields) (s : State) : exec (.jl f) s = execJl f s := rfl
@[simp] theorem exec_jge (f : Fields) (s : State) : exec (.jge f) s = execJge f s := rfl
@[simp] theorem exec_jle (f : Fields) (s : State) : exec (.jle f) s = execJle f s := rfl
@[simp] theorem exec_push (f : Fields) (s : State) : exec (.push f) s = execPush f s := rfl
@[simp] theorem exec_pop (f : Fields) (s : State) : exec (.pop f) s = execPop f s := rfl
@[simp] theorem exec_define (f : Fields) (s : State) : exec (.define f) s = execDefine f s := rfl
@[simp] theorem exec_call (f : Fields) (s : State) : exec (.call f) s = execCall f s := rfl
@[simp] theorem exec_hlt (f : Fields) (s : State) : exec (.hlt f) s = execHlt f s := rfl
@[simp] theorem exec_incl (f : Fields) (s : State) : exec (.incl f) s = execInclude f s := rfl
@[simp] theorem exec_notOp (f : Fields) (s : State) : exec (.notOp f) s = execNot f s := rfl
@[simp] theorem exec_ret (f : Fields) (s : State) : exec (.ret f) s = execRet f s := rfl
@[simp] theorem exec_string (f : Fields) (s : State) : exec (.string f) s = execString f s := rfl
@[simp] theorem exec_cov (f : Fields) (s : State) : exec (.cov f) s = execCov f s := rfl
@[simp] theorem exec_je (f : Fields) (s : State) : exec (.je f) s = execJe f s := rfl
@[simp] theorem exec_skipLine (s : State) : exec .skipLine s = execSkipLine s := rfl
@[simp] theorem exec_unknownOpcode (f : UnknownFields) (s : State) :
    exec (.unknownOpcode f) s = execUnknownOpcode f s := rfl

end Sys2Proof.Machine
end

