-- ==== Sys2Proof/Laws/Memory.lean ====
section
/-! SUPPORT. The laws of the data memory: reads after writes, and the canonical form. -/

namespace Sys2Proof.Machine

@[simp] theorem Memory.wf_nil : Memory.wf [] = true := rfl

/-- The memory at power-on is in canonical form. -/
theorem Memory.wf_reset : Memory.wf State.reset.mem = true := rfl

/-- The canonical form, one entry at a time. -/
theorem Memory.wf_cons (a : Nat) (v : Int) (m : Memory) :
    Memory.wf ((a, v) :: m) = true ↔ (∀ p ∈ m, a < p.1) ∧ v ≠ 0 ∧ Memory.wf m = true := by
  simp only [Memory.wf, Memory.unlisted, List.pairwise_cons, List.all_cons, Bool.and_eq_true,
    decide_eq_true_eq, bne_iff_ne, ne_eq]
  tauto

@[simp] theorem Memory.read_nil (i : Nat) : Memory.read [] i = 0 := rfl

@[simp] theorem Memory.read_cons (a : Nat) (v : Int) (m : Memory) (i : Nat) :
    Memory.read ((a, v) :: m) i = if a = i then v else Memory.read m i := rfl

/-- A cell below every listed one reads as an unlisted cell. -/
theorem Memory.read_of_lt {m : Memory} {i : Nat} (h : ∀ p ∈ m, i < p.1) : Memory.read m i = 0 := by
  induction m with
  | nil => rfl
  | cons p m ih =>
    have hp : i < p.1 := h p (by simp)
    have hm : ∀ q ∈ m, i < q.1 := fun q hq => h q (by simp [hq])
    simp [Memory.read, ih hm, Nat.ne_of_gt hp]

/-- An entry in front of cells that are all above it reads as its value, and hides nothing. -/
theorem Memory.read_entry {m : Memory} {i : Nat} (h : ∀ p ∈ m, i < p.1) (n : Int) (j : Nat) :
    Memory.read (Memory.entry i n m) j = if i = j then n else Memory.read m j := by
  unfold Memory.entry
  split
  · rename_i hn
    split
    · subst j
      rw [Memory.read_of_lt h, hn]; rfl
    · rfl
  · rfl

/-- Where the cells of a written memory come from. -/
theorem Memory.mem_write {m : Memory} {i : Nat} {n : Int} {p : Nat × Int}
    (h : p ∈ Memory.write m i n) : p.1 = i ∨ p ∈ m := by
  induction m with
  | nil =>
    simp only [Memory.write, Memory.entry] at h
    split at h <;> simp_all
  | cons q m ih =>
    obtain ⟨a, v⟩ := q
    simp only [Memory.write, Memory.entry] at h
    split at h
    · split at h <;> simp_all
      rcases h with rfl | h
      · simp
      · simp [h]
    · split at h
      · split at h
        · simp [h]
        · rcases List.mem_cons.mp h with rfl | h
          · simp
          · simp [h]
      · rcases List.mem_cons.mp h with rfl | h
        · simp
        · rcases ih h with h | h
          · simp [h]
          · simp [h]

/-- A write keeps the canonical form. -/
theorem Memory.wf_write {m : Memory} (i : Nat) (n : Int) (h : Memory.wf m = true) :
    Memory.wf (Memory.write m i n) = true := by
  induction m with
  | nil =>
    simp only [Memory.write, Memory.entry]
    split
    · rfl
    · rename_i hn
      exact (Memory.wf_cons i n []).mpr ⟨by simp, hn, rfl⟩
  | cons q m ih =>
    obtain ⟨a, v⟩ := q
    obtain ⟨hlt, hv, hm⟩ := (Memory.wf_cons a v m).mp h
    simp only [Memory.write, Memory.entry]
    split
    · rename_i hia
      split
      · exact h
      · rename_i hn
        refine (Memory.wf_cons i n _).mpr ⟨fun p hp => ?_, hn, h⟩
        rcases List.mem_cons.mp hp with rfl | hp
        · exact hia
        · exact hia.trans (hlt p hp)
    · rename_i hia
      split
      · rename_i hieq
        split
        · exact hm
        · rename_i hn
          exact (Memory.wf_cons i n m).mpr ⟨fun p hp => hieq ▸ hlt p hp, hn, hm⟩
      · rename_i hne
        refine (Memory.wf_cons a v _).mpr ⟨fun p hp => ?_, hv, ih hm⟩
        rcases Memory.mem_write hp with hp | hp
        · omega
        · exact hlt p hp

/-- Reading after a write to a memory in canonical form. -/
theorem Memory.read_write {m : Memory} (i : Nat) (n : Int) (h : Memory.wf m = true) (j : Nat) :
    Memory.read (Memory.write m i n) j = if i = j then n else Memory.read m j := by
  induction m with
  | nil => exact Memory.read_entry (by simp) n j
  | cons q m ih =>
    obtain ⟨a, v⟩ := q
    obtain ⟨hlt, hv, hm⟩ := (Memory.wf_cons a v m).mp h
    simp only [Memory.write]
    split
    · rename_i hia
      refine Memory.read_entry (fun p hp => ?_) n j
      rcases List.mem_cons.mp hp with rfl | hp
      · exact hia
      · exact hia.trans (hlt p hp)
    · split
      · rename_i hieq
        rw [Memory.read_entry (fun p hp => hieq ▸ hlt p hp) n j]
        simp only [Memory.read_cons]
        split <;> simp_all
      · rename_i hne
        rw [Memory.read_cons, ih hm]
        simp only [Memory.read_cons]
        split
        · rename_i haj
          rw [if_neg (by omega)]
        · rfl

end Sys2Proof.Machine
end

