-- ==== Sys2Proof/Laws/State.lean ====
section
/-! SUPPORT. What each update of the state does to each of its fields, all true by definition. -/

namespace Sys2Proof

/-- Two registers with one place are one register. -/
theorem Reg.index_injective {p q : Reg} (h : p.index = q.index) : p = q := by
  cases p <;> cases q <;> first | rfl | exact absurd h (by decide)

namespace Machine

variable (s : State)

/-! A register write. -/

@[simp] theorem State.setReg_regs (r : Reg) (v : Value) : (s.setReg r v).regs = s.regs.set r.index v r.index.isLt := rfl
@[simp] theorem State.setReg_rip (r : Reg) (v : Value) : (s.setReg r v).rip = s.rip := rfl
@[simp] theorem State.setReg_rflags (r : Reg) (v : Value) : (s.setReg r v).rflags = s.rflags := rfl
@[simp] theorem State.setReg_mem (r : Reg) (v : Value) : (s.setReg r v).mem = s.mem := rfl
@[simp] theorem State.setReg_out (r : Reg) (v : Value) : (s.setReg r v).out = s.out := rfl
@[simp] theorem State.setReg_prog (r : Reg) (v : Value) : (s.setReg r v).prog = s.prog := rfl
@[simp] theorem State.setReg_incStack (r : Reg) (v : Value) : (s.setReg r v).incStack = s.incStack := rfl
@[simp] theorem State.setReg_sched (r : Reg) (v : Value) : (s.setReg r v).sched = s.sched := rfl
@[simp] theorem State.setReg_fault (r : Reg) (v : Value) : (s.setReg r v).fault = s.fault := rfl
@[simp] theorem State.setReg_debug (r : Reg) (v : Value) : (s.setReg r v).debug = s.debug := rfl
@[simp] theorem State.setReg_rate (r : Reg) (v : Value) : (s.setReg r v).rate = s.rate := rfl
@[simp] theorem State.setReg_cfg (r : Reg) (v : Value) : (s.setReg r v).cfg = s.cfg := rfl
@[simp] theorem State.setReg_errorInfo (r : Reg) (v : Value) : (s.setReg r v).errorInfo = s.errorInfo := rfl
@[simp] theorem State.setReg_turns (r : Reg) (v : Value) : (s.setReg r v).turns = s.turns := rfl
@[simp] theorem State.setReg_events (r : Reg) (v : Value) : (s.setReg r v).events = s.events := rfl
@[simp] theorem State.setReg_hostAnswers (r : Reg) (v : Value) : (s.setReg r v).hostAnswers = s.hostAnswers := rfl
@[simp] theorem State.setReg_draws (r : Reg) (v : Value) : (s.setReg r v).draws = s.draws := rfl

/-! An event. -/

@[simp] theorem State.emit_regs (e : Event) : (s.emit e).regs = s.regs := rfl
@[simp] theorem State.emit_rip (e : Event) : (s.emit e).rip = s.rip := rfl
@[simp] theorem State.emit_rflags (e : Event) : (s.emit e).rflags = s.rflags := rfl
@[simp] theorem State.emit_mem (e : Event) : (s.emit e).mem = s.mem := rfl
@[simp] theorem State.emit_out (e : Event) : (s.emit e).out = s.out := rfl
@[simp] theorem State.emit_prog (e : Event) : (s.emit e).prog = s.prog := rfl
@[simp] theorem State.emit_incStack (e : Event) : (s.emit e).incStack = s.incStack := rfl
@[simp] theorem State.emit_sched (e : Event) : (s.emit e).sched = s.sched := rfl
@[simp] theorem State.emit_fault (e : Event) : (s.emit e).fault = s.fault := rfl
@[simp] theorem State.emit_debug (e : Event) : (s.emit e).debug = s.debug := rfl
@[simp] theorem State.emit_rate (e : Event) : (s.emit e).rate = s.rate := rfl
@[simp] theorem State.emit_cfg (e : Event) : (s.emit e).cfg = s.cfg := rfl
@[simp] theorem State.emit_errorInfo (e : Event) : (s.emit e).errorInfo = s.errorInfo := rfl
@[simp] theorem State.emit_turns (e : Event) : (s.emit e).turns = s.turns := rfl
@[simp] theorem State.emit_events (e : Event) : (s.emit e).events = e :: s.events := rfl
@[simp] theorem State.emit_hostAnswers (e : Event) : (s.emit e).hostAnswers = s.hostAnswers := rfl
@[simp] theorem State.emit_draws (e : Event) : (s.emit e).draws = s.draws := rfl

/-! The implicit increment. -/

@[simp] theorem State.advance_regs : (s.advance).regs = s.regs := rfl
@[simp] theorem State.advance_rip : (s.advance).rip = s.rip + 1 := rfl
@[simp] theorem State.advance_rflags : (s.advance).rflags = s.rflags := rfl
@[simp] theorem State.advance_mem : (s.advance).mem = s.mem := rfl
@[simp] theorem State.advance_out : (s.advance).out = s.out := rfl
@[simp] theorem State.advance_prog : (s.advance).prog = s.prog := rfl
@[simp] theorem State.advance_incStack : (s.advance).incStack = s.incStack := rfl
@[simp] theorem State.advance_sched : (s.advance).sched = s.sched := rfl
@[simp] theorem State.advance_fault : (s.advance).fault = s.fault := rfl
@[simp] theorem State.advance_debug : (s.advance).debug = s.debug := rfl
@[simp] theorem State.advance_rate : (s.advance).rate = s.rate := rfl
@[simp] theorem State.advance_cfg : (s.advance).cfg = s.cfg := rfl
@[simp] theorem State.advance_errorInfo : (s.advance).errorInfo = s.errorInfo := rfl
@[simp] theorem State.advance_turns : (s.advance).turns = s.turns := rfl
@[simp] theorem State.advance_events : (s.advance).events = s.events := rfl
@[simp] theorem State.advance_hostAnswers : (s.advance).hostAnswers = s.hostAnswers := rfl
@[simp] theorem State.advance_draws : (s.advance).draws = s.draws := rfl

/-! The fault entry. -/

@[simp] theorem State.raise_regs (raw : Line) (e : Err) : (s.raise raw e).regs = s.regs := rfl
@[simp] theorem State.raise_rip (raw : Line) (e : Err) : (s.raise raw e).rip = s.rip := rfl
@[simp] theorem State.raise_rflags (raw : Line) (e : Err) : (s.raise raw e).rflags = s.rflags := rfl
@[simp] theorem State.raise_mem (raw : Line) (e : Err) : (s.raise raw e).mem = s.mem := rfl
@[simp] theorem State.raise_out (raw : Line) (e : Err) : (s.raise raw e).out = s.out := rfl
@[simp] theorem State.raise_prog (raw : Line) (e : Err) : (s.raise raw e).prog = s.prog := rfl
@[simp] theorem State.raise_incStack (raw : Line) (e : Err) : (s.raise raw e).incStack = s.incStack := rfl
@[simp] theorem State.raise_sched (raw : Line) (e : Err) : (s.raise raw e).sched = .faulted := rfl
@[simp] theorem State.raise_fault (raw : Line) (e : Err) :
    (s.raise raw e).fault = some (s.faultRecord raw e) := rfl
@[simp] theorem State.raise_debug (raw : Line) (e : Err) : (s.raise raw e).debug = s.debug := rfl
@[simp] theorem State.raise_rate (raw : Line) (e : Err) : (s.raise raw e).rate = s.rate := rfl
@[simp] theorem State.raise_cfg (raw : Line) (e : Err) : (s.raise raw e).cfg = s.cfg := rfl
@[simp] theorem State.raise_errorInfo (raw : Line) (e : Err) : (s.raise raw e).errorInfo = some e := rfl
@[simp] theorem State.raise_turns (raw : Line) (e : Err) : (s.raise raw e).turns = s.turns := rfl
@[simp] theorem State.raise_events (raw : Line) (e : Err) :
    (s.raise raw e).events = .faultReport (s.faultRecord raw e) :: s.events := rfl
@[simp] theorem State.raise_hostAnswers (raw : Line) (e : Err) :
    (s.raise raw e).hostAnswers = s.hostAnswers := rfl
@[simp] theorem State.raise_draws (raw : Line) (e : Err) : (s.raise raw e).draws = s.draws := rfl

/-! The reset. -/

@[simp] theorem State.afterReset_regs : (s.afterReset).regs = Vector.replicate 24 (.int 0) := rfl
@[simp] theorem State.afterReset_rip : (s.afterReset).rip = 0 := rfl
@[simp] theorem State.afterReset_rflags : (s.afterReset).rflags = 0 := rfl
@[simp] theorem State.afterReset_mem : (s.afterReset).mem = [] := rfl
@[simp] theorem State.afterReset_out : (s.afterReset).out = none := rfl
@[simp] theorem State.afterReset_prog : (s.afterReset).prog = [] := rfl
@[simp] theorem State.afterReset_incStack : (s.afterReset).incStack = [] := rfl
@[simp] theorem State.afterReset_sched : (s.afterReset).sched = .idle := rfl
@[simp] theorem State.afterReset_fault : (s.afterReset).fault = none := rfl
@[simp] theorem State.afterReset_debug : (s.afterReset).debug = s.debug := rfl
@[simp] theorem State.afterReset_rate : (s.afterReset).rate = s.rate := rfl
@[simp] theorem State.afterReset_cfg : (s.afterReset).cfg = s.cfg := rfl
@[simp] theorem State.afterReset_errorInfo : (s.afterReset).errorInfo = none := rfl
@[simp] theorem State.afterReset_turns : (s.afterReset).turns = s.turns := rfl
@[simp] theorem State.afterReset_events : (s.afterReset).events = s.events := rfl
@[simp] theorem State.afterReset_hostAnswers : (s.afterReset).hostAnswers = s.hostAnswers := rfl
@[simp] theorem State.afterReset_draws : (s.afterReset).draws = s.draws := rfl

/-! An answered host call. -/

@[simp] theorem State.answered_regs : (s.answered).regs = s.regs := rfl
@[simp] theorem State.answered_rip : (s.answered).rip = s.rip := rfl
@[simp] theorem State.answered_rflags : (s.answered).rflags = s.rflags := rfl
@[simp] theorem State.answered_mem : (s.answered).mem = s.mem := rfl
@[simp] theorem State.answered_out : (s.answered).out = s.out := rfl
@[simp] theorem State.answered_prog : (s.answered).prog = s.prog := rfl
@[simp] theorem State.answered_incStack : (s.answered).incStack = s.incStack := rfl
@[simp] theorem State.answered_sched : (s.answered).sched = s.sched := rfl
@[simp] theorem State.answered_fault : (s.answered).fault = s.fault := rfl
@[simp] theorem State.answered_debug : (s.answered).debug = s.debug := rfl
@[simp] theorem State.answered_rate : (s.answered).rate = s.rate := rfl
@[simp] theorem State.answered_cfg : (s.answered).cfg = s.cfg := rfl
@[simp] theorem State.answered_errorInfo : (s.answered).errorInfo = s.errorInfo := rfl
@[simp] theorem State.answered_turns : (s.answered).turns = s.turns := rfl
@[simp] theorem State.answered_events : (s.answered).events = s.events := rfl
@[simp] theorem State.answered_hostAnswers : (s.answered).hostAnswers = s.hostAnswers.tail := rfl
@[simp] theorem State.answered_draws : (s.answered).draws = s.draws + 1 := rfl

/-! What the fault entry's record says. -/

@[simp] theorem State.faultRecord_code (raw : Line) (e : Err) : (s.faultRecord raw e).code = e.code := rfl
@[simp] theorem State.faultRecord_index (raw : Line) (e : Err) : (s.faultRecord raw e).index = s.rip := rfl
@[simp] theorem State.faultRecord_text (raw : Line) (e : Err) : (s.faultRecord raw e).text = raw := rfl
@[simp] theorem State.faultRecord_depth (raw : Line) (e : Err) :
    (s.faultRecord raw e).depth = s.incStack.length := rfl

/-- Every fatal code is between 1 and 11 (R500). -/
theorem Err.code_range (e : Err) : 1 ≤ e.code ∧ e.code ≤ 11 := by
  cases e <;> simp [Err.code]

/-! Registers read through the updates that leave them. -/

@[simp] theorem State.reg_emit (e : Event) (r : Reg) : (s.emit e).reg r = s.reg r := rfl
@[simp] theorem State.reg_advance (r : Reg) : s.advance.reg r = s.reg r := rfl
@[simp] theorem State.reg_raise (e : Err) (r : Reg) : (s.raise raw e).reg r = s.reg r := rfl
@[simp] theorem State.reg_answered (r : Reg) : s.answered.reg r = s.reg r := rfl

/-- A written register reads as what was written. -/
@[simp] theorem State.reg_setReg_self (r : Reg) (v : Value) : (s.setReg r v).reg r = v := by
  simp [State.reg, State.setReg]

/-- A register write leaves every other register. -/
theorem State.reg_setReg_of_ne {p q : Reg} (h : q ≠ p) (v : Value) :
    (s.setReg p v).reg q = s.reg q := by
  have hi : p.index.val ≠ q.index.val := fun e => h (Reg.index_injective (Fin.ext e.symm))
  simp [State.reg, State.setReg, hi]

/-- After reset every register holds `Int 0` (R66). -/
@[simp] theorem State.reg_afterReset (r : Reg) : s.afterReset.reg r = .int 0 := by
  simp [State.reg, State.afterReset]

end Machine

end Sys2Proof
end

