-- ==== Sys2Proof/Laws/Operands.lean ====
section
/-! SUPPORT. The operand resolver against the words of spec/30_encoding.md R140 to R145: what each
token resolves to, and that nothing else does. -/

namespace Sys2Proof

@[simp] theorem Reg.mem_all (r : Reg) : r ∈ Reg.all := by
  cases r <;> decide

/-- No two registers have one name. -/
theorem Reg.name_injective {p q : Reg} (h : p.name = q.name) : p = q := by
  cases p <;> cases q <;> first | rfl | exact absurd h (by decide)

/-- A register's name is no immediate. -/
@[simp] theorem Reg.isImmediate_name (r : Reg) : isImmediate r.name = false := by
  cases r <;> decide

/-- R142: looking a token up finds the register of exactly that name. -/
theorem lookupReg_eq_some {t : Token} {r : Reg} : lookupReg t = some r ↔ t = r.name := by
  constructor
  · intro h
    have := List.find?_some h
    simpa using Eq.symm (eq_of_beq this)
  · rintro rfl
    cases r <;> decide

@[simp] theorem lookupReg_name (r : Reg) : lookupReg r.name = some r :=
  lookupReg_eq_some.mpr rfl

/-- A token that names no register finds none. -/
theorem lookupReg_eq_none {t : Token} : lookupReg t = none ↔ ∀ r : Reg, t ≠ r.name := by
  rw [Option.eq_none_iff_forall_ne_some]
  exact forall_congr' fun r => not_congr lookupReg_eq_some

namespace Machine

/-- R140: the immediates are the tokens of one or more ASCII digits. -/
theorem isImmediate_iff {t : Token} : isImmediate t = true ↔ IsDigits t := by
  simp [isImmediate, IsDigits, isDigit]

theorem isImmediate_eq_false {t : Token} : isImmediate t = false ↔ ¬ IsDigits t := by
  rw [← isImmediate_iff]; simp

/-- A register's name is not made of digits. -/
theorem not_isDigits_name (r : Reg) : ¬ IsDigits r.name := by
  rw [← isImmediate_eq_false]; simp

@[simp] theorem regRef_name (r : Reg) : regRef r.name = .ok r := by
  simp [regRef]

theorem regRef_of_namesNoRegister {t : Token} (h : NamesNoRegister t) :
    regRef t = .error (.unknownRegister t) := by
  simp [regRef, lookupReg_eq_none.mpr h]

@[simp] theorem destRef_name (r : Reg) : destRef r.name = .ok r := by
  simp [destRef]

/-- A destination resolves only where it names a register (R144). -/
theorem destRef_eq_ok {t : Token} {r : Reg} : destRef t = .ok r ↔ t = r.name := by
  refine ⟨fun h => ?_, fun h => h ▸ destRef_name r⟩
  unfold destRef at h
  split at h
  · cases h
  · unfold regRef at h
    split at h
    · rename_i hr
      cases h
      exact lookupReg_eq_some.mp hr
    · cases h

/-- A destination that fails has one of the two errors of R144. -/
theorem destRef_eq_error {t : Token} {e : Err} : destRef t = .error e ↔
    (IsDigits t ∧ e = .malformedInstruction t) ∨
      (¬ IsDigits t ∧ NamesNoRegister t ∧ e = .unknownRegister t) := by
  unfold destRef
  split
  · rename_i h
    rw [isImmediate_iff] at h
    simp only [Except.error.injEq, h, true_and, not_true_eq_false, false_and, or_false]
    exact eq_comm
  · rename_i h
    rw [isImmediate_iff] at h
    unfold regRef
    split
    · rename_i r hr
      rw [lookupReg_eq_some] at hr
      simp only [reduceCtorEq, h, false_and, not_false_eq_true, true_and, false_or, false_iff,
        not_and]
      exact fun hn => absurd hr (hn r)
    · rename_i hr
      rw [lookupReg_eq_none] at hr
      simp only [Except.error.injEq, h, false_and, not_false_eq_true, true_and, false_or]
      exact ⟨fun he => ⟨hr, he.symm⟩, fun he => he.2.symm⟩

theorem destFails_iff {t : Token} {c : Nat} :
    DestFails t c ↔ ∃ e, destRef t = .error e ∧ e.code = c := by
  simp only [destRef_eq_error, DestFails]
  constructor
  · rintro (⟨h, rfl⟩ | ⟨h, hn, rfl⟩)
    · exact ⟨_, .inl ⟨h, rfl⟩, rfl⟩
    · exact ⟨_, .inr ⟨h, hn, rfl⟩, rfl⟩
  · rintro ⟨e, ⟨h, rfl⟩ | ⟨h, hn, rfl⟩, rfl⟩
    · exact .inl ⟨h, rfl⟩
    · exact .inr ⟨h, hn, rfl⟩

@[simp] theorem readSrc_name (s : State) (r : Reg) : readSrc s r.name = .ok (s.reg r) := by
  simp [readSrc, Except.map]

/-- A source resolves to exactly the value it denotes (R143). -/
theorem readSrc_eq_ok {s : State} {t : Token} {v : Value} : readSrc s t = .ok v ↔ SrcIs s t v := by
  unfold readSrc
  split
  · rename_i h
    have hd := isImmediate_iff.mp h
    have hr : ∀ r : Reg, t ≠ r.name := fun r e => not_isDigits_name r (e ▸ hd)
    unfold immediate
    split
    · rename_i hf
      simp only [Except.map, Except.ok.injEq, SrcIs, hd, hf, true_and, hr, false_and, exists_false,
        or_false]
      exact eq_comm
    · rename_i hf
      simp [Except.map, SrcIs, hf, hr]
  · rename_i h
    have hd : ¬ IsDigits t := fun hd => h (isImmediate_iff.mpr hd)
    unfold regRef
    split
    · rename_i r hr
      rw [lookupReg_eq_some] at hr
      subst hr
      simp only [Except.map, Except.ok.injEq, SrcIs, hd, false_and, false_or]
      constructor
      · rintro rfl
        exact ⟨r, rfl, rfl⟩
      · rintro ⟨q, hq, rfl⟩
        rw [Reg.name_injective hq]
    · rename_i hr
      rw [lookupReg_eq_none] at hr
      simp [Except.map, SrcIs, hd, hr]

/-- A source that fails has one of the two errors of R141 and R142. -/
theorem readSrc_eq_error {s : State} {t : Token} {e : Err} : readSrc s t = .error e ↔
    (IsDigits t ∧ s.cfg.fits (immediateValue t) = false ∧ e = .valueOutOfRange (immediateValue t)) ∨
      (¬ IsDigits t ∧ NamesNoRegister t ∧ e = .unknownRegister t) := by
  unfold readSrc
  split
  · rename_i h
    have hd := isImmediate_iff.mp h
    unfold immediate
    split
    · rename_i hf
      simp [Except.map, hd, hf]
    · rename_i hf
      simp only [Except.map, Except.error.injEq, hd, true_and, not_true_eq_false, false_and,
        or_false, Bool.not_eq_true] at hf ⊢
      exact ⟨fun h => ⟨hf, h.symm⟩, fun h => h.2.symm⟩
  · rename_i h
    have hd : ¬ IsDigits t := fun hd => h (isImmediate_iff.mpr hd)
    unfold regRef
    split
    · rename_i r hr
      rw [lookupReg_eq_some] at hr
      simp only [Except.map, reduceCtorEq, hd, false_and, not_false_eq_true, true_and, false_or,
        false_iff, not_and]
      exact fun hn => absurd hr (hn r)
    · rename_i hr
      rw [lookupReg_eq_none] at hr
      simp only [Except.map, Except.error.injEq, hd, false_and, not_false_eq_true, true_and,
        false_or]
      exact ⟨fun he => ⟨hr, he.symm⟩, fun he => he.2.symm⟩

theorem srcFails_iff {s : State} {t : Token} {c : Nat} :
    SrcFails s t c ↔ ∃ e, readSrc s t = .error e ∧ e.code = c := by
  simp only [readSrc_eq_error, SrcFails]
  constructor
  · rintro (⟨h, hf, rfl⟩ | ⟨h, hn, rfl⟩)
    · exact ⟨_, .inl ⟨h, hf, rfl⟩, rfl⟩
    · exact ⟨_, .inr ⟨h, hn, rfl⟩, rfl⟩
  · rintro ⟨e, ⟨h, hf, rfl⟩ | ⟨h, hn, rfl⟩, rfl⟩
    · exact .inl ⟨h, hf, rfl⟩
    · exact .inr ⟨h, hn, rfl⟩

@[simp] theorem intOf_int (t : Token) (n : Int) : intOf t (.int n) = .ok n := rfl
@[simp] theorem intOf_text (t : Token) (x : Text) : intOf t (.text x) = .error (.typeMismatch t) := rfl

theorem intOf_eq_ok {t : Token} {v : Value} {n : Int} : intOf t v = .ok n ↔ v = .int n := by
  cases v <;> simp [intOf]

@[simp] theorem fit_of_fits {c : Config} {n : Int} (h : c.fits n = true) : fit c n = .ok n := by
  simp [fit, h]

@[simp] theorem fit_of_not_fits {c : Config} {n : Int} (h : c.fits n = false) :
    fit c n = .error (.valueOutOfRange n) := by
  simp [fit, h]

theorem fit_eq_ok {c : Config} {n m : Int} : fit c n = .ok m ↔ c.fits n = true ∧ m = n := by
  unfold fit
  split
  · rename_i h
    simp [h, eq_comm]
  · rename_i h
    simp [h]

/-- A value passes through `Fit` unchanged exactly when it fits (R200). -/
theorem fitValue_eq_ok {c : Config} {v w : Value} :
    fitValue c v = .ok w ↔ ValueFits c v ∧ w = v := by
  cases v with
  | text t =>
    refine ⟨fun h => ⟨fun n hn => (by cases hn), (Except.ok.inj h).symm⟩, ?_⟩
    rintro ⟨-, rfl⟩
    rfl
  | int n =>
    show (fit c n).map Value.int = .ok w ↔ _
    cases h : c.fits n
    · rw [fit_of_not_fits h]
      refine ⟨fun hw => (by cases hw), fun hw => ?_⟩
      rw [hw.1 n rfl] at h
      cases h
    · rw [fit_eq_ok.mpr ⟨h, rfl⟩]
      refine ⟨fun hw => ⟨fun m hm => by cases hm; exact h, (Except.ok.inj hw).symm⟩, ?_⟩
      rintro ⟨-, rfl⟩
      rfl

/-- `Cell(a)` finds exactly the cell R101 gives. -/
theorem cellOf_eq_ok {c : Config} {a : Int} {i : Nat} : cellOf c a = .ok i ↔ CellIs c a i := by
  unfold cellOf CellIs
  split
  · rename_i h
    simp only [Except.ok.injEq]
    omega
  · split
    · rename_i hm
      split
      · simp only [Except.ok.injEq, hm, true_and]
        omega
      · simp only [reduceCtorEq, hm, true_and, false_iff]
        omega
    · rename_i hm
      simp only [reduceCtorEq, hm, false_and, or_false, false_iff]
      omega

theorem cellOf_of_noCell {c : Config} {a : Int} (h : NoCell c a) :
    cellOf c a = .error (.stackOutOfRange a) := by
  cases hc : cellOf c a with
  | ok i => exact absurd (cellOf_eq_ok.mp hc) (h i)
  | error e =>
    unfold cellOf at hc
    split at hc
    · cases hc
    · split at hc
      · split at hc
        · cases hc
        · exact hc.symm
      · exact hc.symm

/-- The cell `Cell(a)` finds exists. -/
theorem cellOf_lt {c : Config} {a : Int} {i : Nat} (h : cellOf c a = .ok i) : i < c.memCells := by
  have := cellOf_eq_ok.mp h
  unfold CellIs at this
  omega

/-! Operand counts. -/

/-- The offending token of a wrong operand count is the one CountFault names (log entry 7). -/
theorem countError_eq {op : Token} {n : Nat} {ops : List Token} (h : ops.length ≠ n) :
    ∃ tok, countError op n ops = .malformedInstruction tok ∧ CountFault op n ops tok := by
  refine ⟨_, rfl, ?_⟩
  cases hd : ops.drop n with
  | cons t rest =>
    left
    have hn : n ≤ ops.length := by
      by_contra hc
      rw [List.drop_eq_nil_of_le (by omega)] at hd
      cases hd
    exact ⟨ops.take n, rest, by rw [List.headD_cons, ← hd, List.take_append_drop],
      List.length_take_of_le hn⟩
  | nil =>
    right
    have := List.drop_eq_nil_iff.mp hd
    refine ⟨by omega, ?_⟩
    rw [List.headD_nil, List.getLast?_cons, List.getLastD_eq_getLast?]

theorem noOperand_eq_ok {op : Token} {ops : List Token} {u : Unit} :
    noOperand op ops = .ok u ↔ ops = [] := by
  cases ops <;> simp [noOperand]

theorem oneOperand_eq_ok {op : Token} {ops : List Token} {a : Token} :
    oneOperand op ops = .ok a ↔ ops = [a] := by
  unfold oneOperand
  split
  · simp
  · rename_i h
    simp only [reduceCtorEq, false_iff]
    exact h a

theorem twoOperands_eq_ok {op : Token} {ops : List Token} {p : Token × Token} :
    twoOperands op ops = .ok p ↔ ops = [p.1, p.2] := by
  unfold twoOperands
  split
  · simp [Prod.ext_iff]
  · rename_i h
    simp only [reduceCtorEq, false_iff]
    exact h p.1 p.2

theorem oneOperand_of_length {op : Token} {ops : List Token} (h : ops.length ≠ 1) :
    oneOperand op ops = .error (countError op 1 ops) := by
  unfold oneOperand
  split
  · simp at h
  · rfl

theorem twoOperands_of_length {op : Token} {ops : List Token} (h : ops.length ≠ 2) :
    twoOperands op ops = .error (countError op 2 ops) := by
  unfold twoOperands
  split
  · simp at h
  · rfl

end Machine

end Sys2Proof
end

