-- ==== Sys2Proof/Laws/Exec.lean ====
section
/-! SUPPORT. What each shared operation of the meanings can do: one inversion lemma per operation, for
the case that it completes. -/

namespace Sys2Proof.Machine

/-- A sequence of two operations completes when both do. -/
theorem bind_eq_ok {α β : Type} {x : Except Err α} {f : α → Except Err β} {b : β} :
    (x >>= f) = .ok b ↔ ∃ a, x = .ok a ∧ f a = .ok b := by
  cases x <;> simp [bind, Except.bind]

/-- A sequence of two operations raises when the first does, or when it completes and the second
does. -/
theorem bind_eq_error {α β : Type} {x : Except Err α} {f : α → Except Err β} {e : Err} :
    (x >>= f) = .error e ↔ x = .error e ∨ ∃ a, x = .ok a ∧ f a = .error e := by
  cases x <;> simp [bind, Except.bind]

@[simp] theorem bind_ok {α β : Type} (a : α) (f : α → Except Err β) :
    ((Except.ok a : Except Err α) >>= f) = f a := rfl

@[simp] theorem bind_error {α β : Type} (e : Err) (f : α → Except Err β) :
    ((Except.error e : Except Err α) >>= f) = .error e := rfl

@[simp] theorem pure_eq_ok {α : Type} (a : α) : (pure a : Except Err α) = .ok a := rfl

@[simp] theorem finish_ok (s t : State) (raw : Line) :
    finish s raw (.ok t) = .next { t with rip := t.rip + 1, events := .notify :: t.events } := rfl

@[simp] theorem finish_error (s : State) (raw : Line) (e : Err) :
    finish s raw (.error e) = .next (s.raise raw e) := rfl

@[simp] theorem finishInPlace_ok (s t : State) (raw : Line) :
    finishInPlace s raw (.ok t) = .next { t with events := .notify :: t.events } := rfl

@[simp] theorem finishInPlace_error (s : State) (raw : Line) (e : Err) :
    finishInPlace s raw (.error e) = .next (s.raise raw e) := rfl

/-- How an instruction ends: it raised, or its effect is committed. -/
theorem finish_cases {s t : State} {raw : Line} {r : Except Err State}
    (h : finish s raw r = .next t) :
    (∃ e, r = .error e ∧ t = s.raise raw e) ∨
      ∃ u, r = .ok u ∧ t = { u with rip := u.rip + 1, events := .notify :: u.events } := by
  cases r with
  | error e => exact .inl ⟨e, rfl, by simpa using h.symm⟩
  | ok u => exact .inr ⟨u, rfl, by simpa using h.symm⟩

/-- How INCLUDE ends. -/
theorem finishInPlace_cases {s t : State} {raw : Line} {r : Except Err State}
    (h : finishInPlace s raw r = .next t) :
    (∃ e, r = .error e ∧ t = s.raise raw e) ∨
      ∃ u, r = .ok u ∧ t = { u with events := .notify :: u.events } := by
  cases r with
  | error e => exact .inl ⟨e, rfl, by simpa using h.symm⟩
  | ok u => exact .inr ⟨u, rfl, by simpa using h.symm⟩

/-- R202. -/
theorem movEffect_eq_ok {ops : List Token} {s t : State} : movEffect ops s = .ok t ↔
    ∃ src r v, ops = [Reg.name r, src] ∧ SrcIs s src v ∧ ValueFits s.cfg v ∧ t = s.setReg r v := by
  simp only [movEffect, bind_eq_ok, twoOperands_eq_ok, destRef_eq_ok, readSrc_eq_ok,
    fitValue_eq_ok, pure_eq_ok, Except.ok.injEq]
  constructor
  · rintro ⟨⟨d, src⟩, rfl, r, rfl, v, hv, _, ⟨hf, rfl⟩, rfl⟩
    exact ⟨src, r, _, rfl, hv, hf, rfl⟩
  · rintro ⟨src, r, v, rfl, hv, hf, rfl⟩
    exact ⟨(r.name, src), rfl, r, rfl, v, hv, v, ⟨hf, rfl⟩, rfl⟩

/-- R201. -/
theorem alu2_eq_ok {op : Token} {f : Int → Int → Except Err Int} {ops : List Token} {s t : State} :
    alu2 op f ops s = .ok t ↔ ∃ src r a b n, ops = [Reg.name r, src] ∧ s.reg r = .int a ∧
      SrcIs s src (.int b) ∧ f a b = .ok n ∧ s.cfg.fits n = true ∧ t = s.setReg r (.int n) := by
  simp only [alu2, bind_eq_ok, twoOperands_eq_ok, destRef_eq_ok, readSrc_eq_ok, intOf_eq_ok,
    fit_eq_ok, pure_eq_ok, Except.ok.injEq]
  constructor
  · rintro ⟨⟨d, src⟩, rfl, r, rfl, v, hv, a, ha, b, rfl, n, hf, _, ⟨hn, rfl⟩, rfl⟩
    exact ⟨src, r, a, b, _, rfl, ha, hv, hf, hn, rfl⟩
  · rintro ⟨src, r, a, b, n, rfl, ha, hv, hf, hn, rfl⟩
    exact ⟨(r.name, src), rfl, r, rfl, _, hv, a, ha, b, rfl, n, hf, n, ⟨hn, rfl⟩, rfl⟩

/-- R207. -/
theorem alu1_eq_ok {op : Token} {f : Int → Int} {ops : List Token} {s t : State} :
    alu1 op f ops s = .ok t ↔
    ∃ r a, ops = [Reg.name r] ∧ s.reg r = .int a ∧ s.cfg.fits (f a) = true ∧
      t = s.setReg r (.int (f a)) := by
  simp only [alu1, bind_eq_ok, oneOperand_eq_ok, destRef_eq_ok, intOf_eq_ok, fit_eq_ok, pure_eq_ok,
    Except.ok.injEq]
  constructor
  · rintro ⟨d, rfl, r, rfl, a, ha, _, ⟨hn, rfl⟩, rfl⟩
    exact ⟨r, a, rfl, ha, hn, rfl⟩
  · rintro ⟨r, a, rfl, ha, hn, rfl⟩
    exact ⟨_, rfl, r, rfl, a, ha, _, ⟨hn, rfl⟩, rfl⟩

/-- R300. -/
theorem cmpEffect_eq_ok {ops : List Token} {s t : State} : cmpEffect ops s = .ok t ↔
    ∃ a b m n, ops = [a, b] ∧ SrcIs s a (.int m) ∧ SrcIs s b (.int n) ∧
      t = { s with rflags := equalFlag m n } := by
  simp only [cmpEffect, bind_eq_ok, twoOperands_eq_ok, readSrc_eq_ok, intOf_eq_ok, pure_eq_ok,
    Except.ok.injEq]
  constructor
  · rintro ⟨⟨a, b⟩, rfl, _, ha, _, hb, m, rfl, n, rfl, rfl⟩
    exact ⟨a, b, m, n, rfl, ha, hb, rfl⟩
  · rintro ⟨a, b, m, n, rfl, ha, hb, rfl⟩
    exact ⟨(a, b), rfl, _, ha, _, hb, m, rfl, n, rfl, rfl⟩

/-- R301. -/
theorem jump_eq_ok {op : Token} {taken : BitVec 1 → Bool} {clears : Bool} {ops : List Token}
    {s t : State} : jump op taken clears ops s = .ok t ↔ ∃ addr n, ops = [addr] ∧ SrcIs s addr (.int n) ∧
      t = { s with
        rip := if taken s.rflags then n - 1 else s.rip
        rflags := if clears then 0 else s.rflags } := by
  simp only [jump, bind_eq_ok, oneOperand_eq_ok, readSrc_eq_ok, intOf_eq_ok, pure_eq_ok,
    Except.ok.injEq]
  constructor
  · rintro ⟨addr, rfl, _, hv, n, rfl, rfl⟩
    exact ⟨addr, n, rfl, hv, rfl⟩
  · rintro ⟨addr, n, rfl, hv, rfl⟩
    exact ⟨addr, rfl, _, hv, n, rfl, rfl⟩

theorem stackIndex_eq_ok {s : State} {sp : Int} : stackIndex s = .ok sp ↔ s.reg .rsp = .int sp :=
  intOf_eq_ok

/-- R350. -/
theorem pushEffect_eq_ok {ops : List Token} {s t : State} : pushEffect ops s = .ok t ↔
    ∃ src n sp i, ops = [src] ∧ SrcIs s src (.int n) ∧ s.reg .rsp = .int sp ∧ CellIs s.cfg sp i ∧
      s.cfg.fits (sp - 1) = true ∧
      t = State.setReg { s with mem := Memory.write s.mem i n } .rsp (.int (sp - 1)) := by
  simp only [pushEffect, bind_eq_ok, oneOperand_eq_ok, readSrc_eq_ok, intOf_eq_ok,
    stackIndex_eq_ok, cellOf_eq_ok, fit_eq_ok, pure_eq_ok, Except.ok.injEq]
  constructor
  · rintro ⟨src, rfl, _, hv, n, rfl, sp, hsp, i, hi, _, ⟨hf, rfl⟩, rfl⟩
    exact ⟨src, n, sp, i, rfl, hv, hsp, hi, hf, rfl⟩
  · rintro ⟨src, n, sp, i, rfl, hv, hsp, hi, hf, rfl⟩
    exact ⟨src, rfl, _, hv, n, rfl, sp, hsp, i, hi, _, ⟨hf, rfl⟩, rfl⟩

/-- R351 with `ReadThenIncrement`. -/
theorem popReadThenIncrement_eq_ok {r : Reg} {s t : State} :
    popReadThenIncrement r s = .ok t ↔ ∃ sp i n, s.reg .rsp = .int sp ∧ CellIs s.cfg sp i ∧
      s.cfg.fits (Memory.read s.mem i) = true ∧
      n = (if r = .rsp then Memory.read s.mem i else sp) + 1 ∧ s.cfg.fits n = true ∧
      t = (s.setReg r (.int (Memory.read s.mem i))).setReg .rsp (.int n) := by
  have hrsp : ∀ sp v, s.reg .rsp = .int sp →
      (s.setReg r (.int v)).reg .rsp = .int (if r = .rsp then v else sp) := by
    intro sp v h
    by_cases hr : r = .rsp
    · subst hr; simp
    · rw [State.reg_setReg_of_ne _ (Ne.symm hr), h, if_neg hr]
  simp only [popReadThenIncrement, bind_eq_ok, stackIndex_eq_ok, cellOf_eq_ok, fit_eq_ok,
    pure_eq_ok, Except.ok.injEq]
  constructor
  · rintro ⟨sp, hsp, i, hi, _, ⟨hv, rfl⟩, sp', hsp', n, ⟨hf, rfl⟩, rfl⟩
    rw [hrsp sp _ hsp, Value.int.injEq] at hsp'
    subst hsp'
    exact ⟨sp, i, _, hsp, hi, hv, rfl, hf, rfl⟩
  · rintro ⟨sp, i, _, hsp, hi, hv, rfl, hf, rfl⟩
    exact ⟨sp, hsp, i, hi, _, ⟨hv, rfl⟩, _, hrsp sp _ hsp, _, ⟨hf, rfl⟩, rfl⟩

/-- R351 with `IncrementThenRead`. -/
theorem popIncrementThenRead_eq_ok {r : Reg} {s t : State} :
    popIncrementThenRead r s = .ok t ↔ ∃ sp i, s.reg .rsp = .int sp ∧ CellIs s.cfg (sp + 1) i ∧
      s.cfg.fits (sp + 1) = true ∧ s.cfg.fits (Memory.read s.mem i) = true ∧
      t = (s.setReg .rsp (.int (sp + 1))).setReg r (.int (Memory.read s.mem i)) := by
  simp only [popIncrementThenRead, bind_eq_ok, stackIndex_eq_ok, cellOf_eq_ok, fit_eq_ok,
    pure_eq_ok, Except.ok.injEq]
  constructor
  · rintro ⟨sp, hsp, i, hi, _, ⟨hf, rfl⟩, _, ⟨hv, rfl⟩, rfl⟩
    exact ⟨sp, i, hsp, hi, hf, hv, rfl⟩
  · rintro ⟨sp, i, hsp, hi, hf, hv, rfl⟩
    exact ⟨sp, hsp, i, hi, _, ⟨hf, rfl⟩, _, ⟨hv, rfl⟩, rfl⟩

/-- R351: a pop writes its destination and RSP, and nothing else. -/
theorem popEffect_eq_ok {ops : List Token} {s t : State} : popEffect ops s = .ok t ↔
    ∃ r, ops = [Reg.name r] ∧
      ((s.cfg.popOrder = .readThenIncrement ∧ popReadThenIncrement r s = .ok t) ∨
        (s.cfg.popOrder = .incrementThenRead ∧ popIncrementThenRead r s = .ok t)) := by
  simp only [popEffect, bind_eq_ok, oneOperand_eq_ok, destRef_eq_ok]
  constructor
  · rintro ⟨d, rfl, r, rfl, h⟩
    refine ⟨r, rfl, ?_⟩
    cases ho : s.cfg.popOrder <;> simp_all
  · rintro ⟨r, rfl, h⟩
    refine ⟨_, rfl, r, rfl, ?_⟩
    rcases h with ⟨ho, h⟩ | ⟨ho, h⟩ <;> simpa [ho] using h

/-- The raw literal of R138, as the tokens with one space before each further one. -/
theorem joinTokens_cons (w : Token) (ws : List Token) :
    joinTokens (w :: ws) = w ++ ws.flatMap (fun t => ' ' :: t) := by
  induction ws generalizing w with
  | nil => simp [joinTokens]
  | cons x xs ih => rw [joinTokens, ih]; simp; simp

/-- R139: the text of a well-formed literal. -/
theorem stripQuotes_eq_some {raw : Line} {t : Text} :
    stripQuotes raw = some t ↔ raw = '"' :: (t ++ ['"']) ∧ '"' ∉ t := by
  unfold stripQuotes
  split
  · rename_i rest
    split
    · rename_i body hb
      have hrest : rest = body.reverse ++ ['"'] := by
        rw [← List.reverse_reverse rest, hb, List.reverse_cons]
      subst hrest
      constructor
      · intro h
        split at h
        · cases h
        · rename_i hc
          obtain rfl : body.reverse = t := by simpa using h
          exact ⟨rfl, by simpa using hc⟩
      · rintro ⟨h, hq⟩
        obtain rfl : body.reverse = t := by simpa using h
        simpa using hq
    · rename_i hb
      constructor
      · intro h; cases h
      · rintro ⟨h, hq⟩
        obtain rfl : rest = t ++ ['"'] := by simpa using h
        exact absurd (by simp) (hb t.reverse)
  · rename_i hraw
    constructor
    · intro h; cases h
    · rintro ⟨h, -⟩
      exact absurd h (hraw _)

/-- The operands of a DEFINE that the syntax accepts (R136, R138, R139, R150). -/
theorem defineOperands_eq_ok {ops : List Token} {p : Token × Token × Text} :
    defineOperands ops = .ok p ↔ ∃ w ws, ops = p.1 :: p.2.1 :: w :: ws ∧ IsDigits p.2.1 ∧
      w ++ ws.flatMap (fun t => ' ' :: t) = '"' :: (p.2.2 ++ ['"']) ∧ '"' ∉ p.2.2 := by
  unfold defineOperands
  split
  · rename_i d n w ws
    split
    · rename_i hn
      rw [isImmediate_iff] at hn
      split
      · rename_i t ht
        rw [stripQuotes_eq_some, joinTokens_cons] at ht
        constructor
        · intro h
          cases h
          exact ⟨w, ws, rfl, hn, ht.1, ht.2⟩
        · rintro ⟨w', ws', h, -, hraw, hq⟩
          obtain ⟨rfl, rfl, rfl, rfl⟩ : d = p.1 ∧ n = p.2.1 ∧ w = w' ∧ ws = ws' := by simpa using h
          have : t = p.2.2 := by
            have := ht.1.symm.trans hraw
            simpa using this
          rw [this]
      · rename_i ht
        constructor
        · intro h; cases h
        · rintro ⟨w', ws', h, -, hraw, hq⟩
          obtain ⟨rfl, rfl, rfl, rfl⟩ : d = p.1 ∧ n = p.2.1 ∧ w = w' ∧ ws = ws' := by simpa using h
          rw [← joinTokens_cons] at hraw
          rw [stripQuotes_eq_some.mpr ⟨hraw, hq⟩] at ht
          cases ht
    · rename_i hn
      constructor
      · intro h; cases h
      · rintro ⟨w', ws', h, hd, -⟩
        obtain ⟨rfl, rfl, rfl, rfl⟩ : d = p.1 ∧ n = p.2.1 ∧ w = w' ∧ ws = ws' := by simpa using h
        exact absurd (isImmediate_iff.mpr hd) hn
  · rename_i hno
    constructor
    · intro h; cases h
    · rintro ⟨w, ws, rfl, -⟩
      exact absurd rfl (hno _ _ _ _)

theorem immediate_eq_ok {c : Config} {t : Token} {n : Nat} : immediate c t = .ok n ↔
    c.fits (immediateValue t) = true ∧ n = immediateValue t := by
  unfold immediate
  split
  · rename_i h
    simp [h, eq_comm]
  · rename_i h
    simp [h]

/-- R380. -/
theorem defineEffect_eq_ok {ops : List Token} {s t : State} : defineEffect ops s = .ok t ↔
    ∃ r len x, defineOperands ops = .ok (Reg.name r, len, x) ∧
      s.cfg.fits (immediateValue len) = true ∧ x.length = immediateValue len ∧
      t = s.setReg r (.text x) := by
  simp only [defineEffect, bind_eq_ok, destRef_eq_ok, immediate_eq_ok]
  constructor
  · rintro ⟨⟨d, len, x⟩, hd, r, rfl, n, ⟨hf, rfl⟩, h⟩
    split at h
    · rename_i hl
      exact ⟨r, len, x, hd, hf, hl, by simpa using h.symm⟩
    · cases h
  · rintro ⟨r, len, x, hd, hf, hl, rfl⟩
    exact ⟨_, hd, r, rfl, _, ⟨hf, rfl⟩, by simp [hl]⟩

/-- R382. -/
theorem printEffect_eq_ok {args : List Token} {s t : State} : printEffect args s = .ok t ↔
    ∃ src v, args = [src] ∧ SrcIs s src v ∧ t = { s with out := some (render v) } := by
  simp only [printEffect, bind_eq_ok, oneOperand_eq_ok, readSrc_eq_ok, pure_eq_ok, Except.ok.injEq]
  constructor
  · rintro ⟨src, rfl, v, hv, rfl⟩
    exact ⟨src, v, rfl, hv, rfl⟩
  · rintro ⟨src, v, rfl, hv, rfl⟩
    exact ⟨src, rfl, v, hv, rfl⟩

/-- The writes of a host's answer change registers only, and only ones its writes name (R383). -/
theorem hostWrites_frame {name : Token} {args : List Token} {ws : List (Token × Value)}
    {s t : State} (h : hostWrites name args ws s = .ok t) :
    t = { s with regs := t.regs } ∧
      (∀ p ∈ ws, p.1 ∈ args ∧ ∃ r : Reg, p.1 = r.name) ∧
      ∀ r : Reg, (∀ p ∈ ws, p.1 ≠ r.name) → t.reg r = s.reg r := by
  induction ws generalizing s with
  | nil =>
    cases h
    simp
  | cons p ws ih =>
    obtain ⟨tok, v⟩ := p
    simp only [hostWrites] at h
    split at h
    · rename_i q hq
      rw [lookupReg_eq_some] at hq
      subst hq
      split at h
      · rename_i hmem
        obtain ⟨hs, hall, hreg⟩ := ih h
        refine ⟨hs, ?_, fun r hr => ?_⟩
        · intro p hp
          rcases List.mem_cons.mp hp with rfl | hp
          · exact ⟨by simpa using hmem, q, rfl⟩
          · exact hall p hp
        · rw [hreg r (fun p hp => hr p (by simp [hp]))]
          exact State.reg_setReg_of_ne s (fun e => hr (q.name, v) (by simp) (by rw [e])) v
      · cases h
    · cases h

/-- The argument values of a host call are what the argument tokens denote, in order (R383). -/
theorem readAll_eq_ok {s : State} {args : List Token} {vals : List Value} :
    readAll s args = .ok vals ↔ List.Forall₂ (SrcIs s) args vals := by
  induction args generalizing vals with
  | nil => simp [readAll, eq_comm]
  | cons t ts ih =>
    simp only [readAll, bind_eq_ok, readSrc_eq_ok, ih, pure_eq_ok, Except.ok.injEq]
    constructor
    · rintro ⟨v, hv, vs, hvs, rfl⟩
      exact .cons hv hvs
    · rintro (_ | ⟨h1, h2⟩)
      exact ⟨_, h1, _, h2, rfl⟩

/-- What a host's answer does to the state: it fails, or it writes argument registers and, if it
says so, the output buffer (R383). -/
theorem applyAnswer_eq_ok {name : Token} {args : List Token} {a : HostAnswer} {s t : State}
    (h : applyAnswer name args a s = .ok t) : ∃ ws out u, a = .ok ws out ∧
      hostWrites name args ws s = .ok u ∧ t = { u with out := out.orElse (fun _ => u.out) } := by
  cases a with
  | fail => cases h
  | ok ws out =>
    simp only [applyAnswer, bind_eq_ok] at h
    obtain ⟨u, hu, h⟩ := h
    refine ⟨ws, out, u, rfl, hu, ?_⟩
    cases out <;> simpa using h.symm

/-- R385. -/
theorem includeEffect_eq_ok {ops : List Token} {s t : State} : includeEffect ops s = .ok t ↔
    s.cfg.includeMode = .nested ∧ ∃ path q, ops = [path] ∧ s.cfg.load path = some q ∧
      t = { s with incStack := ⟨s.prog, s.rip + 1⟩ :: s.incStack, prog := q, rip := 0 } := by
  unfold includeEffect
  split
  · rename_i hm
    simp [hm]
  · rename_i hm
    simp only [bind_eq_ok, oneOperand_eq_ok, hm, true_and]
    constructor
    · rintro ⟨path, rfl, h⟩
      split at h
      · cases h
      · rename_i q hq
        exact ⟨path, q, rfl, hq, by simpa using h.symm⟩
    · rintro ⟨path, q, rfl, hq, rfl⟩
      exact ⟨path, rfl, by simp [hq]⟩

/-- How CALL ends (R381 to R383): it raises before the host is asked, or prints, or the host is asked
and its answer fails or is applied. -/
theorem execCall_cases {f : Fields} {s t : State} (h : execCall f s = .next t) :
    (∃ e, t = s.raise f.raw e) ∨
    (∃ args u, f.ops = "print".toList :: args ∧ printEffect args s = .ok u ∧
      t = { u with rip := u.rip + 1, events := .notify :: u.events }) ∨
    ∃ name args vals, f.ops = name :: args ∧ name ∈ callTable ∧ name ≠ "print".toList ∧
      readAll s args = .ok vals ∧ s.cfg.callHandler = true ∧
      ((∃ e, applyAnswer name args (s.hostAnswer name args vals) s.answered = .error e ∧
          t = s.answered.raise f.raw e) ∨
        ∃ u, applyAnswer name args (s.hostAnswer name args vals) s.answered = .ok u ∧
          t = { u with rip := u.rip + 1, events := .notify :: u.events }) := by
  unfold execCall at h
  split at h
  · exact .inl ⟨_, by simpa using h.symm⟩
  · rename_i name args hops
    split at h
    · rename_i htab
      split at h
      · rename_i hp
        obtain rfl : name = "print".toList := by simpa using hp
        rcases finish_cases h with ⟨e, -, rfl⟩ | ⟨u, hu, rfl⟩
        · exact .inl ⟨e, rfl⟩
        · exact .inr (.inl ⟨args, u, hops, hu, rfl⟩)
      · rename_i hp
        unfold hostCall at h
        split at h
        · exact .inl ⟨_, by simpa using h.symm⟩
        · rename_i vals hv
          split at h
          · rename_i hc
            refine .inr (.inr ⟨name, args, vals, hops, by simpa using htab, by simpa using hp, hv,
              hc, ?_⟩)
            exact finish_cases h
          · exact .inl ⟨_, by simpa using h.symm⟩
    · exact .inl ⟨_, by simpa using h.symm⟩

end Sys2Proof.Machine
end

