-- ==== Sys2Proof/Laws/Integers.lean ====
section
/-! SUPPORT. The integer operations against Lean's: the bitwise operations, floor division, shifts, and
the decimal rendering against the value of digits. -/

namespace Sys2Proof.Machine

/-! Bitwise operations (R250). -/

theorem testBit_natAndNot (m n k : Nat) :
    (natAndNot m n).testBit k = (m.testBit k && !n.testBit k) := by
  simp only [natAndNot, Nat.testBit_xor, Nat.testBit_and]
  cases m.testBit k <;> cases n.testBit k <;> rfl

theorem natAndNot_eq_ldiff (m n : Nat) : natAndNot m n = Nat.ldiff m n :=
  Nat.eq_of_testBit_eq fun k => by rw [testBit_natAndNot, Nat.testBit_ldiff]

theorem bitAnd_eq_land (a b : Int) : bitAnd a b = Int.land a b := by
  cases a <;> cases b <;> simp [bitAnd, Int.land, natAndNot_eq_ldiff]

theorem bitOr_eq_lor (a b : Int) : bitOr a b = Int.lor a b := by
  cases a <;> cases b <;> simp [bitOr, Int.lor, natAndNot_eq_ldiff]

theorem bitXor_eq_xor (a b : Int) : bitXor a b = Int.xor a b := by
  cases a <;> cases b <;> simp [bitXor, Int.xor]

/-! Floor division and shifts (R206, R250). -/

theorem floorDiv_eq_floor (a b : Int) : floorDiv a b = ⌊(a : ℚ) / (b : ℚ)⌋ := by
  have nonneg : ∀ x y : Int, 0 ≤ y → Int.fdiv x y = ⌊(x : ℚ) / (y : ℚ)⌋ := by
    intro x y hy
    obtain ⟨k, rfl⟩ := Int.eq_ofNat_of_zero_le hy
    rw [Int.fdiv_eq_ediv_of_nonneg x hy]
    exact (Rat.floor_intCast_div_natCast x k).symm
  rcases le_or_gt 0 b with h | h
  · exact nonneg a b h
  · have := nonneg (-a) (-b) (by omega)
    rw [Int.neg_fdiv_neg] at this
    rw [floorDiv, this]
    push_cast
    rw [neg_div_neg_eq]

/-- Dividing by a positive power of two is Lean's integer division. -/
theorem floorDiv_two_pow (a : Int) (k : Nat) : floorDiv a (2 ^ k) = a / 2 ^ k :=
  Int.fdiv_eq_ediv_of_nonneg a (by positivity)

theorem shiftRight_eq (a s : Int) : shiftRight a s = a / 2 ^ s.toNat :=
  floorDiv_two_pow a s.toNat

/-! Decimal digits (R141, R382). -/

theorem immediateValue_append (t : Token) (c : Char) :
    immediateValue (t ++ [c]) = 10 * immediateValue t + (c.toNat - 48) := by
  simp [immediateValue]

theorem toNat_ofNat_digit {k : Nat} (h : k < 10) : (Char.ofNat (48 + k)).toNat = 48 + k := by
  interval_cases k <;> rfl

/-- Enough digits spell the number. -/
theorem immediateValue_decimalDigits {fuel n : Nat} (h : n < 10 ^ fuel) :
    immediateValue (decimalDigits fuel n) = n := by
  induction fuel generalizing n with
  | zero => simp at h; subst h; rfl
  | succ fuel ih =>
    unfold decimalDigits
    split
    · rename_i hn
      simp [immediateValue, toNat_ofNat_digit hn]
    · rw [immediateValue_append, ih (by rw [pow_succ] at h; omega),
        toNat_ofNat_digit (Nat.mod_lt n (by decide))]
      omega

theorem decimalDigits_ne_nil (fuel n : Nat) : decimalDigits (fuel + 1) n ≠ [] := by
  unfold decimalDigits
  split <;> simp

/-- The digits are ASCII digits. -/
theorem isDigit_decimalDigits (fuel n : Nat) :
    ∀ c ∈ decimalDigits fuel n, 48 ≤ c.toNat ∧ c.toNat ≤ 57 := by
  induction fuel generalizing n with
  | zero => simp [decimalDigits]
  | succ fuel ih =>
    unfold decimalDigits
    split
    · rename_i hn
      intro c hc
      rw [List.mem_singleton.mp hc, toNat_ofNat_digit hn]
      omega
    · intro c hc
      rcases List.mem_append.mp hc with hc | hc
      · exact ih _ c hc
      · rw [List.mem_singleton.mp hc, toNat_ofNat_digit (Nat.mod_lt n (by decide))]
        omega

/-- The first digit of a positive number is not zero. -/
theorem head_decimalDigits {fuel n : Nat} (h : n < 10 ^ fuel) (hn : n ≠ 0) :
    (decimalDigits fuel n).head? ≠ some '0' := by
  induction fuel generalizing n with
  | zero => simp [decimalDigits]
  | succ fuel ih =>
    unfold decimalDigits
    split
    · rename_i hlt
      simp only [List.head?_cons, ne_eq, Option.some.injEq]
      intro hc
      have h0 := toNat_ofNat_digit hlt
      rw [hc] at h0
      change 48 = 48 + n at h0
      omega
    · have hq : n / 10 < 10 ^ fuel := by rw [pow_succ] at h; omega
      have hz : n / 10 ≠ 0 := by omega
      cases fuel with
      | zero => simp at hq; omega
      | succ fuel =>
        rw [List.head?_append_of_ne_nil _ (decimalDigits_ne_nil fuel _)]
        exact ih hq hz

/-- `n` has fewer decimal digits than binary ones. -/
theorem lt_ten_pow_log2 (n : Nat) : n < 10 ^ (n.log2 + 1) :=
  lt_of_lt_of_le Nat.lt_log2_self (Nat.pow_le_pow_left (by decide) _)

/-- The rendering of a number is its canonical spelling. -/
theorem spellsNat_renderNat (n : Nat) : SpellsNat (renderNat n) n := by
  refine ⟨⟨decimalDigits_ne_nil _ _, isDigit_decimalDigits _ _⟩,
    immediateValue_decimalDigits (lt_ten_pow_log2 n), fun h => ?_⟩
  rcases Nat.eq_zero_or_pos n with rfl | hn
  · rfl
  · exact absurd h (head_decimalDigits (lt_ten_pow_log2 n) (by omega))

end Sys2Proof.Machine
end

