-- ==== Sys2Proof/Laws/PerInstr.lean ====
section
/-! SUPPORT. Statements made of every instruction, one lemma per constructor: looking up the opcode
that R135 gives the instruction finds the instruction. -/

namespace Sys2Proof.Laws.OpcodeLookup

/-- The opcode table holds the instruction under its own name, whatever line it is read from (R135,
R154); a skip line and an unknown opcode are no rows of it. -/
def Statement (i : Instr) : Prop :=
  i ≠ .skipLine → (∀ u, i ≠ .unknownOpcode u) →
    ∀ raw, ofOpcode i.opcodeName ⟨i.operands, raw⟩ = i.withRaw raw

theorem mov (f : Fields) : Statement (.mov f) := fun _ _ _ => rfl
theorem add (f : Fields) : Statement (.add f) := fun _ _ _ => rfl
theorem sub (f : Fields) : Statement (.sub f) := fun _ _ _ => rfl
theorem mul (f : Fields) : Statement (.mul f) := fun _ _ _ => rfl
theorem div (f : Fields) : Statement (.div f) := fun _ _ _ => rfl
theorem inc (f : Fields) : Statement (.inc f) := fun _ _ _ => rfl
theorem dec (f : Fields) : Statement (.dec f) := fun _ _ _ => rfl
theorem neg (f : Fields) : Statement (.neg f) := fun _ _ _ => rfl
theorem andOp (f : Fields) : Statement (.andOp f) := fun _ _ _ => rfl
theorem orOp (f : Fields) : Statement (.orOp f) := fun _ _ _ => rfl
theorem xorOp (f : Fields) : Statement (.xorOp f) := fun _ _ _ => rfl
theorem shl (f : Fields) : Statement (.shl f) := fun _ _ _ => rfl
theorem shr (f : Fields) : Statement (.shr f) := fun _ _ _ => rfl
theorem ror (f : Fields) : Statement (.ror f) := fun _ _ _ => rfl
theorem rol (f : Fields) : Statement (.rol f) := fun _ _ _ => rfl
theorem cmp (f : Fields) : Statement (.cmp f) := fun _ _ _ => rfl
theorem jmp (f : Fields) : Statement (.jmp f) := fun _ _ _ => rfl
theorem jeq (f : Fields) : Statement (.jeq f) := fun _ _ _ => rfl
theorem jne (f : Fields) : Statement (.jne f) := fun _ _ _ => rfl
theorem jg (f : Fields) : Statement (.jg f) := fun _ _ _ => rfl
theorem jl (f : Fields) : Statement (.jl f) := fun _ _ _ => rfl
theorem jge (f : Fields) : Statement (.jge f) := fun _ _ _ => rfl
theorem jle (f : Fields) : Statement (.jle f) := fun _ _ _ => rfl
theorem push (f : Fields) : Statement (.push f) := fun _ _ _ => rfl
theorem pop (f : Fields) : Statement (.pop f) := fun _ _ _ => rfl
theorem define (f : Fields) : Statement (.define f) := fun _ _ _ => rfl
theorem call (f : Fields) : Statement (.call f) := fun _ _ _ => rfl
theorem hlt (f : Fields) : Statement (.hlt f) := fun _ _ _ => rfl
theorem incl (f : Fields) : Statement (.incl f) := fun _ _ _ => rfl
theorem notOp (f : Fields) : Statement (.notOp f) := fun _ _ _ => rfl
theorem ret (f : Fields) : Statement (.ret f) := fun _ _ _ => rfl
theorem string (f : Fields) : Statement (.string f) := fun _ _ _ => rfl
theorem cov (f : Fields) : Statement (.cov f) := fun _ _ _ => rfl
theorem je (f : Fields) : Statement (.je f) := fun _ _ _ => rfl
theorem skipLine : Statement .skipLine := fun h => absurd rfl h
theorem unknownOpcode (u : UnknownFields) : Statement (.unknownOpcode u) := fun _ h => absurd rfl (h u)

end Sys2Proof.Laws.OpcodeLookup
end

