-- ==== Sys2Proof/Laws/Scheduler.lean ====
section
/-! SUPPORT. What one instruction, one fetch and one micro-step can do to the state as a whole. -/

namespace Sys2Proof.Machine

/-! One instruction. -/

/-- `t` differs from `s` at most in what instructions write, and `t`'s events are these. -/
def WritesOnly (s t : State) (events : List Event) : Prop :=
  t = { s with
    regs := t.regs, rip := t.rip, rflags := t.rflags, mem := t.mem, out := t.out, prog := t.prog
    incStack := t.incStack, events := events, hostAnswers := t.hostAnswers, draws := t.draws }

/-- What executing `i` on `s` can end in: the fault entry on `s`, or on `s` with a host's answer used
up, or a completed instruction. -/
def Ends (i : Instr) (s t : State) : Prop :=
  (∃ e, t = s.raise i.raw e) ∨ (∃ e, t = s.answered.raise i.raw e) ∨
    WritesOnly s t (if i = .skipLine then s.events else .notify :: s.events)

/-- An instruction that ends by `finish` and whose effect keeps what no instruction writes. -/
theorem ends_of_finish {i : Instr} {s t : State} {r : Except Err State} (hi : i ≠ .skipLine)
    (hr : ∀ u, r = .ok u → WritesOnly s u s.events) (h : finish s i.raw r = .next t) : Ends i s t := by
  rcases finish_cases h with ⟨e, -, rfl⟩ | ⟨u, hu, rfl⟩
  · exact .inl ⟨e, rfl⟩
  · refine .inr (.inr ?_)
    rw [if_neg hi]
    have := hr u hu
    unfold WritesOnly at this ⊢
    rw [this]

theorem writesOnly_setReg (s : State) (r : Reg) (v : Value) : WritesOnly s (s.setReg r v) s.events :=
  rfl

theorem writesOnly_movEffect {ops : List Token} {s u : State} (h : movEffect ops s = .ok u) :
    WritesOnly s u s.events := by
  obtain ⟨_, r, v, -, -, -, rfl⟩ := movEffect_eq_ok.mp h
  rfl

theorem writesOnly_alu2 {op : Token} {f : Int → Int → Except Err Int} {ops : List Token} {s u : State}
    (h : alu2 op f ops s = .ok u) : WritesOnly s u s.events := by
  obtain ⟨_, _, _, _, _, -, -, -, -, -, rfl⟩ := alu2_eq_ok.mp h
  rfl

theorem writesOnly_alu1 {op : Token} {f : Int → Int} {ops : List Token} {s u : State}
    (h : alu1 op f ops s = .ok u) : WritesOnly s u s.events := by
  obtain ⟨_, _, -, -, -, rfl⟩ := alu1_eq_ok.mp h
  rfl

theorem writesOnly_cmpEffect {ops : List Token} {s u : State} (h : cmpEffect ops s = .ok u) :
    WritesOnly s u s.events := by
  obtain ⟨_, _, _, _, -, -, -, rfl⟩ := cmpEffect_eq_ok.mp h
  rfl

theorem writesOnly_jump {op : Token} {taken : BitVec 1 → Bool} {clears : Bool} {ops : List Token} {s u : State}
    (h : jump op taken clears ops s = .ok u) : WritesOnly s u s.events := by
  obtain ⟨_, _, -, -, rfl⟩ := jump_eq_ok.mp h
  rfl

theorem writesOnly_pushEffect {ops : List Token} {s u : State} (h : pushEffect ops s = .ok u) :
    WritesOnly s u s.events := by
  obtain ⟨_, _, _, _, -, -, -, -, -, rfl⟩ := pushEffect_eq_ok.mp h
  rfl

theorem writesOnly_popEffect {ops : List Token} {s u : State} (h : popEffect ops s = .ok u) :
    WritesOnly s u s.events := by
  obtain ⟨r, -, ⟨-, h⟩ | ⟨-, h⟩⟩ := popEffect_eq_ok.mp h
  · obtain ⟨_, _, _, -, -, -, -, -, rfl⟩ := popReadThenIncrement_eq_ok.mp h
    rfl
  · obtain ⟨_, _, -, -, -, -, rfl⟩ := popIncrementThenRead_eq_ok.mp h
    rfl

theorem writesOnly_defineEffect {ops : List Token} {s u : State} (h : defineEffect ops s = .ok u) :
    WritesOnly s u s.events := by
  obtain ⟨_, _, _, -, -, -, rfl⟩ := defineEffect_eq_ok.mp h
  rfl

theorem writesOnly_applyAnswer {name : Token} {args : List Token} {a : HostAnswer} {s u : State}
    (h : applyAnswer name args a s.answered = .ok u) : WritesOnly s u s.events := by
  obtain ⟨ws, out, x, -, hx, rfl⟩ := applyAnswer_eq_ok h
  have := (hostWrites_frame hx).1
  unfold WritesOnly
  rw [this]
  rfl

/-- How every instruction ends. -/
theorem exec_ends {i : Instr} {s t : State} (h : exec i s = .next t) : Ends i s t := by
  cases i with
  | mov f => exact ends_of_finish (by simp) (fun u => writesOnly_movEffect) h
  | add f => exact ends_of_finish (by simp) (fun u => writesOnly_alu2) h
  | sub f => exact ends_of_finish (by simp) (fun u => writesOnly_alu2) h
  | mul f => exact ends_of_finish (by simp) (fun u => writesOnly_alu2) h
  | div f => exact ends_of_finish (by simp) (fun u => writesOnly_alu2) h
  | inc f => exact ends_of_finish (by simp) (fun u => writesOnly_alu1) h
  | dec f => exact ends_of_finish (by simp) (fun u => writesOnly_alu1) h
  | neg f => exact ends_of_finish (by simp) (fun u => writesOnly_alu1) h
  | andOp f => exact ends_of_finish (by simp) (fun u => writesOnly_alu2) h
  | orOp f => exact ends_of_finish (by simp) (fun u => writesOnly_alu2) h
  | xorOp f => exact ends_of_finish (by simp) (fun u => writesOnly_alu2) h
  | shl f => exact ends_of_finish (by simp) (fun u => writesOnly_alu2) h
  | shr f => exact ends_of_finish (by simp) (fun u => writesOnly_alu2) h
  | ror f => exact ends_of_finish (by simp) (fun u => writesOnly_alu2) h
  | rol f => exact ends_of_finish (by simp) (fun u => writesOnly_alu2) h
  | cmp f => exact ends_of_finish (by simp) (fun u => writesOnly_cmpEffect) h
  | jmp f => exact ends_of_finish (by simp) (fun u => writesOnly_jump) h
  | jeq f => exact ends_of_finish (by simp) (fun u => writesOnly_jump) h
  | jne f => exact ends_of_finish (by simp) (fun u => writesOnly_jump) h
  | jg f => exact ends_of_finish (by simp) (fun u => writesOnly_jump) h
  | jl f => exact ends_of_finish (by simp) (fun u => writesOnly_jump) h
  | jge f => exact ends_of_finish (by simp) (fun u => writesOnly_jump) h
  | jle f => exact ends_of_finish (by simp) (fun u => writesOnly_jump) h
  | push f => exact ends_of_finish (by simp) (fun u => writesOnly_pushEffect) h
  | pop f => exact ends_of_finish (by simp) (fun u => writesOnly_popEffect) h
  | define f => exact ends_of_finish (by simp) (fun u => writesOnly_defineEffect) h
  | call f =>
    rcases execCall_cases h with ⟨e, rfl⟩ | ⟨args, u, -, hu, rfl⟩ |
      ⟨name, args, vals, -, -, -, -, -, ⟨e, -, rfl⟩ | ⟨u, hu, rfl⟩⟩
    · exact .inl ⟨e, rfl⟩
    · obtain ⟨_, _, -, -, rfl⟩ := printEffect_eq_ok.mp hu
      exact .inr (.inr (by rw [if_neg (by simp)]; rfl))
    · exact .inr (.inl ⟨e, rfl⟩)
    · refine .inr (.inr ?_)
      rw [if_neg (by simp)]
      have := writesOnly_applyAnswer hu
      unfold WritesOnly at this ⊢
      rw [this]
  | hlt f =>
    refine ends_of_finish (by simp) (fun u hu => ?_) h
    rcases f with ⟨_ | ⟨a, as⟩, raw⟩ <;> cases hu
    rfl
  | incl f =>
    rcases finishInPlace_cases h with ⟨e, -, rfl⟩ | ⟨u, hu, rfl⟩
    · exact .inl ⟨e, rfl⟩
    · obtain ⟨-, _, _, -, -, rfl⟩ := includeEffect_eq_ok.mp hu
      exact .inr (.inr (by rw [if_neg (by simp)]; rfl))
  | notOp f => exact .inl ⟨_, (Host.Outcome.next.inj h).symm⟩
  | ret f => exact .inl ⟨_, (Host.Outcome.next.inj h).symm⟩
  | string f => exact .inl ⟨_, (Host.Outcome.next.inj h).symm⟩
  | cov f => exact .inl ⟨_, (Host.Outcome.next.inj h).symm⟩
  | je f => exact .inl ⟨_, (Host.Outcome.next.inj h).symm⟩
  | skipLine => exact .inr (.inr ((Host.Outcome.next.inj h) ▸ by rw [if_pos rfl]; rfl))
  | unknownOpcode u => exact .inl ⟨_, (Host.Outcome.next.inj h).symm⟩

theorem finish_next (s : State) (raw : Line) (r : Except Err State) :
    ∃ t, finish s raw r = .next t := by
  cases r <;> exact ⟨_, rfl⟩

/-- Every instruction answers a next state. -/
theorem exec_next (i : Instr) (s : State) : ∃ t, exec i s = .next t := by
  cases i with
  | call f =>
    show ∃ t, execCall _ s = .next t
    unfold execCall
    split
    · exact ⟨_, rfl⟩
    · split
      · split
        · exact finish_next s _ _
        · unfold hostCall
          split
          · exact ⟨_, rfl⟩
          · split
            · exact finish_next _ _ _
            · exact ⟨_, rfl⟩
      · exact ⟨_, rfl⟩
  | incl f =>
    show ∃ t, finishInPlace s _ _ = .next t
    cases includeEffect f.ops s <;> exact ⟨_, rfl⟩
  | notOp | ret | string | cov | je | skipLine | unknownOpcode => exact ⟨_, rfl⟩
  | _ => exact finish_next s _ _

/-! The end test and the fetch. -/

/-- The end test changes nothing but `sched`, and that only to Halted, at the end of a live run. -/
theorem endTest_cases (s : State) :
    endTest s = s ∨ (s.atEnd = true ∧ (s.sched = .running ∨ s.sched = .paused) ∧
      endTest s = { s with sched := .halted }) := by
  unfold endTest
  split
  · rename_i h
    exact .inr ⟨h.2, h.1, rfl⟩
  · exact .inl rfl

/-- After the end test a live machine is not at the end. -/
theorem atEnd_endTest {s : State} (h : (endTest s).sched = .running ∨ (endTest s).sched = .paused) :
    (endTest s).atEnd = false := by
  unfold endTest at h ⊢
  split
  · rename_i hc
    rw [if_pos hc] at h
    simp at h
  · rename_i hc
    rw [if_neg hc] at h
    simpa using fun ha => hc ⟨h, ha⟩

/-- What a fetch finds (R432). -/
theorem fetch_eq_line {s : State} {l : Line} :
    fetch s = .line l ↔ 0 ≤ s.rip ∧ s.prog[s.rip.toNat]? = some l := by
  unfold fetch
  split
  · rename_i h
    simp only [reduceCtorEq, false_iff, not_and]
    omega
  · rename_i h
    split <;> simp_all

theorem fetch_eq_negative {s : State} : fetch s = .negative ↔ s.rip < 0 := by
  unfold fetch
  split
  · simp_all
  · split <;> simp_all

theorem fetch_eq_leave {s : State} {f : Frame} {rest : List Frame} : fetch s = .leave f rest ↔
    (s.prog.length : Int) ≤ s.rip ∧ s.incStack = f :: rest := by
  unfold fetch
  split
  · simp only [reduceCtorEq, false_iff, not_and]
    omega
  · rename_i h
    split
    · rename_i hl
      have := (List.getElem?_eq_some_iff.mp hl).1
      simp only [reduceCtorEq, false_iff, not_and]
      omega
    · rename_i f' rest' hl hi
      have := List.getElem?_eq_none_iff.mp hl
      simp only [Fetched.leave.injEq, hi, List.cons.injEq]
      constructor
      · rintro ⟨rfl, rfl⟩
        exact ⟨by omega, rfl, rfl⟩
      · exact fun h => h.2
    · rename_i hl hi
      simp [hi]

theorem fetch_eq_ended {s : State} : fetch s = .ended ↔
    (s.prog.length : Int) ≤ s.rip ∧ s.incStack = [] := by
  unfold fetch
  split
  · simp only [reduceCtorEq, false_iff, not_and]
    omega
  · rename_i h
    split
    · rename_i hl
      have := (List.getElem?_eq_some_iff.mp hl).1
      simp only [reduceCtorEq, false_iff, not_and]
      omega
    · rename_i f' rest' hl hi
      simp [hi]
    · rename_i hl hi
      have := List.getElem?_eq_none_iff.mp hl
      simp only [hi, and_true, true_iff]
      omega

/-! One micro-step. -/

/-- What a micro-step can do (R433). -/
theorem microStep_cases (s : State) :
    (s.rip < 0 ∧ microStep s = .next (.raised, s.raise [] (.valueOutOfRange s.rip))) ∨
    (∃ f rest, (s.prog.length : Int) ≤ s.rip ∧ s.incStack = f :: rest ∧ microStep s =
      .next (.includeReturn, endTest { s with prog := f.prog, rip := f.resume, incStack := rest })) ∨
    ((s.prog.length : Int) ≤ s.rip ∧ s.incStack = [] ∧ microStep s = .next (.nothing, endTest s)) ∨
    ∃ l t, 0 ≤ s.rip ∧ s.prog[s.rip.toNat]? = some l ∧ exec (decode l) s = .next t ∧
      microStep s = .next (consumedBy (decode l) t, endTest t) := by
  unfold microStep
  split
  · rename_i h
    exact .inl ⟨fetch_eq_negative.mp h, rfl⟩
  · rename_i f rest h
    exact .inr (.inl ⟨f, rest, (fetch_eq_leave.mp h).1, (fetch_eq_leave.mp h).2, rfl⟩)
  · rename_i h
    exact .inr (.inr (.inl ⟨(fetch_eq_ended.mp h).1, (fetch_eq_ended.mp h).2, rfl⟩))
  · rename_i l h
    obtain ⟨t, ht⟩ := exec_next (decode l) s
    exact .inr (.inr (.inr ⟨l, t, (fetch_eq_line.mp h).1, (fetch_eq_line.mp h).2, ht,
      by simp [runLine, ht, andThen]⟩))

/-- Every micro-step answers a next state. -/
theorem microStep_next (s : State) : ∃ p, microStep s = .next p := by
  rcases microStep_cases s with ⟨-, h⟩ | ⟨_, _, -, -, h⟩ | ⟨-, -, h⟩ | ⟨_, _, -, -, -, h⟩ <;>
    exact ⟨_, h⟩

theorem debugPause_cases (c : Consumed) (t : State) : debugPause c t = t ∨
    (c = .executed ∧ t.debug = true ∧ t.sched = .running ∧
      debugPause c t = { t with sched := .paused }) := by
  unfold debugPause
  split
  · rename_i h
    exact .inr ⟨h.1, h.2.1, h.2.2, rfl⟩
  · exact .inl rfl

/-- A turn of the core is a micro-step while Running, and else nothing (R435). -/
theorem coreTurn_of_running {s : State} (h : s.sched = .running) :
    ∃ p, microStep s = .next p ∧ coreTurn s = .next (debugPause p.1 p.2) := by
  obtain ⟨p, hp⟩ := microStep_next s
  exact ⟨p, hp, by simp [coreTurn, h, hp, andThen]⟩

theorem coreTurn_of_not_running {s : State} (h : s.sched ≠ .running) : coreTurn s = .next s := by
  simp [coreTurn, h]

end Sys2Proof.Machine
end

