-- ==== Sys2Proof/Laws/Step.lean ====
section
/-! SUPPORT. What one turn is, what each part of the scheduler can do to `sched`, and that the bound of
the loop of `step()` shrinks with every line it consumes. -/

namespace Sys2Proof.Machine

/-! One turn. -/

theorem step_of_no_turns {s : State} (h : s.turns = []) : step s = coreTurn s := by
  unfold step takeTurn
  rw [h]

theorem step_of_core {s : State} {rest : List Turn} (h : s.turns = .core :: rest) :
    step s = coreTurn { s with turns := rest } := by
  unfold step takeTurn
  rw [h]

theorem step_of_host {s : State} {c : Command} {rest : List Turn} (h : s.turns = .host c :: rest) :
    step s = command c { s with turns := rest } := by
  unfold step takeTurn
  rw [h]

/-- A step on the core's turn, listed or not. -/
theorem step_of_coreTurn {s u : State} (h : CoreTurn s u) : step s = coreTurn u := by
  rcases h with ⟨h, rfl⟩ | ⟨rest, h, rfl⟩
  · exact step_of_no_turns h
  · exact step_of_core h

theorem atEnd_iff {s : State} : s.atEnd = true ↔ PastTheEnd s := by
  simp [State.atEnd, PastTheEnd]

/-- A turn of the running core on a line of the program. -/
theorem coreTurn_of_line {s t : State} {l : Line} (hs : s.sched = .running) (h0 : 0 ≤ s.rip)
    (hl : s.prog[s.rip.toNat]? = some l) (he : exec (decode l) s = .next t) :
    coreTurn s = .next (debugPause (consumedBy (decode l) t) (endTest t)) := by
  have : fetch s = .line l := fetch_eq_line.mpr ⟨h0, hl⟩
  simp [coreTurn, hs, microStep, this, runLine, he, andThen]

/-! What becomes of `sched`. -/

theorem exec_sched {i : Instr} {s t : State} (h : exec i s = .next t) :
    t.sched = s.sched ∨ t.sched = .faulted := by
  rcases exec_ends h with ⟨e, rfl⟩ | ⟨e, rfl⟩ | h
  · exact .inr rfl
  · exact .inr rfl
  · left
    rw [h]

theorem endTest_sched (s : State) : (endTest s).sched = s.sched ∨
    ((endTest s).sched = .halted ∧ (endTest s).atEnd = true ∧
      (s.sched = .running ∨ s.sched = .paused)) := by
  rcases endTest_cases s with h | ⟨h1, h2, h⟩
  · left
    rw [h]
  · right
    rw [h]
    exact ⟨rfl, h1, h2⟩

theorem microStep_sched {s : State} {p : Consumed × State} (h : microStep s = .next p) :
    p.2.sched = s.sched ∨ (p.2.sched = .halted ∧ p.2.atEnd = true) ∨ p.2.sched = .faulted := by
  rcases microStep_cases s with ⟨-, h'⟩ | ⟨f, rest, -, -, h'⟩ | ⟨-, -, h'⟩ | ⟨l, t, -, -, he, h'⟩ <;>
    rw [h'] at h <;> cases h
  · exact .inr (.inr rfl)
  · rcases endTest_sched { s with prog := f.prog, rip := f.resume, incStack := rest } with
      h | ⟨h1, h2, -⟩
    · exact .inl h
    · exact .inr (.inl ⟨h1, h2⟩)
  · rcases endTest_sched s with h | ⟨h1, h2, -⟩
    · exact .inl h
    · exact .inr (.inl ⟨h1, h2⟩)
  · rcases endTest_sched t with h | ⟨h1, h2, -⟩
    · rcases exec_sched he with h' | h'
      · exact .inl (h.trans h')
      · exact .inr (.inr (h.trans h'))
    · exact .inr (.inl ⟨h1, h2⟩)

/-- A micro-step that leaves the machine able to run leaves it before the end of its program. -/
theorem microStep_not_atEnd {s : State} {p : Consumed × State} (h : microStep s = .next p)
    (hr : p.2.sched = .running ∨ p.2.sched = .paused) : p.2.atEnd = false := by
  rcases microStep_cases s with ⟨-, h'⟩ | ⟨f, rest, -, -, h'⟩ | ⟨-, -, h'⟩ | ⟨l, t, -, -, he, h'⟩ <;>
    rw [h'] at h <;> cases h
  · simp at hr
  all_goals exact atEnd_endTest hr

theorem startRun_sched (P : Program) (s : State) :
    (startRun P s).sched = if P = [] then .halted else .running := by
  unfold startRun endTest State.atEnd
  cases P with
  | nil => simp
  | cons a as =>
    have : ¬ (((a :: as).length : Int) ≤ 0) := by simp
    simp only [this]
    simp

/-! The bound of the loop of `step()`. -/

/-- A line consumed without an instruction leaves one line less. -/
theorem linesLeft_advance {s : State} {l : Line} (h0 : 0 ≤ s.rip)
    (hl : s.prog[s.rip.toNat]? = some l) : s.advance.linesLeft < s.linesLeft := by
  have := (List.getElem?_eq_some_iff.mp hl).1
  simp only [State.linesLeft, State.advance]
  omega

/-- An include return leaves one line less. -/
theorem linesLeft_leave {s : State} {f : Frame} {rest : List Frame}
    (h : s.incStack = f :: rest) :
    State.linesLeft { s with prog := f.prog, rip := f.resume, incStack := rest } < s.linesLeft := by
  simp only [State.linesLeft, h, List.map_cons, List.sum_cons]
  omega

/-- A micro-step of a paused machine that neither executes nor raises nor reaches the end leaves it
paused, with one line less. -/
theorem linesLeft_of_goes_on {s : State} {p : Consumed × State} (hs : s.sched = .paused)
    (h : microStep s = .next p) (hp : ¬ (p.1 = .executed ∨ p.1 = .raised ∨ p.2.sched = .halted)) :
    p.2.sched = .paused ∧ p.2.linesLeft < s.linesLeft := by
  simp only [not_or] at hp
  have stay : ∀ u : State, p.2 = endTest u → u.sched = .paused → p.2 = u := by
    intro u hu hus
    rcases endTest_cases u with h' | ⟨-, -, h'⟩
    · exact hu.trans h'
    · rw [hu, h'] at hp
      exact absurd rfl hp.2.2
  rcases microStep_cases s with ⟨-, h'⟩ | ⟨f, rest, -, hi, h'⟩ | ⟨hl, hi, h'⟩ | ⟨l, t, h0, hl, he, h'⟩ <;>
    rw [h'] at h <;> cases h
  · exact absurd rfl hp.2.1
  · rw [stay _ rfl hs]
    exact ⟨hs, linesLeft_leave hi⟩
  · refine absurd ?_ hp.2.2
    simp [endTest, State.atEnd, hs, hl, hi]
  · by_cases hf : t.sched = .faulted
    · simp [consumedBy, hf] at hp
    · by_cases hk : decode l = .skipLine
      · rw [hk] at he
        cases he
        rw [stay s.advance rfl hs]
        exact ⟨hs, linesLeft_advance h0 hl⟩
      · simp [consumedBy, hf, hk] at hp

/-- The loop of `step()` does not depend on its bound, where the bound is beyond the lines left. -/
theorem stepLoop_bound {k m : Nat} {s : State} (hs : s.sched = .paused) (hk : s.linesLeft < k)
    (hm : s.linesLeft < m) : stepLoop k s = stepLoop m s := by
  induction k generalizing m s with
  | zero => omega
  | succ k ih =>
    obtain ⟨m, rfl⟩ := Nat.exists_eq_succ_of_ne_zero (by omega : m ≠ 0)
    obtain ⟨p, hp⟩ := microStep_next s
    simp only [stepLoop, hp, andThen]
    split
    · rfl
    · rename_i hgo
      obtain ⟨h1, h2⟩ := linesLeft_of_goes_on hs hp hgo
      exact ih h1 (by omega) (by omega)

end Sys2Proof.Machine
end

