-- ==== Sys2Proof/Tests/Slice0.lean ====
section
/-! SUPPORT. The model's own tests. Expected results come from spec/95_test_vectors.md or the corner
cases of the rule named; the witnesses at the end show that the hypotheses of the statements can all
be met. -/

namespace Sys2Proof.Tests

open Sys2Proof.Machine

/-! Helpers. -/

/-- Tokens written as strings. -/
def toks (ts : List String) : List Token := ts.map String.toList

/-- The line decodes to this instruction, with these operand tokens and its own text (R154). -/
abbrev Reads (l : String) (mk : Fields → Instr) (ops : List String) : Prop :=
  decode l.toList = mk ⟨toks ops, l.toList⟩

/-- The machine after `run` of these lines from power-on. -/
def boot (lines : List String) : State := startRun (toks lines) State.reset

/-- One instruction on a state. -/
def one (line : String) (s : State) : Host.Outcome State Fault Refusal := exec (decode line.toList) s

/-- What a next state shows; nothing else has one. -/
def seen {α : Type} (o : Host.Outcome State Fault Refusal) (f : State → α) : Option α :=
  match o with
  | .next t => some (f t)
  | .fault _ => none
  | .refused _ => none

/-- The fault code of a state, the index recorded, and RIP. -/
def broke (t : State) : Option (Nat × Int) × Int :=
  (t.fault.map (fun f => (f.code, f.index)), t.rip)

/-- A running machine whose R0 and R1 hold these values. -/
def with01 (v w : Value) : State := ((boot ["MOV R0 0", "HLT"]).setReg .r0 v).setReg .r1 w

/-- A running machine at line 4 of ten, with this flag. -/
def at4 (f : BitVec 1) : State :=
  { boot ["", "", "", "", "", "", "", "", "", ""] with rip := 4, rflags := f }

/-- The parameters with these changes from their defaults. -/
def narrow : Config := { Config.default with valueBits := some 8 }
def strict : Config := { Config.default with stackIndexMode := .strict }
def popSecond : Config := { Config.default with popOrder := .incrementThenRead }
def refusing : Config := { Config.default with includeMode := .refuse }
def hosted : Config := { Config.default with callHandler := true }
def loading : Config :=
  { Config.default with loader := [("lib".toList, some (toks ["INC R0"])), ("no".toList, none)] }

/-! WellFormed refuses an ill-formed term at each of its checks. -/

theorem test_illformed_empty_token :
    (Instr.mov ⟨[[], "5".toList], "MOV 5".toList⟩).tokensWellFormed = false := by decide
theorem test_illformed_blank_in_token :
    (Instr.mov ⟨toks ["R0 5"], "MOV R0 5".toList⟩).tokensWellFormed = false := by decide
theorem test_illformed_empty_opcode :
    (Instr.unknownOpcode ⟨[], []⟩).tokensWellFormed = false := by decide
theorem test_illformed_blank_in_opcode :
    (Instr.unknownOpcode ⟨"FO O".toList, "FO O".toList⟩).tokensWellFormed = false := by decide
theorem test_illformed_comment_opcode :
    (Instr.unknownOpcode ⟨";X".toList, ";X".toList⟩).tokensWellFormed = false := by decide
theorem test_illformed_lower_opcode :
    (Instr.unknownOpcode ⟨"foo".toList, "foo".toList⟩).tokensWellFormed = false := by decide
theorem test_illformed_known_opcode :
    (Instr.unknownOpcode ⟨"MOV".toList, "MOV".toList⟩).tokensWellFormed = false := by decide
/-- A text with other operand tokens, of another opcode, of a comment, and of no token at all. -/
theorem test_illformed_raw : ∀ raw ∈ toks ["MOV R0 6", "MOVE R0 5", ";MOV R0 5", ""],
    (Instr.mov ⟨toks ["R0", "5"], raw⟩).wellFormed = false := by decide
theorem test_illformed_unknown_raw : ∀ raw ∈ toks ["FO O", "MOV", ";FOO", ""],
    (Instr.unknownOpcode ⟨"FOO".toList, raw⟩).wellFormed = false := by decide
theorem test_wellformed_raw :
    (Instr.mov ⟨toks ["R0", "5"], "  mOv\tR0  5 ".toList⟩).wellFormed = true ∧
    (Instr.unknownOpcode ⟨"FOO".toList, " foo x".toList⟩).wellFormed = true := by decide

/-! Decoding, one line per constructor, from the opcode table R135 and the vectors of file 95. -/

theorem test_decode_mov : Reads "\tMOV R0 1" .mov ["R0", "1"] := by decide
theorem test_decode_add : Reads "ADD R0 R1" .add ["R0", "R1"] := by decide
theorem test_decode_sub : Reads "SUB R0 5" .sub ["R0", "5"] := by decide
theorem test_decode_mul : Reads "MUL R0 4" .mul ["R0", "4"] := by decide
theorem test_decode_div : Reads "DIV R0 R1" .div ["R0", "R1"] := by decide
theorem test_decode_inc : Reads "INC RCX" .inc ["RCX"] := by decide
theorem test_decode_dec : Reads "DEC R1" .dec ["R1"] := by decide
theorem test_decode_neg : Reads "NEG R2" .neg ["R2"] := by decide
theorem test_decode_and : Reads "AND R0 10" .andOp ["R0", "10"] := by decide
theorem test_decode_or : Reads "OR R0 3" .orOp ["R0", "3"] := by decide
theorem test_decode_xor : Reads "XOR R0 R0" .xorOp ["R0", "R0"] := by decide
theorem test_decode_shl : Reads "SHL R0 64" .shl ["R0", "64"] := by decide
theorem test_decode_shr : Reads "SHR R0 R1" .shr ["R0", "R1"] := by decide
theorem test_decode_ror : Reads "ROR R0 33" .ror ["R0", "33"] := by decide
theorem test_decode_rol : Reads "ROL R0 32" .rol ["R0", "32"] := by decide
theorem test_decode_cmp : Reads "CMP 0 00" .cmp ["0", "00"] := by decide
theorem test_decode_jmp : Reads "JMP R3" .jmp ["R3"] := by decide
theorem test_decode_jeq : Reads "JEQ FOO" .jeq ["FOO"] := by decide
theorem test_decode_jne : Reads "JNE 9" .jne ["9"] := by decide
theorem test_decode_jg : Reads "JG 9" .jg ["9"] := by decide
theorem test_decode_jl : Reads "JL 9" .jl ["9"] := by decide
theorem test_decode_jge : Reads "JGE 9" .jge ["9"] := by decide
theorem test_decode_jle : Reads "JLE 9" .jle ["9"] := by decide
theorem test_decode_push : Reads "PUSH RSP" .push ["RSP"] := by decide
theorem test_decode_pop : Reads "POP RSP" .pop ["RSP"] := by decide
theorem test_decode_define : Reads "DEFINE R0 3 \"a  b\"" .define ["R0", "3", "\"a", "b\""] := by decide
theorem test_decode_call : Reads "CALL PRINT R0" .call ["PRINT", "R0"] := by decide
theorem test_decode_hlt : Reads "HLT 1" .hlt ["1"] := by decide
theorem test_decode_include : Reads "INCLUDE lib" .incl ["lib"] := by decide
theorem test_decode_not : Reads "not R0" .notOp ["R0"] := by decide
theorem test_decode_ret : Reads "RET" .ret [] := by decide
theorem test_decode_string : Reads "STRING x" .string ["x"] := by decide
theorem test_decode_cov : Reads "COV" .cov [] := by decide
theorem test_decode_je : Reads "Je 3" .je ["3"] := by decide
theorem test_decode_skip : decode "   ;x".toList = .skipLine := by decide
theorem test_decode_unknown : decode "FOO".toList =
    .unknownOpcode ⟨"FOO".toList, "FOO".toList⟩ := by decide
theorem test_decode_no_comment_at_end : Reads "MOV R0 5 ; c" .mov ["R0", "5", ";", "c"] := by decide
/-- R131: every one of the five whitespace characters cuts; a no-break space does not. -/
theorem test_decode_whitespace :
    (∀ l ∈ ["mOv".toList ++ [Char.ofNat 11] ++ "R0".toList ++ [Char.ofNat 12] ++ "5\r".toList],
      decode l = .mov ⟨toks ["R0", "5"], l⟩) ∧
    ∀ l ∈ ["MOV".toList ++ [Char.ofNat 160]], decode l = .unknownOpcode ⟨l, l⟩ := by decide
/-- R154: the text is the whole line, blanks and letter case as they are written. -/
theorem test_decode_keeps_the_text :
    (decode " \tadd  R0 R1 ".toList).raw = " \tadd  R0 R1 ".toList ∧
    (decode "foo  x".toList).raw = "foo  x".toList := by decide

/-- "HLT" as bytes, the first character the least significant. -/
theorem test_decode_table_word :
    decodeTableWord 24 (72 + 256 * 76 + 65536 * 84) =
      some (.hlt ⟨[], "HLT".toList⟩) := by decide
theorem test_step_runs_fetch_word :
    seen (step (State.reset.withFetchWord 24 (72 + 256 * 76 + 65536 * 84)))
      (fun t => (t.sched, t.rip, t.events.head?)) = some (.halted, 1, some .notify) := by decide

/-! Move and arithmetic (file 95, part 2, family 41). -/

theorem test_mov_leading_zeros :
    seen (one "MOV R0 007" (boot [])) (fun t => (t.reg .r0, t.rip)) = some (.int 7, 1) := by decide
theorem test_mov_copies_text : seen (one "MOV R1 R0" (with01 (.text "hi".toList) (.int 0)))
    (fun t => t.reg .r1) = some (.text "hi".toList) := by decide
theorem test_add_no_wrap : seen (one "ADD R0 R0" (with01 (.int 9223372036854775807) (.int 0)))
    (fun t => t.reg .r0) = some (.int 18446744073709551614) := by decide
theorem test_add_text_source : seen (one "ADD R0 R1" (with01 (.int 1) (.text "a".toList)))
    broke = some (some (4, 0), 0) := by decide
theorem test_sub_order : seen (one "SUB R0 5" (with01 (.int 3) (.int 0)))
    (fun t => t.reg .r0) = some (.int (-2)) := by decide
theorem test_mul_sign : seen (one "MUL R0 4" (with01 (.int (-3)) (.int 0)))
    (fun t => t.reg .r0) = some (.int (-12)) := by decide
theorem test_div_floor : seen (one "DIV R0 R1" (with01 (.int 7) (.int (-2))))
    (fun t => t.reg .r0) = some (.int (-4)) := by decide
theorem test_div_by_zero : seen (one "DIV R0 0" (with01 (.int 6) (.int 0)))
    (fun t => (broke t, t.reg .r0)) = some ((some (5, 0), 0), .int 6) := by decide
theorem test_inc_from_minus_one : seen (one "INC R0" (with01 (.int (-1)) (.int 0)))
    (fun t => t.reg .r0) = some (.int 0) := by decide
/-- `VALUE_BITS = 8`: `INC` of 127 raises ValueOutOfRange. -/
theorem test_inc_width :
    seen (one "INC R0" { with01 (.int 127) (.int 0) with cfg := narrow, rip := 1 })
      (fun t => (broke t, t.reg .r0)) = some ((some (10, 1), 1), .int 127) := by decide
theorem test_dec_below_zero : seen (one "DEC R1" (boot []))
    (fun t => t.reg .r1) = some (.int (-1)) := by decide
theorem test_neg : seen (one "NEG R0" (with01 (.int 5) (.int 0)))
    (fun t => t.reg .r0) = some (.int (-5)) := by decide

/-! Bitwise (file 95, part 2, family 42). -/

theorem test_and_negative : seen (one "AND R0 3" (with01 (.int (-6)) (.int 0)))
    (fun t => t.reg .r0) = some (.int 2) := by decide
theorem test_or_negative : seen (one "OR R0 3" (with01 (.int (-8)) (.int 0)))
    (fun t => t.reg .r0) = some (.int (-5)) := by decide
theorem test_xor_negative : seen (one "XOR R0 5" (with01 (.int (-1)) (.int 0)))
    (fun t => t.reg .r0) = some (.int (-6)) := by decide
theorem test_shl_keeps_bits : seen (one "SHL R0 64" (with01 (.int 1) (.int 0)))
    (fun t => t.reg .r0) = some (.int 18446744073709551616) := by decide
theorem test_shr_floor : seen (one "SHR R0 1" (with01 (.int (-7)) (.int 0)))
    (fun t => t.reg .r0) = some (.int (-4)) := by decide
theorem test_shr_negative_count : seen (one "SHR R0 R1" (with01 (.int 8) (.int (-1))))
    broke = some (some (10, 0), 0) := by decide
theorem test_ror_unmasked : seen (one "ROR R0 1" (with01 (.int 2147483648) (.int 0)))
    (fun t => t.reg .r0) = some (.int 4611686019501129728) := by decide
theorem test_ror_count_33 : seen (one "ROR R0 33" (with01 (.int 1) (.int 0)))
    broke = some (some (10, 0), 0) := by decide
theorem test_rol_count_32 : seen (one "ROL R0 32" (with01 (.int 1) (.int 0)))
    (fun t => t.reg .r0) = some (.int 4294967297) := by decide
theorem test_rol_unmasked : seen (one "ROL R0 4" (with01 (.int 2147483648) (.int 0)))
    (fun t => t.reg .r0) = some (.int 34359738376) := by decide

/-! Compare and control transfer (file 95, part 2, family 43). -/

theorem test_cmp_zero_zerozero : seen (one "CMP 0 00" (at4 0))
    (fun t => (t.rip, t.rflags)) = some (5, 1) := by decide
theorem test_cmp_text : seen (one "CMP R0 1" ((at4 1).setReg .r0 (.text "1".toList)))
    (fun t => (broke t, t.rflags)) = some ((some (4, 4), 4), 1) := by decide
theorem test_jmp_register : seen (one "JMP R3" ((at4 0).setReg .r3 (.int 2)))
    (fun t => t.rip) = some 2 := by decide
theorem test_jeq_taken_clears : seen (one "JEQ 9" (at4 1))
    (fun t => (t.rip, t.rflags)) = some (9, 0) := by decide
theorem test_jeq_resolves_untaken : seen (one "JEQ FOO" (at4 0)) broke =
    some (some (3, 4), 4) := by decide
theorem test_jne : seen (one "JNE 9" (at4 1)) (fun t => (t.rip, t.rflags)) = some (5, 1) := by decide
theorem test_jg : seen (one "JG 9" (at4 0)) (fun t => (t.rip, t.rflags)) = some (9, 0) := by decide
theorem test_jl : seen (one "JL 9" (at4 1)) (fun t => (t.rip, t.rflags)) = some (9, 1) := by decide
theorem test_jge : seen (one "JGE 9" (at4 1)) (fun t => (t.rip, t.rflags)) = some (5, 1) := by decide
theorem test_jle : seen (one "JLE 9" (at4 1)) (fun t => (t.rip, t.rflags)) = some (9, 1) := by decide

/-! Stack (file 95, part 2, family 44). -/

theorem test_push_window : seen (one "PUSH 8" ((boot []).setReg .rsp (.int (-1))))
    (fun t => (t.mem, t.reg .rsp)) = some ([(1023, 8)], .int (-2)) := by decide
theorem test_push_strict :
    seen (one "PUSH 8" { (boot []).setReg .rsp (.int (-1)) with cfg := strict })
      (fun t => (broke t, t.mem, t.reg .rsp)) = some ((some (9, 0), 0), [], .int (-1)) := by decide
/-- `PUSH 5`, `POP RSP` with the default order leaves RSP = MEM[1023] + 1. -/
theorem test_pop_rsp : seen (one "POP RSP" { (boot []).setReg .rsp (.int (-1)) with mem := [(0, 5)] })
    (fun t => t.reg .rsp) = some (.int 1) := by decide
theorem test_pop_increment_first :
    seen (one "POP R0" { (boot []).setReg .rsp (.int (-1)) with mem := [(0, 9)], cfg := popSecond })
      (fun t => (t.reg .r0, t.reg .rsp)) = some (.int 9, .int 0) := by decide

/-! DEFINE, CALL, HLT, INCLUDE and the rest (file 95, part 2, family 45). -/

theorem test_define_joins_tokens : seen (one "DEFINE R0 3 \"a  b\"" (boot []))
    (fun t => t.reg .r0) = some (.text "a b".toList) := by decide
theorem test_define_length : seen (one "DEFINE R0 4 \"hello\"" (boot ["DEFINE R0 4 \"hello\""]))
    (fun t => (t.fault, t.reg .r0)) =
      some (some ⟨6, 0, "DEFINE R0 4 \"hello\"".toList, 0⟩, .int 0) := by decide
theorem test_call_print_negative : seen (one "CALL print R0" (with01 (.int (-50)) (.int 0)))
    (fun t => t.out) = some (some "-50".toList) := by decide
/-- A handler that answers `Ok([(R0, Text "abc")], none)`. -/
theorem test_call_input : seen (one "CALL input R0" { boot [] with
      cfg := hosted, hostAnswers := [.ok [("R0".toList, .text "abc".toList)] none] })
    (fun t => (t.reg .r0, t.hostAnswers)) = some (.text "abc".toList, []) := by decide
theorem test_hlt_goes_on : seen (step (boot ["HLT", "MOV R0 1"]))
    (fun t => (t.sched, t.rip)) = some (.running, 1) := by decide
theorem test_include_runs : seen (one "INCLUDE lib" { boot ["INCLUDE lib"] with cfg := loading })
    (fun t => (t.prog, t.rip, t.incStack)) =
      some (toks ["INC R0"], 0, [⟨toks ["INCLUDE lib"], 1⟩]) := by decide
theorem test_include_not_found : seen (one "INCLUDE no" { boot [] with cfg := loading }) broke =
    some (some (8, 0), 0) := by decide
theorem test_not : seen (one "NOT R0" (boot [])) broke = some (some (1, 0), 0) := by decide
theorem test_ret : seen (one "RET" (boot [])) broke = some (some (1, 0), 0) := by decide
theorem test_string : seen (one "STRING x" (boot [])) broke = some (some (1, 0), 0) := by decide
theorem test_cov : seen (one "COV" (boot [])) broke = some (some (1, 0), 0) := by decide
theorem test_je : seen (one "JE 3" (boot [])) broke = some (some (1, 0), 0) := by decide
theorem test_unknown : seen (one "FOO" (boot [])) broke = some (some (1, 0), 0) := by decide
theorem test_skip_no_notify : seen (one "; c" (boot []))
    (fun t => (t.rip, t.events)) = some (1, []) := by decide

/-! The scheduler (file 95, part 2, family 46). -/

theorem test_run_empty : seen (step { State.reset with turns := [.host (.run [])] })
    (fun t => (t.sched, t.rip, t.events)) = some (.halted, 0, [.accepted]) := by decide
theorem test_step_in_idle : seen (step { State.reset with turns := [.host .step] })
    (fun t => (t.sched, t.events)) = some (.idle, [.rejected .stepWhileNotPaused]) := by decide
/-- The comment and `INC R0` are both consumed by one `step()`. -/
theorem test_step_skips_comments : seen (step { boot ["HLT", "; c", "INC R0", "HLT"] with
      rip := 1, sched := .paused, turns := [.host .step] })
    (fun t => (t.sched, t.rip, t.reg .r0, t.events)) =
      some (.paused, 3, .int 1, [.notify, .accepted]) := by decide
theorem test_debug_pause : seen (step { boot ["MOV R0 5", "HLT"] with debug := true })
    (fun t => (t.sched, t.rip)) = some (.paused, 1) := by decide
theorem test_negative_fetch : seen (step { boot ["HLT"] with rip := -1 })
    (fun t => (t.sched, t.fault)) = some (.faulted, some ⟨10, -1, [], 0⟩) := by decide
theorem test_reset_from_faulted : seen (step { (boot ["HLT"]).setReg .r0 (.text "x".toList) with
      sched := .faulted, turns := [.host .reset] })
    (fun t => (t.sched, t.reg .r0, t.prog)) = some (.idle, .int 0, []) := by decide

/-! Witnesses: terms that meet the hypotheses of the statements, clause by clause, at the ends of the
clauses' ranges. -/

/-- A state with an integer in R0, a text in R1, eight-bit values, RSP 0. -/
def eight : State := { with01 (.int 127) (.text "a".toList) with cfg := narrow }

theorem digits (t : Token) (h : isImmediate t = true) : IsDigits t := isImmediate_iff.mp h
theorem notDigits (t : Token) (h : isImmediate t = false) : ¬ IsDigits t := isImmediate_eq_false.mp h
theorem noRegister (t : Token) (h : lookupReg t = none) : NamesNoRegister t := lookupReg_eq_none.mp h

theorem noCell {c : Config} {a : Int} (h : cellOf c a = .error (.stackOutOfRange a)) : NoCell c a := by
  intro i hi
  rw [cellOf_eq_ok.mpr hi] at h
  cases h

theorem witness_DecodeOfEncodeIsTheInstruction :
    (Instr.define ⟨toks ["R0", "3", "\"a", "b\""], "define R0 3 \"a  b\"".toList⟩).wellFormed =
      true ∧
    (Instr.unknownOpcode ⟨"FOO".toList, "foo x".toList⟩).wellFormed = true ∧
    Instr.skipLine.wellFormed = true := by
  decide

theorem witness_OpcodeLettersMatchInEitherCase :
    (Instr.mov ⟨toks ["r0", "5"], "MOV r0 5".toList⟩).wellFormed = true ∧
    Instr.mov ⟨toks ["r0", "5"], "MOV r0 5".toList⟩ ≠ .skipLine ∧
    (∀ f, Instr.mov ⟨toks ["r0", "5"], "MOV r0 5".toList⟩ ≠ .unknownOpcode f) ∧
    Token.wellFormed "mOv".toList = true ∧ "mOv".toList.head? ≠ some ';' ∧
    CaseVariant "mOv".toList "MOV".toList ∧ ¬ CaseVariant "MOVE".toList "MOV".toList := by
  refine ⟨by decide, by decide, by simp, by decide, by decide, ?_, ?_⟩ <;> simp [CaseVariant]

theorem witness_WhitespaceAroundTokensCarriesNoMeaning :
    (∀ c ∈ " \t".toList, IsBlank c) ∧ (∀ c ∈ "\r".toList, IsBlank c) ∧
    Token.wellFormed "MOV".toList = true ∧
    ∀ p ∈ [(" ".toList, "R0".toList), ("\t ".toList, "5".toList)],
      p.1 ≠ [] ∧ (∀ c ∈ p.1, IsBlank c) ∧ Token.wellFormed p.2 = true := by
  refine ⟨by simp [IsBlank], by simp [IsBlank], by decide, ?_⟩
  intro p hp
  simp only [List.mem_cons, List.not_mem_nil, or_false] at hp
  rcases hp with rfl | rfl <;> refine ⟨by decide, by simp [IsBlank], by decide⟩

theorem witness_UnknownOpcodesAreUnsupported :
    decode "Foo x".toList ≠ .skipLine ∧ tokens "Foo x".toList = "Foo".toList :: toks ["x"] ∧
    ∀ name ∈ ["MOV", "ADD", "SUB", "MUL", "DIV", "INC", "DEC", "NEG", "AND", "OR", "XOR", "SHL",
        "SHR", "ROR", "ROL", "CMP", "JMP", "JEQ", "JNE", "JG", "JL", "JGE", "JLE", "PUSH", "POP",
        "DEFINE", "CALL", "HLT", "INCLUDE", "NOT", "RET", "STRING", "COV", "JE"],
      ¬ CaseVariant "Foo".toList name.toList := by
  refine ⟨by decide, by decide, ?_⟩
  simp [CaseVariant]

theorem witness_RegisterNamesMatchExactly :
    ¬ IsDigits "r0".toList ∧ NamesNoRegister "r0".toList ∧ ¬ IsDigits [] ∧ NamesNoRegister [] :=
  ⟨notDigits _ (by decide), noRegister _ (by decide), notDigits _ (by decide),
    noRegister _ (by decide)⟩

theorem witness_ImmediatesSpellNumbersInBaseTen :
    SpellsNat "0".toList 0 ∧ SpellsNat "10".toList 10 ∧ (0 : Nat) < 10 ∧ (9 : Nat) < 10 :=
  ⟨⟨digits _ (by decide), by decide, by decide⟩, ⟨digits _ (by decide), by decide, by decide⟩,
    by decide, by decide⟩

/-- The clauses about operand tokens that the statements of MOV, of the arithmetic, bitwise, compare,
jump and stack instructions, of DEFINE and of CALL share. -/
theorem witness_operand_clauses :
    DestFails "5".toList 2 ∧ DestFails "RIP".toList 3 ∧ "R0".toList = Reg.name .r0 ∧
    SrcFails eight "128".toList 10 ∧ SrcFails eight "-5".toList 3 ∧
    SrcIs eight "127".toList (.int 127) ∧ SrcIs eight "0".toList (.int 0) ∧
    SrcIs eight "R0".toList (.int 127) ∧ SrcIs eight "R1".toList (.text "a".toList) ∧
    eight.reg .r0 = .int 127 ∧ eight.reg .r1 = .text "a".toList ∧ eight.reg .rsp = .int 0 ∧
    (toks ["R0"]).length ≠ 2 ∧ (toks ["R0", "5"]).length ≠ 1 :=
  ⟨destFails_iff.mpr ⟨_, rfl, rfl⟩, destFails_iff.mpr ⟨_, rfl, rfl⟩, rfl,
    srcFails_iff.mpr ⟨_, rfl, rfl⟩, srcFails_iff.mpr ⟨_, rfl, rfl⟩, readSrc_eq_ok.mp rfl,
    readSrc_eq_ok.mp rfl, readSrc_eq_ok.mp rfl, readSrc_eq_ok.mp rfl, rfl, rfl, rfl, by decide,
    by decide⟩

/-- A copied integer at the width's end, a text, and an integer beyond the width, which only a host
answer could have put in the register. -/
theorem witness_MovCopiesTheSourceValue :
    ValueFits narrow (.int 127) ∧ ValueFits narrow (.text "a".toList) ∧
    SrcIs (eight.setReg .r2 (.int 128)) "R2".toList (.int 128) ∧
    (eight.setReg .r2 (.int 128)).cfg.fits 128 = false := by
  refine ⟨?_, ?_, readSrc_eq_ok.mp rfl, by decide⟩ <;> intro n h <;> cases h
  decide

/-- The clauses about results, for ADD, SUB and MUL (no error of their own), and INC, DEC and NEG. -/
theorem witness_result_clauses :
    eight.cfg.fits (1 + 126) = true ∧ eight.cfg.fits (1 + 127) = false ∧
    eight.cfg.fits (-127 - 1) = true ∧ eight.cfg.fits (-128 - 1) = false ∧
    eight.cfg.fits (-64 * 2) = true ∧ eight.cfg.fits (64 * 2) = false ∧
    eight.cfg.fits (-(-127)) = true ∧ eight.cfg.fits (-(-128)) = false := by decide

theorem witness_DivIsTheFloorOfTheRationalQuotient :
    ((-128 : Int) = 0 → False) ∧ narrow.fits ⌊((-128 : Int) : ℚ) / ((-1 : Int) : ℚ)⌋ = false ∧
    narrow.fits ⌊((-128 : Int) : ℚ) / ((1 : Int) : ℚ)⌋ = true := by
  refine ⟨by decide, ?_, ?_⟩ <;> norm_num <;> decide

/-- Counts at the ends of the ranges of the shifts and rotates. -/
theorem witness_shift_and_rotate_clauses :
    (-1 : Int) < 0 ∧ ¬ (0 : Int) < 0 ∧ ((Config.default.rotWidth : Nat) : Int) < 33 ∧
    ¬ ((0 : Int) < 0 ∨ ((Config.default.rotWidth : Nat) : Int) < 0) ∧
    ¬ ((32 : Int) < 0 ∨ ((Config.default.rotWidth : Nat) : Int) < 32) ∧
    narrow.fits (1 * 2 ^ (6 : Int).toNat) = true ∧ narrow.fits (1 * 2 ^ (7 : Int).toNat) = false := by
  decide

theorem witness_RotateLeftThenRightKeepsTheLowBits :
    (0 : Int) ≤ 2 ^ 32 - 1 ∧ (2 ^ 32 - 1 : Int) < 2 ^ 32 ∧ (0 : Int) ≤ 32 ∧ (32 : Int) ≤ 32 := by decide

/-- Both flag values, for CMP's two results and for every jump, taken and not taken. -/
theorem witness_compare_and_jump_clauses :
    SrcIs (at4 0) "5".toList (.int 5) ∧ SrcIs (at4 0) "3".toList (.int 3) ∧ (5 : Int) ≠ 3 ∧
    (at4 0).rflags = 0 ∧ (at4 1).rflags = 1 ∧ SrcIs (at4 1) "9".toList (.int 9) :=
  ⟨readSrc_eq_ok.mp rfl, readSrc_eq_ok.mp rfl, by decide, rfl, rfl, readSrc_eq_ok.mp rfl⟩

/-- Cells at the ends of the window, and of the strict range. -/
theorem witness_stack_cells :
    CellIs .default 0 0 ∧ CellIs .default 1023 1023 ∧ CellIs .default (-1) 1023 ∧
    CellIs .default (-1024) 0 ∧ NoCell .default 1024 ∧ NoCell .default (-1025) ∧
    CellIs strict 0 0 ∧ NoCell strict (-1) :=
  ⟨cellOf_eq_ok.mp rfl, cellOf_eq_ok.mp rfl, cellOf_eq_ok.mp rfl, cellOf_eq_ok.mp rfl, noCell rfl,
    noCell rfl, cellOf_eq_ok.mp rfl, noCell rfl⟩

theorem witness_PushStoresAtTheStackIndex :
    Memory.wf eight.mem = true ∧ SrcIs eight "127".toList (.int 127) ∧ eight.reg .rsp = .int 0 ∧
    CellIs eight.cfg 0 0 ∧ eight.cfg.fits (0 - 1) = true ∧
    (eight.setReg .rsp (.int (-128))).reg .rsp = .int (-128) ∧ CellIs eight.cfg (-128) 896 ∧
    eight.cfg.fits (-128 - 1) = false ∧ (eight.setReg .rsp (.text [])).reg .rsp = .text [] ∧
    (eight.setReg .rsp (.int 1024)).reg .rsp = .int 1024 ∧ NoCell eight.cfg 1024 :=
  ⟨by decide, readSrc_eq_ok.mp rfl, rfl, cellOf_eq_ok.mp rfl, by decide, rfl, cellOf_eq_ok.mp rfl,
    by decide, rfl, rfl, noCell rfl⟩

theorem witness_PopReadsAtTheStackIndex :
    Config.default.popOrder = .readThenIncrement ∧ popSecond.popOrder = .incrementThenRead ∧
    CellIs .default 1023 1023 ∧ NoCell .default 1024 ∧ CellIs popSecond (1022 + 1) 1023 ∧
    NoCell popSecond (1023 + 1) ∧ narrow.fits (126 + 1) = true ∧ narrow.fits (127 + 1) = false ∧
    CellIs narrow 127 127 ∧ CellIs { narrow with popOrder := .incrementThenRead } (127 + 1) 128 ∧
    narrow.fits (Memory.read [(0, 128)] 0) = false ∧ narrow.fits (Memory.read [(0, -128)] 0) = true :=
  ⟨rfl, rfl, cellOf_eq_ok.mp rfl, noCell rfl, cellOf_eq_ok.mp rfl, noCell rfl, by decide, by decide,
    cellOf_eq_ok.mp rfl, cellOf_eq_ok.mp rfl, by decide, by decide⟩

/-- Both orders: a PUSH, then a POP, and an INC RSP and then a POP, all complete. -/
theorem witness_PushThenPopFollowsThePopOrder (c : Config) (h : c = .default ∨ c = popSecond) :
    ∃ t u v w : State, Memory.wf { boot [] with cfg := c }.mem = true ∧
      SrcIs { boot [] with cfg := c } "7".toList (.int 7) ∧
      { boot [] with cfg := c }.reg .rsp = .int 0 ∧
      exec (.push ⟨["7".toList], []⟩) { boot [] with cfg := c } = .next t ∧ t.sched ≠ .faulted ∧
      exec (.pop ⟨[Reg.name .r2], []⟩) t = .next u ∧ u.sched ≠ .faulted ∧
      exec (.inc ⟨["RSP".toList], []⟩) t = .next v ∧ v.sched ≠ .faulted ∧
      exec (.pop ⟨[Reg.name .r2], []⟩) v = .next w ∧ w.sched ≠ .faulted ∧
      CellIs c (0 - 1) 1023 ∧ ¬ CellIs c 0 1023 := by
  rcases h with rfl | rfl
  · refine ⟨_, _, _, _, rfl, readSrc_eq_ok.mp rfl, rfl, rfl, ?_, rfl, ?_, rfl, ?_, rfl, ?_,
      cellOf_eq_ok.mp rfl, ?_⟩
    · decide
    · decide
    · decide
    · decide
    · simp [CellIs]
  · refine ⟨_, _, _, _, rfl, readSrc_eq_ok.mp rfl, rfl, rfl, ?_, rfl, ?_, rfl, ?_, rfl, ?_,
      cellOf_eq_ok.mp rfl, ?_⟩
    · decide
    · decide
    · decide
    · decide
    · simp [CellIs]

/-- Literals that are and are not well formed, and lengths that do and do not fit. -/
theorem witness_DefineStoresTheQuotedText :
    (toks ["R0", "5"]).length < 3 ∧ ¬ IsDigits "R1".toList ∧ IsDigits "3".toList ∧
    (∀ t : Text, '"' ∈ t ∨ "hello".toList ++ ([] : List Token).flatMap (fun x => ' ' :: x) ≠
      '"' :: (t ++ ['"'])) ∧
    '"' ∉ "a b".toList ∧ "\"a".toList ++ (toks ["b\""]).flatMap (fun x => ' ' :: x) =
      '"' :: ("a b".toList ++ ['"']) ∧
    "a b".toList.length = immediateValue "3".toList ∧ "a b".toList.length ≠ immediateValue "4".toList ∧
    '"' ∉ ([] : Text) ∧ ([] : Text).length = immediateValue "0".toList ∧
    narrow.fits (immediateValue "128".toList) = false ∧
    narrow.fits (immediateValue "127".toList) = true :=
  ⟨by decide, notDigits _ (by decide), digits _ (by decide), fun t => .inr (by simp), by decide,
    by decide, by decide, by decide, by decide, by decide, by decide, by decide⟩

theorem witness_CallPrintWritesTheOutputBuffer :
    (toks []).length ≠ 1 ∧ (toks ["R0", "R1"]).length ≠ 1 ∧ SrcFails eight "\"hi\"".toList 3 ∧
    SrcIs eight "R1".toList (.text "a".toList) ∧ SrcIs eight "0".toList (.int 0) :=
  ⟨by decide, by decide, srcFails_iff.mpr ⟨_, rfl, rfl⟩, readSrc_eq_ok.mp rfl, readSrc_eq_ok.mp rfl⟩

theorem witness_CallNeedsANameOfTheCallTable :
    "PRINT".toList ∉
      ["print", "input", "wait", "play", "add", "sub", "mul", "div"].map String.toList := by decide

/-- The hypotheses of both statements of host calls: an unresolved argument, no handler, an answer
from the list and the free one, an answer that fails and one that writes elsewhere. -/
theorem witness_HostCallsFailWithoutALawfulAnswer :
    "wait".toList ∈ ["input", "wait", "play", "add", "sub", "mul", "div"].map String.toList ∧
    List.Forall₂ (SrcIs eight) (toks ["R0", "R1"]) [.int 127, .text "a".toList] ∧
    SrcFails eight "FOO".toList 3 ∧ eight.cfg.callHandler = false ∧ hosted.callHandler = true ∧
    { eight with hostAnswers := [.fail] }.hostAnswer "wait".toList [] [] = .fail ∧
    eight.hostAnswers = [] ∧ ("R1".toList ∉ toks ["R0"]) ∧ NamesNoRegister "5".toList :=
  ⟨by decide, .cons (readSrc_eq_ok.mp rfl) (.cons (readSrc_eq_ok.mp rfl) .nil),
    srcFails_iff.mpr ⟨_, rfl, rfl⟩, rfl, rfl, rfl, rfl, by decide, noRegister _ (by decide)⟩

/-- A listed answer with two writes to one argument register, the last of which stays; and a state
that lists no answer. -/
theorem witness_HostCallsApplyALawfulAnswer (ws : List (Token × Value))
    (h : ws = [("R0".toList, .int 1), ("R0".toList, .text [])]) :
    List.Forall₂ (SrcIs { eight with cfg := hosted, hostAnswers := [.ok ws none] }) (toks ["R0"])
      [.int 127] ∧
    { eight with cfg := hosted, hostAnswers := [.ok ws none] }.hostAnswer "input".toList (toks ["R0"])
      [.int 127] = .ok ws none ∧
    (∀ p ∈ ws, p.1 ∈ toks ["R0"] ∧ ∃ r : Reg, p.1 = r.name) ∧
    ws = [("R0".toList, .int 1)] ++ (Reg.name .r0, .text []) :: [] ∧
    { eight with cfg := hosted }.hostAnswers = [] := by
  subst h
  refine ⟨.cons (readSrc_eq_ok.mp rfl) .nil, rfl, ?_, rfl, rfl⟩
  intro p hp
  simp only [List.mem_cons, List.not_mem_nil, or_false] at hp
  rcases hp with rfl | rfl <;> exact ⟨by decide, .r0, rfl⟩

theorem witness_HltOnlyAdvances : toks ["1"] ≠ [] := by decide

theorem witness_IncludeRunsTheLoadedProgramOrIsRefused :
    loading.includeMode = .nested ∧ (toks []).length ≠ 1 ∧ loading.load "no".toList = none ∧
    loading.load "lib".toList = some (toks ["INC R0"]) ∧ refusing.includeMode = .refuse :=
  ⟨rfl, by decide, rfl, rfl, rfl⟩

/-- A faulting line for each kind of info that the statement speaks of, the state it runs in, and the
info the table of R500 gives it. -/
def faultSamples : List (String × State × Err) :=
  [("FOO", eight, .unsupportedInstruction "FOO".toList),
    ("HLT 1", eight, .malformedInstruction "1".toList),
    ("INC", eight, .malformedInstruction "INC".toList),
    ("CALL print R0 R1", eight, .malformedInstruction "R1".toList),
    ("MOV 5 R0", eight, .malformedInstruction "5".toList)] ++
  [("DEFINE R0 R1 x", eight, .malformedInstruction "R1".toList),
    ("DEFINE R0 5 hello", eight, .malformedInstruction "hello".toList),
    ("DEFINE R0 4 \"hello\"", eight, .lengthMismatch 4 5),
    ("MOV r0 5", eight, .unknownRegister "r0".toList),
    ("INC R1", eight, .typeMismatch "R1".toList),
    ("POP R0", eight.setReg .rsp (.text []), .typeMismatch "RSP".toList)] ++
  [("DIV R0 0", eight, .divisionByZero),
    ("CALL foo", eight, .unknownCallTarget "foo".toList),
    ("CALL wait 1", eight, .hostCallFault "wait".toList),
    ("INCLUDE no", { eight with cfg := loading }, .includeNotFound "no".toList),
    ("PUSH 1", eight.setReg .rsp (.int 1024), .stackOutOfRange 1024),
    ("POP R0", { eight.setReg .rsp (.int 1023) with cfg := popSecond }, .stackOutOfRange 1024)] ++
  [("MOV R0 128", eight, .valueOutOfRange 128),
    ("MOV R0 R2", eight.setReg .r2 (.int 200), .valueOutOfRange 200),
    ("INC R0", eight, .valueOutOfRange 128),
    ("SHR R0 R2", eight.setReg .r2 (.int (-1)), .valueOutOfRange (-1)),
    ("PUSH 1", eight.setReg .rsp (.int (-128)), .valueOutOfRange (-129))]

theorem test_fault_samples : ∀ p ∈ faultSamples, p.2.1.sched ≠ .faulted ∧
    seen (one p.1 p.2.1) (fun t => (t.sched, t.errorInfo)) = some (.faulted, some p.2.2) := by decide

theorem witness_ErrorsRecordTheirInfo (p : String × State × Err) (h : p ∈ faultSamples) :
    p.2.1.sched ≠ .faulted ∧ ∃ t, exec (decode p.1.toList) p.2.1 = .next t ∧
      t.sched = .faulted ∧ t.errorInfo = some p.2.2 := by
  obtain ⟨h1, h2⟩ := test_fault_samples p h
  refine ⟨h1, ?_⟩
  unfold one seen at h2
  split at h2
  · rename_i t ht
    exact ⟨t, ht, congrArg Prod.fst (Option.some.inj h2), congrArg Prod.snd (Option.some.inj h2)⟩
  · cases h2
  · cases h2

/-- Completed instructions for the rules about every instruction: one that is neither CMP nor JEQ, nor
PUSH, CALL or INCLUDE; a PUSH; a jump; and a faulting one. -/
theorem witness_rules_of_every_instruction :
    (∃ t, exec (.add ⟨toks ["R0", "0"], []⟩) eight = .next t ∧ t.sched ≠ .faulted) ∧
    (∃ t, exec (.mov ⟨toks ["R0", "5"], []⟩) eight = .next t ∧ t.reg .r0 ≠ eight.reg .r0) ∧
    (∃ t, exec (.push ⟨toks ["5"], []⟩) eight = .next t ∧ Memory.wf eight.mem = true ∧
      eight.reg .rsp = .int 0 ∧ CellIs eight.cfg 0 0) ∧
    (∃ t, exec (.jmp ⟨toks ["3"], []⟩) eight = .next t ∧ t.sched ≠ .faulted) ∧
    (∃ t, exec (.inc ⟨toks ["R0"], []⟩) eight = .next t ∧ t.sched = .faulted) ∧
    (∀ f, Instr.add ⟨toks ["R0", "0"], []⟩ ≠ .cmp f) ∧ eight.sched ≠ .faulted := by
  refine ⟨⟨_, rfl, by decide⟩, ⟨_, rfl, by decide⟩,
    ⟨_, rfl, by decide, rfl, cellOf_eq_ok.mp rfl⟩, ⟨_, rfl, by decide⟩, ⟨_, rfl, by decide⟩, by simp,
    by decide⟩

theorem witness_MemoryReadsTheLastWrite :
    Memory.wf [(0, 9), (1023, -8)] = true ∧ Memory.wf ([] : Memory) = true := by decide

/-- Both forms of a turn of the core. -/
theorem witness_core_turn (s : State) (h : s.turns = []) :
    CoreTurn s s ∧ CoreTurn { s with turns := [.core, .host .reset] } { s with turns := [.host .reset] } :=
  ⟨.inl ⟨h, rfl⟩, .inr ⟨_, rfl, rfl⟩⟩

/-- The three ends of a step on a line, and the pause. -/
theorem witness_AStepRunsTheDecodedLine :
    ((boot ["HLT"]).turns = [] ∧ (boot ["HLT"]).sched = .running ∧ 0 ≤ (boot ["HLT"]).rip ∧
      (boot ["HLT"]).prog[(boot ["HLT"]).rip.toNat]? = some "HLT".toList ∧
      ∃ t, exec (decode "HLT".toList) (boot ["HLT"]) = .next t ∧ t.sched = .running ∧
        PastTheEnd t) ∧
    (∃ t, exec (decode "FOO".toList) (boot ["FOO"]) = .next t ∧ t.sched = .faulted) ∧
    (∃ t, exec (decode "HLT".toList) { boot ["HLT", ""] with debug := true } = .next t ∧
      t.sched = .running ∧ ¬ PastTheEnd t ∧ decode "HLT".toList ≠ .skipLine) :=
  ⟨⟨rfl, rfl, by decide, rfl, _, rfl, rfl, by decide⟩, ⟨_, rfl, rfl⟩,
    _, rfl, rfl, by decide, by decide⟩

theorem witness_FetchOutsideTheProgram :
    { boot ["HLT"] with rip := -1 }.turns = [] ∧ { boot ["HLT"] with rip := -1 }.sched = .running ∧
    { boot ["HLT"] with rip := -1 }.rip < 0 ∧
    (({ boot ["HLT"] with rip := 1, incStack := [⟨[], 1⟩] }.prog.length : Nat) : Int) ≤ 1 := by decide

/-- A paused machine before the given lines, its next turn a `step()`. -/
def pausedAt (lines : List String) (rip : Int) (frames : List Frame) : State :=
  { boot lines with rip := rip, incStack := frames, sched := .paused, turns := [.host .step] }

/-- Every clause of the statement of `step()`: an instruction at the end and before it, a negative
RIP, a skip line at the end and before it, and an include return at the end and before it. -/
theorem witness_StepCommandConsumesOneInstruction :
    (pausedAt ["HLT"] 0 []).turns = .host .step :: [] ∧ (pausedAt ["HLT"] 0 []).sched = .paused ∧
    (∃ t, exec (decode "HLT".toList) (pausedAt ["HLT"] 0 []) = .next t ∧ t.sched = .paused ∧
      PastTheEnd t) ∧
    (∃ t, exec (decode "HLT".toList) (pausedAt ["HLT", ""] 0 []) = .next t ∧ ¬ PastTheEnd t) ∧
    (pausedAt ["HLT"] (-1) []).rip < 0 ∧
    (pausedAt ["HLT", ""] 1 []).prog[1]? = some [] ∧ decode [] = .skipLine ∧
    PastTheEnd { pausedAt ["HLT", ""] 1 [] with rip := 1 + 1 } ∧
    ¬ PastTheEnd { pausedAt ["", "HLT"] 0 [] with rip := 0 + 1 } ∧
    ((pausedAt ["HLT"] 1 [⟨toks ["INCLUDE x"], 1⟩]).prog.length : Int) ≤ 1 ∧
    ((toks ["INCLUDE x"]).length : Int) ≤ 1 ∧ ¬ ((toks ["INCLUDE x", "HLT"]).length : Int) ≤ 1 :=
  ⟨rfl, rfl, ⟨_, rfl, rfl, by decide⟩, ⟨_, rfl, by decide⟩, by decide, rfl, rfl, by decide, by decide,
    by decide, by decide, by decide⟩

/-- Turns of a core that waits, for the first clause of AStepRunsTheDecodedLine. -/
theorem witness_waiting_core :
    CoreTurn State.reset State.reset ∧ State.reset.sched ≠ .running ∧
    CoreTurn { pausedAt ["HLT"] 0 [] with turns := [.core] } { pausedAt ["HLT"] 0 [] with turns := [] } ∧
    (pausedAt ["HLT"] 0 []).sched ≠ .running :=
  ⟨.inl ⟨rfl, rfl⟩, by decide, .inr ⟨_, rfl, rfl⟩, by decide⟩

/-- Each host command on a state that takes it, and on one that does not. -/
theorem witness_host_commands :
    { State.reset with turns := [.host (.run [])] }.turns = .host (.run []) :: [] ∧
    State.reset.sched = .idle ∧ (boot []).sched = .halted ∧ (boot ["HLT"]).sched = .running ∧
    { boot ["HLT"] with sched := .paused, turns := [.host .step] }.turns = .host .step :: [] ∧
    { boot ["HLT"] with sched := .paused }.sched = .paused ∧
    (boot ["HLT"]).sched ≠ .paused ∧
    { State.reset with turns := [.host .reset, .host .reset] }.turns =
      .host .reset :: .host .reset :: [] ∧
    (∃ t u, step { State.reset with turns := [.host .reset, .host .reset] } = .next t ∧
      step t = .next u) ∧
    { State.reset with turns := [.host (.setDebug true)] }.turns = .host (.setDebug true) :: [] ∧
    { State.reset with turns := [.host (.setRate 10)] }.turns = .host (.setRate 10) :: [] :=
  ⟨rfl, rfl, by decide, by decide, rfl, rfl, by decide, rfl, ⟨_, _, rfl, rfl⟩, rfl, rfl⟩

/-- A step that changes `sched`, a step of a faulted machine without a reset, and a step that does not
depend on `rate`. -/
theorem witness_steps :
    (∃ t, step (boot ["HLT"]) = .next t ∧ t.sched ≠ (boot ["HLT"]).sched) ∧
    (∃ t, step ((boot ["FOO"]).raise [] .divisionByZero) = .next t ∧
      ((boot ["FOO"]).raise [] .divisionByZero).sched = .faulted ∧
      ((boot ["FOO"]).raise [] .divisionByZero).turns.head? ≠ some (.host .reset)) ∧
    ∃ t, step State.reset = .next t :=
  ⟨⟨_, rfl, by decide⟩, ⟨_, rfl, rfl, by decide⟩, ⟨_, rfl⟩⟩

/-- A machine in the middle of an included program, with memory written, meets the invariant and
steps. -/
theorem witness_EveryStepKeepsTheInvariant :
    Inv { boot ["HLT"] with mem := [(0, 9)], incStack := [⟨toks ["INCLUDE lib", ""], 1⟩] } ∧
    ∃ t, step { boot ["HLT"] with mem := [(0, 9)], incStack := [⟨toks ["INCLUDE lib", ""], 1⟩] } =
      .next t := by
  refine ⟨?_, _, rfl⟩
  constructor
  · decide
  · decide
  · decide
  · intro f hf
    simp only [List.mem_singleton] at hf
    subst hf
    decide
  · intro _
    rfl
  · intro h
    exact absurd h (by decide)
  · intro h
    exact absurd h (by decide)
  · decide
  · intro f hf
    cases hf
  · decide

end Sys2Proof.Tests
end

section
/-! The proof of the statement about stack indices (spec/20_memory.md). -/

namespace Sys2Proof.Machine

/-- `Cell(a)` raises StackOutOfRange with the index exactly for the indices that R101 gives no cell. -/
theorem noCell_iff {c : Config} {a : Int} :
    NoCell c a ↔ cellOf c a = .error (.stackOutOfRange a) := by
  refine ⟨cellOf_of_noCell, fun hErr i hCell => ?_⟩
  have hOk : cellOf c a = .ok i := cellOf_eq_ok.mpr hCell
  rw [hErr] at hOk
  cases hOk

/-- Settles O24: the general clauses are the two laws of `Cell(a)`, and at each end of the default
window and of the strict range those laws reduce the claim to running `cellOf`. -/
theorem stackIndexSelectsItsCell : Obligations.StackIndexSelectsItsCell := by
  unfold Obligations.StackIndexSelectsItsCell
  refine ⟨fun c a i => cellOf_eq_ok, fun c a => cellOf_of_noCell, ?_, ?_, ?_, ?_, ?_, ?_, ?_, ?_⟩
  · exact cellOf_eq_ok.mp rfl
  · exact cellOf_eq_ok.mp rfl
  · exact cellOf_eq_ok.mp rfl
  · exact cellOf_eq_ok.mp rfl
  · exact noCell_iff.mpr rfl
  · exact cellOf_eq_ok.mp rfl
  · exact noCell_iff.mpr rfl
  · exact noCell_iff.mpr rfl

end Sys2Proof.Machine
end

section
/-! The proof of the statement about unknown opcodes (spec/30_encoding.md R134, R152). -/

namespace Sys2Proof

/-- A line that decodes to anything but a skip line is none (R132). -/
theorem isSkip_of_decode_ne_skipLine {l : Line} (h : decode l ≠ .skipLine) : isSkip l = false := by
  by_contra hskip
  exact h (by simp [decode, hskip])

/-- An opcode outside the table is unknown, and keeps only the text it is given (R152). -/
theorem ofOpcode_of_not_mem {op : Token} (h : op ∉ opcodeTable.map Prod.fst) (f : Fields) :
    ofOpcode op f = .unknownOpcode ⟨op, f.raw⟩ := by
  have noRow : opcodeTable.find? (fun row => row.1 == op) = none := by
    refine List.find?_eq_none.mpr fun row hrow hop => h ?_
    exact eq_of_beq hop ▸ List.mem_map_of_mem hrow
  simp [ofOpcode, noRow]

/-- No lower-case ASCII letter is left after folding (R134). -/
theorem foldCase_no_lower {u : Token} :
    ∀ c ∈ foldCase u, ¬ (97 ≤ c.toNat ∧ c.toNat ≤ 122) := by
  intro c hc
  obtain ⟨d, -, rfl⟩ := List.mem_map.mp hc
  rw [toNat_foldChar]
  split <;> omega

namespace Machine

/-- Every token is a spelling of the opcode it folds to (R134). -/
theorem caseVariant_foldCase (u : Token) : CaseVariant u (foldCase u) := by
  refine List.forall₂_map_right_iff.mpr (List.forall₂_same.mpr fun c _ => ?_)
  by_cases hc : 97 ≤ c.toNat ∧ c.toNat ≤ 122
  · right
    rw [toNat_foldChar, if_pos hc]
    omega
  · left
    exact (if_neg hc).symm

/-- An instruction that ends in the fault entry with its own text raises that error. -/
theorem raises_of_exec {i : Instr} {s : State} {e : Err}
    (h : exec i s = .next (s.raise i.raw e)) : Raises i s e.code :=
  ⟨e, rfl, h⟩

/-- Settles O7: a token folds to an opcode it spells, so where it spells none of the table's the lookup
of the folded token finds no row. -/
theorem unknownOpcodesAreUnsupported : Obligations.UnknownOpcodesAreUnsupported := by
  unfold Obligations.UnknownOpcodesAreUnsupported
  refine ⟨fun f s => raises_of_exec (e := .unsupportedInstruction f.tok) rfl, ?_⟩
  intro l u ops hline htokens hnone
  have hunspelled : ∀ op ∈ opcodeTable.map Prod.fst, ¬ CaseVariant u op :=
    (List.forall_mem_map (f := String.toList) (P := (¬ CaseVariant u ·))).mpr hnone
  have hunlisted : foldCase u ∉ opcodeTable.map Prod.fst :=
    fun hmem => hunspelled _ hmem (caseVariant_foldCase u)
  refine ⟨foldCase u, ?_, caseVariant_foldCase u, foldCase_no_lower⟩
  rw [decode_of_tokens (isSkip_of_decode_ne_skipLine hline) htokens, ofOpcode_of_not_mem hunlisted]

end Machine

end Sys2Proof
end

section
/-! The proof of the statement about register names (spec/30_encoding.md R142). -/

namespace Sys2Proof.Machine

/-- MOV raises the error its destination token raises. -/
theorem exec_mov_of_destRef_error {d : Token} {e : Err} (h : destRef d = .error e) (src : Token)
    (raw : Line) (s : State) : exec (.mov ⟨[d, src], raw⟩) s = .next (s.raise raw e) := by
  simp [execMov, movEffect, twoOperands, h]

/-- PUSH raises the error its source token raises. -/
theorem exec_push_of_readSrc_error {src : Token} {s : State} {e : Err}
    (h : readSrc s src = .error e) (raw : Line) :
    exec (.push ⟨[src], raw⟩) s = .next (s.raise raw e) := by
  simp [execPush, pushEffect, oneOperand, h]

/-- Settles O8: the lookup's law gives the first clause, and a token that is no immediate and no name
fails alike as the destination of MOV and as the source of PUSH. -/
theorem registerNamesMatchExactly : Obligations.RegisterNamesMatchExactly := by
  unfold Obligations.RegisterNamesMatchExactly
  refine ⟨fun t r => lookupReg_eq_some, rfl, ?_, ?_⟩
  · have unresolved : ∀ t ∈ ["RIP", "RFLAGS", "rax", "Rax", "r0"],
        isImmediate t.toList = false ∧ lookupReg t.toList = none := by decide
    intro t ht
    obtain ⟨himm, hreg⟩ := unresolved t ht
    exact ⟨isImmediate_eq_false.mp himm, lookupReg_eq_none.mp hreg⟩
  · intro s t raw hdigits hname
    have hdest : destRef t = .error (.unknownRegister t) :=
      destRef_eq_error.mpr (.inr ⟨hdigits, hname, rfl⟩)
    have hsrc : readSrc s t = .error (.unknownRegister t) :=
      readSrc_eq_error.mpr (.inr ⟨hdigits, hname, rfl⟩)
    exact ⟨fun src => exec_mov_of_destRef_error hdest src raw s, exec_push_of_readSrc_error hsrc raw⟩

end Sys2Proof.Machine
end

section
/-! SUPPORT. How an instruction that ends by `finish` raises an error or writes one register, and what
makes the templates of R201 and R207 and the copy of R202 raise, one lemma per error
(spec/41_move_arithmetic.md). -/

namespace Sys2Proof.Machine

/-! Instructions that end by `finish`. -/

/-- An instruction raises the error its effect raises. -/
theorem raises_of_finish {i : Instr} {s : State} {r : Except Err State} {e : Err}
    (hexec : exec i s = finish s i.raw r) (hr : r = .error e) : Raises i s e.code :=
  raises_of_exec (by rw [hexec, hr, finish_error])

/-- An instruction whose effect is one register write completes with that write. -/
theorem completes_of_finish {i : Instr} {s : State} {r : Except Err State} {q : Reg} {v : Value}
    (hexec : exec i s = finish s i.raw r) (hr : r = .ok (s.setReg q v)) :
    ∃ t, CompletesWithRegs i s t ∧ WritesReg s t q v := by
  refine ⟨(s.setReg q v).advance.emit .notify, ⟨?_, rfl⟩, ?_, fun p hp => ?_⟩
  · rw [hexec, hr]
    rfl
  · rw [State.reg_emit, State.reg_advance, State.reg_setReg_self]
  · rw [State.reg_emit, State.reg_advance, State.reg_setReg_of_ne s hp]

@[simp] theorem twoOperands_pair (op a b : Token) : twoOperands op [a, b] = .ok (a, b) := rfl

@[simp] theorem oneOperand_singleton (op a : Token) : oneOperand op [a] = .ok a := rfl

/-! The errors of the two-operand template, in the order of R201. -/

section
variable {op d src : Token} {f : Int → Int → Except Err Int} {s : State} {r : Reg} {e : Err}

theorem alu2_of_length {ops : List Token} (h : ops.length ≠ 2) :
    alu2 op f ops s = .error (countError op 2 ops) := by
  simp [alu2, twoOperands_of_length h]

theorem alu2_of_destRef_error (h : destRef d = .error e) : alu2 op f [d, src] s = .error e := by
  simp [alu2, h]

theorem alu2_of_readSrc_error (h : readSrc s src = .error e) :
    alu2 op f [r.name, src] s = .error e := by
  simp [alu2, h]

theorem alu2_of_dest_text {v : Value} {x : Text} (hsrc : SrcIs s src v) (hdest : s.reg r = .text x) :
    alu2 op f [r.name, src] s = .error (.typeMismatch r.name) := by
  simp [alu2, readSrc_eq_ok.mpr hsrc, hdest]

theorem alu2_of_src_text {a : Int} {x : Text} (hsrc : SrcIs s src (.text x))
    (hdest : s.reg r = .int a) : alu2 op f [r.name, src] s = .error (.typeMismatch src) := by
  simp [alu2, readSrc_eq_ok.mpr hsrc, hdest]

theorem alu2_of_function_error {a b : Int} (hsrc : SrcIs s src (.int b)) (hdest : s.reg r = .int a)
    (hf : f a b = .error e) : alu2 op f [r.name, src] s = .error e := by
  simp [alu2, readSrc_eq_ok.mpr hsrc, hdest, hf]

theorem alu2_of_not_fits {a b n : Int} (hsrc : SrcIs s src (.int b)) (hdest : s.reg r = .int a)
    (hf : f a b = .ok n) (hfit : s.cfg.fits n = false) :
    alu2 op f [r.name, src] s = .error (.valueOutOfRange n) := by
  simp [alu2, readSrc_eq_ok.mpr hsrc, hdest, hf, hfit]

end

/-! The errors of the one-operand template, in the order of R207. -/

section
variable {op d : Token} {f : Int → Int} {s : State} {r : Reg}

theorem alu1_of_length {ops : List Token} (h : ops.length ≠ 1) :
    alu1 op f ops s = .error (countError op 1 ops) := by
  simp [alu1, oneOperand_of_length h]

theorem alu1_of_destRef_error {e : Err} (h : destRef d = .error e) : alu1 op f [d] s = .error e := by
  simp [alu1, h]

theorem alu1_of_dest_text {x : Text} (hdest : s.reg r = .text x) :
    alu1 op f [r.name] s = .error (.typeMismatch r.name) := by
  simp [alu1, hdest]

theorem alu1_of_not_fits {a : Int} (hdest : s.reg r = .int a) (hfit : s.cfg.fits (f a) = false) :
    alu1 op f [r.name] s = .error (.valueOutOfRange (f a)) := by
  simp [alu1, hdest, hfit]

end

/-! The errors of MOV, in the order of R202. -/

section
variable {d src : Token} {s : State} {r : Reg} {e : Err}

theorem movEffect_of_length {ops : List Token} (h : ops.length ≠ 2) :
    movEffect ops s = .error (countError "MOV".toList 2 ops) := by
  simp [movEffect, twoOperands_of_length h]

theorem movEffect_of_destRef_error (h : destRef d = .error e) :
    movEffect [d, src] s = .error e := by
  simp [movEffect, h]

theorem movEffect_of_readSrc_error (h : readSrc s src = .error e) :
    movEffect [r.name, src] s = .error e := by
  simp [movEffect, h]

/-- A copied integer beyond the width raises, as an immediate does (R200; log entry 16). -/
theorem movEffect_of_not_fits {n : Int} (hsrc : SrcIs s src (.int n)) (hfit : s.cfg.fits n = false) :
    movEffect [r.name, src] s = .error (.valueOutOfRange n) := by
  simp [movEffect, readSrc_eq_ok.mpr hsrc, fitValue, hfit, Except.map]

end

/-! The templates as the statements say them. -/

theorem mapError_eq_error {α β ε : Type} {x : Except ε α} {g : ε → β} {c : β} :
    x.mapError g = .error c ↔ ∃ e, x = .error e ∧ g e = c := by
  cases x <;> simp [Except.mapError]

theorem mapError_eq_ok {α β ε : Type} {x : Except ε α} {g : ε → β} {a : α} :
    x.mapError g = .ok a ↔ x = .ok a := by
  cases x <;> simp [Except.mapError]

/-- An instruction that runs `alu2` on `g` follows the two-operand template of R201 with the function
that answers as `g` does, an error by its code. -/
theorem twoOperandInteger_of_alu2 {mk : Fields → Instr} {op : Token}
    {f : State → Int → Int → Except Nat Int} {g : State → Int → Int → Except Err Int}
    (hexec : ∀ F s, exec (mk F) s = finish s (mk F).raw (alu2 op (g s) F.ops s))
    (hf : ∀ s a b, (g s a b).mapError Err.code = f s a b) : TwoOperandInteger mk f := by
  intro s raw
  refine ⟨fun ops hlen => raises_of_finish (hexec _ s) (alu2_of_length hlen), ?_⟩
  intro d src
  have hexec₂ := hexec ⟨[d, src], raw⟩ s
  refine ⟨fun c hc => ?_, ?_⟩
  · obtain ⟨e, he, rfl⟩ := destFails_iff.mp hc
    exact raises_of_finish hexec₂ (alu2_of_destRef_error he)
  rintro r rfl
  refine ⟨fun c hc => ?_, fun v hv => ⟨fun x hx => ?_, ?_, ?_⟩⟩
  · obtain ⟨e, he, rfl⟩ := srcFails_iff.mp hc
    exact raises_of_finish hexec₂ (alu2_of_readSrc_error he)
  · exact raises_of_finish hexec₂ (alu2_of_dest_text hv hx)
  · rintro a x ha rfl
    exact raises_of_finish hexec₂ (alu2_of_src_text hv ha)
  rintro a b ha rfl
  rw [← hf]
  refine ⟨fun c hc => ?_, fun n hn hfit => ?_, fun n hn hfit => ?_⟩
  · obtain ⟨e, he, rfl⟩ := mapError_eq_error.mp hc
    exact raises_of_finish hexec₂ (alu2_of_function_error hv ha he)
  · exact raises_of_finish hexec₂ (alu2_of_not_fits hv ha (mapError_eq_ok.mp hn) hfit)
  · exact completes_of_finish hexec₂
      (alu2_eq_ok.mpr ⟨src, r, a, b, n, rfl, ha, hv, mapError_eq_ok.mp hn, hfit, rfl⟩)

/-- An instruction that runs `alu1` on `f` follows the one-operand template of R207 with `f`. -/
theorem oneOperandInteger_of_alu1 {mk : Fields → Instr} {op : Token} {f : Int → Int}
    (hexec : ∀ F s, exec (mk F) s = finish s (mk F).raw (alu1 op f F.ops s)) :
    OneOperandInteger mk f := by
  intro s raw
  refine ⟨fun ops hlen => raises_of_finish (hexec _ s) (alu1_of_length hlen), ?_⟩
  intro d
  have hexec₁ := hexec ⟨[d], raw⟩ s
  refine ⟨fun c hc => ?_, ?_⟩
  · obtain ⟨e, he, rfl⟩ := destFails_iff.mp hc
    exact raises_of_finish hexec₁ (alu1_of_destRef_error he)
  rintro r rfl
  refine ⟨fun x hx => ?_, fun a ha => ⟨fun hfit => ?_, fun hfit => ?_⟩⟩
  · exact raises_of_finish hexec₁ (alu1_of_dest_text hx)
  · exact raises_of_finish hexec₁ (alu1_of_not_fits ha hfit)
  · exact completes_of_finish hexec₁ (alu1_eq_ok.mpr ⟨r, a, rfl, ha, hfit, rfl⟩)

end Sys2Proof.Machine
end

section
/-! The proofs of the statements about MOV and the arithmetic instructions
(spec/41_move_arithmetic.md). -/

namespace Sys2Proof.Machine

/-- The model's DIV answers as R206 says: code 5 for a zero divisor, else the rational floor. -/
theorem divide_mapError_code (a b : Int) :
    (divide a b).mapError Err.code = if b = 0 then .error 5 else .ok ⌊(a : ℚ) / (b : ℚ)⌋ := by
  unfold divide
  split
  · rfl
  · rw [floorDiv_eq_floor]
    rfl

/-- Settles O10: each error of MOV is one of its effect's, and a source that fits is written as it is,
text or integer. -/
theorem movCopiesTheSourceValue : Obligations.MovCopiesTheSourceValue := by
  unfold Obligations.MovCopiesTheSourceValue
  intro s raw
  have hexec : ∀ ops, exec (.mov ⟨ops, raw⟩) s =
      finish s (Instr.mov ⟨ops, raw⟩).raw (movEffect ops s) := fun _ => rfl
  refine ⟨fun ops hlen => raises_of_finish (hexec ops) (movEffect_of_length hlen), ?_⟩
  intro d src
  refine ⟨fun c hc => ?_, ?_⟩
  · obtain ⟨e, he, rfl⟩ := destFails_iff.mp hc
    exact raises_of_finish (hexec _) (movEffect_of_destRef_error he)
  rintro r rfl
  refine ⟨fun c hc => ?_, fun v hv => ⟨?_, fun hfit => ?_⟩⟩
  · obtain ⟨e, he, rfl⟩ := srcFails_iff.mp hc
    exact raises_of_finish (hexec _) (movEffect_of_readSrc_error he)
  · rintro n rfl hfit
    exact raises_of_finish (hexec _) (movEffect_of_not_fits hv hfit)
  · exact completes_of_finish (hexec _) (movEffect_eq_ok.mpr ⟨src, r, v, rfl, hv, hfit, rfl⟩)

/-- Settles O11: ADD, SUB and MUL run the two-operand template with functions that never raise. -/
theorem addSubMulComputeExactly : Obligations.AddSubMulComputeExactly := by
  unfold Obligations.AddSubMulComputeExactly
  refine ⟨?_, ?_, ?_⟩
  · exact twoOperandInteger_of_alu2 (g := fun _ a b => .ok (b + a)) (fun _ _ => rfl) fun _ _ _ => rfl
  · exact twoOperandInteger_of_alu2 (g := fun _ a b => .ok (a - b)) (fun _ _ => rfl) fun _ _ _ => rfl
  · exact twoOperandInteger_of_alu2 (g := fun _ a b => .ok (a * b)) (fun _ _ => rfl) fun _ _ _ => rfl

/-- Settles O12: DIV runs the two-operand template with `divide`, which answers as R206 says. -/
theorem divIsTheFloorOfTheRationalQuotient : Obligations.DivIsTheFloorOfTheRationalQuotient := by
  unfold Obligations.DivIsTheFloorOfTheRationalQuotient
  exact twoOperandInteger_of_alu2 (g := fun _ => divide) (fun _ _ => rfl)
    fun _ => divide_mapError_code

/-- Settles O13: INC, DEC and NEG run the one-operand template. -/
theorem incDecNegComputeExactly : Obligations.IncDecNegComputeExactly := by
  unfold Obligations.IncDecNegComputeExactly
  refine ⟨?_, ?_, ?_⟩
  · exact oneOperandInteger_of_alu1 fun _ _ => rfl
  · exact oneOperandInteger_of_alu1 fun _ _ => rfl
  · exact oneOperandInteger_of_alu1 fun _ _ => rfl

end Sys2Proof.Machine
end

section
/-! The proofs of the statements about the bitwise instructions (spec/42_bitwise.md). -/

namespace Sys2Proof.Machine

/-! What the shift and rotate operations give (R250, R256, R257). -/

/-- `a >> s` is the floor of the rational quotient by `2 ^ s` (R250). -/
theorem shiftRight_eq_floor (a s : Int) : shiftRight a s = ⌊(a : ℚ) / (2 : ℚ) ^ s.toNat⌋ := by
  rw [shiftRight, floorDiv_eq_floor]
  push_cast
  rfl

/-- The other shift of a rotate by a count `b >= 0`, in integers and in naturals. -/
theorem toNat_width_sub {b : Int} (hb : 0 ≤ b) (w : Nat) : ((w : Int) - b).toNat = w - b.toNat := by
  omega

theorem rotateRight_eq {b : Int} (hb : 0 ≤ b) (w : Nat) (a : Int) :
    rotateRight w a b = Int.lor ⌊(a : ℚ) / (2 : ℚ) ^ b.toNat⌋ (a * 2 ^ (w - b.toNat)) := by
  rw [rotateRight, bitOr_eq_lor, shiftRight_eq_floor, shiftLeft, toNat_width_sub hb]

theorem rotateLeft_eq {b : Int} (hb : 0 ≤ b) (w : Nat) (a : Int) :
    rotateLeft w a b = Int.lor (a * 2 ^ b.toNat) ⌊(a : ℚ) / (2 : ℚ) ^ (w - b.toNat)⌋ := by
  rw [rotateLeft, bitOr_eq_lor, shiftRight_eq_floor, shiftLeft, toNat_width_sub hb]

/-! The counts that raise (R254 to R257). -/

/-- A shift answers code 10 for a negative count, else what its function gives. -/
theorem shiftBy_mapError_code {f : Int → Int → Int} {a b n : Int} (hn : f a b = n) :
    (shiftBy f a b).mapError Err.code = if b < 0 then .error 10 else .ok n := by
  subst hn
  unfold shiftBy
  split <;> rfl

/-- A rotate answers code 10 for a count below 0 or above the width, else what its function gives. -/
theorem rotateBy_mapError_code {w : Nat} {f : Nat → Int → Int → Int} {a b n : Int}
    (hn : 0 ≤ b → f w a b = n) :
    (rotateBy w f a b).mapError Err.code =
      if b < 0 ∨ (w : Int) < b then .error 10 else .ok n := by
  unfold rotateBy
  split
  · rfl
  · rw [hn (by omega)]
    rfl

/-! The statements. -/

/-- Settles O14: the three instructions run the two-operand template with the model's bit operations,
which are Lean's. -/
theorem andOrXorAreTheIntegerOperations : Obligations.AndOrXorAreTheIntegerOperations := by
  unfold Obligations.AndOrXorAreTheIntegerOperations
  refine ⟨?_, ?_, ?_⟩
  · exact twoOperandInteger_of_alu2 (g := fun _ a b => .ok (bitAnd a b)) (fun _ _ => rfl)
      fun _ a b => congrArg Except.ok (bitAnd_eq_land a b)
  · exact twoOperandInteger_of_alu2 (g := fun _ a b => .ok (bitOr a b)) (fun _ _ => rfl)
      fun _ a b => congrArg Except.ok (bitOr_eq_lor a b)
  · exact twoOperandInteger_of_alu2 (g := fun _ a b => .ok (bitXor a b)) (fun _ _ => rfl)
      fun _ a b => congrArg Except.ok (bitXor_eq_xor a b)

/-- Settles O16: SHL is `shiftLeft`, the product by definition, and SHR is `shiftRight`, the floor. -/
theorem shiftsScaleByPowersOfTwo : Obligations.ShiftsScaleByPowersOfTwo := by
  unfold Obligations.ShiftsScaleByPowersOfTwo
  refine ⟨?_, ?_⟩
  · exact twoOperandInteger_of_alu2 (g := fun _ => shiftBy shiftLeft) (fun _ _ => rfl)
      fun _ _ _ => shiftBy_mapError_code rfl
  · exact twoOperandInteger_of_alu2 (g := fun _ => shiftBy shiftRight) (fun _ _ => rfl)
      fun _ a b => shiftBy_mapError_code (shiftRight_eq_floor a b)

/-- Settles O17: ROR and ROL run the two-operand template with the rotates in the state's own field
width, whose formulas hold for every count that does not raise. -/
theorem rotatesAreUnmaskedFormulas : Obligations.RotatesAreUnmaskedFormulas := by
  unfold Obligations.RotatesAreUnmaskedFormulas
  refine ⟨?_, ?_⟩
  · exact twoOperandInteger_of_alu2 (g := fun s => rotateBy s.cfg.rotWidth rotateRight)
      (fun _ _ => rfl) fun s a _ => rotateBy_mapError_code fun hb => rotateRight_eq hb _ a
  · exact twoOperandInteger_of_alu2 (g := fun s => rotateBy s.cfg.rotWidth rotateLeft)
      (fun _ _ => rfl) fun s a _ => rotateBy_mapError_code fun hb => rotateLeft_eq hb _ a

end Sys2Proof.Machine
end

section
/-! The proofs of the statements about CMP and the jumps (spec/43_compare_branch.md). -/

namespace Sys2Proof.Machine

/-! What makes CMP raise, in the order of R300. -/

section
variable {a b : Token} {s : State} {e : Err}

theorem cmpEffect_of_length {ops : List Token} (h : ops.length ≠ 2) :
    cmpEffect ops s = .error (countError "CMP".toList 2 ops) := by
  simp [cmpEffect, twoOperands_of_length h]

theorem cmpEffect_of_readSrc_first_error (h : readSrc s a = .error e) :
    cmpEffect [a, b] s = .error e := by
  simp [cmpEffect, h]

theorem cmpEffect_of_readSrc_second_error {va : Value} (ha : SrcIs s a va)
    (h : readSrc s b = .error e) : cmpEffect [a, b] s = .error e := by
  simp [cmpEffect, readSrc_eq_ok.mpr ha, h]

theorem cmpEffect_of_first_text {x : Text} {vb : Value} (ha : SrcIs s a (.text x))
    (hb : SrcIs s b vb) : cmpEffect [a, b] s = .error (.typeMismatch a) := by
  simp [cmpEffect, readSrc_eq_ok.mpr ha, readSrc_eq_ok.mpr hb]

theorem cmpEffect_of_second_text {m : Int} {x : Text} (ha : SrcIs s a (.int m))
    (hb : SrcIs s b (.text x)) : cmpEffect [a, b] s = .error (.typeMismatch b) := by
  simp [cmpEffect, readSrc_eq_ok.mpr ha, readSrc_eq_ok.mpr hb]

end

/-- On two integers CMP commits the flag of R300 and advances. -/
theorem exec_cmp_of_ints {a b : Token} {s : State} {m n : Int} (ha : SrcIs s a (.int m))
    (hb : SrcIs s b (.int n)) (raw : Line) :
    exec (.cmp ⟨[a, b], raw⟩) s = .next { s with
      rflags := equalFlag m n, rip := s.rip + 1, events := .notify :: s.events } := by
  rw [exec_cmp, execCmp, cmpEffect_eq_ok.mpr ⟨a, b, m, n, rfl, ha, hb, rfl⟩, finish_ok]

@[simp] theorem equalFlag_self (m : Int) : equalFlag m m = 1 := if_pos rfl

theorem equalFlag_of_ne {m n : Int} (h : m ≠ n) : equalFlag m n = 0 := if_neg h

/-- Settles O19: each error of CMP is one of its effect's, and on two integers it commits the flag of
their equality. -/
theorem cmpSetsTheFlagOnEquality : Obligations.CmpSetsTheFlagOnEquality := by
  unfold Obligations.CmpSetsTheFlagOnEquality
  intro s raw
  have hexec : ∀ ops, exec (.cmp ⟨ops, raw⟩) s =
      finish s (Instr.cmp ⟨ops, raw⟩).raw (cmpEffect ops s) := fun _ => rfl
  refine ⟨fun ops hlen => raises_of_finish (hexec ops) (cmpEffect_of_length hlen), ?_⟩
  intro a b
  refine ⟨fun c hc => ?_, fun va ha => ⟨fun c hc => ?_, fun vb hb => ⟨?_, ?_, ?_, ?_⟩⟩⟩
  · obtain ⟨e, he, rfl⟩ := srcFails_iff.mp hc
    exact raises_of_finish (hexec _) (cmpEffect_of_readSrc_first_error he)
  · obtain ⟨e, he, rfl⟩ := srcFails_iff.mp hc
    exact raises_of_finish (hexec _) (cmpEffect_of_readSrc_second_error ha he)
  · rintro x rfl
    exact raises_of_finish (hexec _) (cmpEffect_of_first_text ha hb)
  · rintro m x rfl rfl
    exact raises_of_finish (hexec _) (cmpEffect_of_second_text ha hb)
  · rintro m rfl rfl
    rw [exec_cmp_of_ints ha hb, equalFlag_self]
  · rintro m n hne rfl rfl
    rw [exec_cmp_of_ints ha hb, equalFlag_of_ne hne]

/-! What the jump template does (R301): its errors in order, a taken jump, an untaken one. -/

section
variable {op addr : Token} {taken : BitVec 1 → Bool} {clears : Bool} {s : State} {n : Int}

theorem jump_of_length {ops : List Token} (h : ops.length ≠ 1) :
    jump op taken clears ops s = .error (countError op 1 ops) := by
  simp [jump, oneOperand_of_length h]

theorem jump_of_readSrc_error {e : Err} (h : readSrc s addr = .error e) :
    jump op taken clears [addr] s = .error e := by
  simp [jump, h]

theorem jump_of_text {x : Text} (h : SrcIs s addr (.text x)) :
    jump op taken clears [addr] s = .error (.typeMismatch addr) := by
  simp [jump, readSrc_eq_ok.mpr h]

/-- The implicit increment of a taken jump lands on the target. -/
theorem finish_jump_taken (h : SrcIs s addr (.int n)) (ht : taken s.rflags = true) (raw : Line) :
    finish s raw (jump op taken clears [addr] s) = .next { s with
      rip := n
      rflags := if clears then 0 else s.rflags
      events := .notify :: s.events } := by
  rw [jump_eq_ok.mpr ⟨addr, n, rfl, h, rfl⟩, finish_ok]
  simp only [ht, if_true, Int.sub_add_cancel]

theorem finish_jump_untaken (h : SrcIs s addr (.int n)) (ht : taken s.rflags = false) (raw : Line) :
    finish s raw (jump op taken clears [addr] s) = .next { s with
      rip := s.rip + 1
      rflags := if clears then 0 else s.rflags
      events := .notify :: s.events } := by
  rw [jump_eq_ok.mpr ⟨addr, n, rfl, h, rfl⟩, finish_ok]
  simp only [ht, Bool.false_eq_true, if_false]

end

/-- An instruction that runs `jump` on a test of the flag follows the template of R301 with the flags
that pass the test. -/
theorem jumpInstruction_of_jump {mk : Fields → Instr} {op : Token} {test : BitVec 1 → Bool}
    {taken : BitVec 1 → Prop} {clears : Bool}
    (hexec : ∀ F s, exec (mk F) s = finish s (mk F).raw (jump op test clears F.ops s))
    (htest : ∀ f, test f = true ↔ taken f) : JumpInstruction mk taken clears := by
  intro s raw
  refine ⟨fun ops hlen => raises_of_finish (hexec _ s) (jump_of_length hlen), ?_⟩
  intro addr
  have hexec₁ := hexec ⟨[addr], raw⟩ s
  refine ⟨fun c hc => ?_, fun x hx => raises_of_finish hexec₁ (jump_of_text hx),
    fun n hn => ⟨fun ht => ?_, fun ht => ?_⟩⟩
  · obtain ⟨e, he, rfl⟩ := srcFails_iff.mp hc
    exact raises_of_finish hexec₁ (jump_of_readSrc_error he)
  · rw [hexec₁, finish_jump_taken hn ((htest _).mpr ht)]
  · rw [← htest, Bool.not_eq_true] at ht
    rw [hexec₁, finish_jump_untaken hn ht]

/-! Which flags the tests pass (R57: the flag is 0 or 1). -/

theorem takenJge_iff {f : BitVec 1} : takenJge f = true ↔ f ≠ 1 := bne_iff_ne

theorem takenJle_iff {f : BitVec 1} : takenJle f = true ↔ f ≠ 0 := bne_iff_ne

/-- JGE behaves as JNE and JG (R307). -/
theorem takenJge_iff_zero : ∀ {f : BitVec 1}, takenJge f = true ↔ f = 0 := by decide

/-- JLE behaves as JL (R308). -/
theorem takenJle_iff_one : ∀ {f : BitVec 1}, takenJle f = true ↔ f = 1 := by decide

/-- Settles O20: JMP runs the jump template with a test that every flag passes. -/
theorem jmpAlwaysJumps : Obligations.JmpAlwaysJumps := by
  unfold Obligations.JmpAlwaysJumps
  exact jumpInstruction_of_jump (test := takenJmp) (fun _ _ => rfl) fun _ => iff_true_intro rfl

/-- Settles O21: JEQ runs the jump template with the test for 1, and clears. -/
theorem jeqJumpsOnOneAndClears : Obligations.JeqJumpsOnOneAndClears := by
  unfold Obligations.JeqJumpsOnOneAndClears
  exact jumpInstruction_of_jump (test := takenJeq) (fun _ _ => rfl) fun _ => beq_iff_eq

/-- Settles O22: JNE and JG run the jump template with the test for 0; JGE tests for not 1, which only
0 is. -/
theorem jneJgJgeJumpOnZero : Obligations.JneJgJgeJumpOnZero := by
  unfold Obligations.JneJgJgeJumpOnZero
  refine ⟨?_, ?_, ?_, ?_⟩
  · exact jumpInstruction_of_jump (test := takenJne) (fun _ _ => rfl) fun _ => beq_iff_eq
  · exact jumpInstruction_of_jump (test := takenJg) (fun _ _ => rfl) fun _ => beq_iff_eq
  · exact jumpInstruction_of_jump (fun _ _ => rfl) fun _ => takenJge_iff
  · exact jumpInstruction_of_jump (fun _ _ => rfl) fun _ => takenJge_iff_zero

/-- Settles O23: JL runs the jump template with the test for 1; JLE tests for not 0, which only 1
is. -/
theorem jlJleJumpOnOne : Obligations.JlJleJumpOnOne := by
  unfold Obligations.JlJleJumpOnOne
  refine ⟨?_, ?_, ?_⟩
  · exact jumpInstruction_of_jump (test := takenJl) (fun _ _ => rfl) fun _ => beq_iff_eq
  · exact jumpInstruction_of_jump (fun _ _ => rfl) fun _ => takenJle_iff
  · exact jumpInstruction_of_jump (fun _ _ => rfl) fun _ => takenJle_iff_one

end Sys2Proof.Machine
end

section
/-! SUPPORT. What makes PUSH and POP raise, one lemma per error in the order of R350 and R351, and what
they leave when they complete (spec/44_stack.md). -/

namespace Sys2Proof.Machine

/-! Instructions that end by `finish`. -/

/-- An instruction whose effect is two register writes completes with both, the later write winning
where they meet. -/
theorem completes_of_finish_two {i : Instr} {s : State} {e : Except Err State} {p q : Reg}
    {v w : Value} (hexec : exec i s = finish s i.raw e) (he : e = .ok ((s.setReg p v).setReg q w)) :
    ∃ t, CompletesWithRegs i s t ∧ t.reg q = w ∧ (p ≠ q → t.reg p = v) ∧
      ∀ x, x ≠ p → x ≠ q → t.reg x = s.reg x := by
  subst he
  refine ⟨((s.setReg p v).setReg q w).advance.emit .notify, ⟨hexec, rfl⟩, ?_, fun hpq => ?_,
    fun x hp hq => ?_⟩
  · simp
  · simp [State.reg_setReg_of_ne _ hpq]
  · simp [State.reg_setReg_of_ne _ hq, State.reg_setReg_of_ne _ hp]

/-- An end outside Faulted is a completion. -/
theorem finish_completed {s t : State} {raw : Line} {e : Except Err State}
    (h : finish s raw e = .next t) (hsafe : t.sched ≠ .faulted) :
    ∃ u, e = .ok u ∧ t = u.advance.emit .notify := by
  rcases finish_cases h with ⟨_, -, rfl⟩ | ⟨u, hu, rfl⟩
  · exact absurd (State.raise_sched ..) hsafe
  · exact ⟨u, hu, rfl⟩

/-! The stack index and its cell. -/

theorem stackIndex_of_int {s : State} {sp : Int} (h : s.reg .rsp = .int sp) :
    stackIndex s = .ok sp :=
  stackIndex_eq_ok.mpr h

theorem stackIndex_of_text {s : State} {x : Text} (h : s.reg .rsp = .text x) :
    stackIndex s = .error (.typeMismatch (Reg.name .rsp)) := by
  simp [stackIndex, h]

/-- A stack index selects at most one cell. -/
theorem cellIs_unique {c : Config} {a : Int} {i j : Nat} (hi : CellIs c a i) (hj : CellIs c a j) :
    i = j :=
  Except.ok.inj ((cellOf_eq_ok.mpr hi).symm.trans (cellOf_eq_ok.mpr hj))

/-- The RSP that a POP into `r` finds after writing `r`. -/
theorem reg_rsp_setReg_int {s : State} {sp : Int} (h : s.reg .rsp = .int sp) (r : Reg) (v : Int) :
    (s.setReg r (.int v)).reg .rsp = .int (if r = .rsp then v else sp) := by
  split
  case isTrue hr => rw [hr, State.reg_setReg_self]
  case isFalse hr => rw [State.reg_setReg_of_ne s (Ne.symm hr), h]

/-! The errors of PUSH, in the order of R350; a source that fails is `exec_push_of_readSrc_error`. -/

section
variable {src : Token} {s : State} {n sp : Int}

theorem pushEffect_of_length {ops : List Token} (h : ops.length ≠ 1) :
    pushEffect ops s = .error (countError "PUSH".toList 1 ops) := by
  simp [pushEffect, oneOperand_of_length h]

theorem pushEffect_of_source_text {x : Text} (hsrc : SrcIs s src (.text x)) :
    pushEffect [src] s = .error (.typeMismatch src) := by
  simp [pushEffect, readSrc_eq_ok.mpr hsrc]

theorem pushEffect_of_rsp_text {x : Text} (hsrc : SrcIs s src (.int n))
    (hsp : s.reg .rsp = .text x) : pushEffect [src] s = .error (.typeMismatch (Reg.name .rsp)) := by
  simp [pushEffect, readSrc_eq_ok.mpr hsrc, stackIndex_of_text hsp]

theorem pushEffect_of_noCell (hsrc : SrcIs s src (.int n)) (hsp : s.reg .rsp = .int sp)
    (hcell : NoCell s.cfg sp) : pushEffect [src] s = .error (.stackOutOfRange sp) := by
  simp [pushEffect, readSrc_eq_ok.mpr hsrc, stackIndex_of_int hsp, cellOf_of_noCell hcell]

theorem pushEffect_of_not_fits {i : Nat} (hsrc : SrcIs s src (.int n)) (hsp : s.reg .rsp = .int sp)
    (hcell : CellIs s.cfg sp i) (hfit : s.cfg.fits (sp - 1) = false) :
    pushEffect [src] s = .error (.valueOutOfRange (sp - 1)) := by
  simp [pushEffect, readSrc_eq_ok.mpr hsrc, stackIndex_of_int hsp, cellOf_eq_ok.mpr hcell, hfit]

end

/-! The errors of POP, in the order of R351: those before the order of POP matters, then those of each
order. -/

section
variable {d : Token} {r : Reg} {s : State} {sp : Int} {i : Nat}

theorem popEffect_of_length {ops : List Token} (h : ops.length ≠ 1) :
    popEffect ops s = .error (countError "POP".toList 1 ops) := by
  simp [popEffect, oneOperand_of_length h]

theorem popEffect_of_destRef_error {e : Err} (h : destRef d = .error e) :
    popEffect [d] s = .error e := by
  simp [popEffect, h]

theorem popEffect_of_readThenIncrement (horder : s.cfg.popOrder = .readThenIncrement) :
    popEffect [r.name] s = popReadThenIncrement r s := by
  simp [popEffect, horder]

theorem popEffect_of_incrementThenRead (horder : s.cfg.popOrder = .incrementThenRead) :
    popEffect [r.name] s = popIncrementThenRead r s := by
  simp [popEffect, horder]

theorem popEffect_of_rsp_text {x : Text} (hsp : s.reg .rsp = .text x) :
    popEffect [r.name] s = .error (.typeMismatch (Reg.name .rsp)) := by
  cases horder : s.cfg.popOrder with
  | readThenIncrement =>
    simp [popEffect_of_readThenIncrement horder, popReadThenIncrement, stackIndex_of_text hsp]
  | incrementThenRead =>
    simp [popEffect_of_incrementThenRead horder, popIncrementThenRead, stackIndex_of_text hsp]

theorem popReadThenIncrement_of_noCell (hsp : s.reg .rsp = .int sp) (hcell : NoCell s.cfg sp) :
    popReadThenIncrement r s = .error (.stackOutOfRange sp) := by
  simp [popReadThenIncrement, stackIndex_of_int hsp, cellOf_of_noCell hcell]

theorem popReadThenIncrement_of_cell_not_fits (hsp : s.reg .rsp = .int sp)
    (hcell : CellIs s.cfg sp i) (hfit : s.cfg.fits (Memory.read s.mem i) = false) :
    popReadThenIncrement r s = .error (.valueOutOfRange (Memory.read s.mem i)) := by
  simp [popReadThenIncrement, stackIndex_of_int hsp, cellOf_eq_ok.mpr hcell, hfit]

theorem popReadThenIncrement_of_rsp_not_fits {n : Int} (hsp : s.reg .rsp = .int sp)
    (hcell : CellIs s.cfg sp i) (hfit : s.cfg.fits (Memory.read s.mem i) = true)
    (hn : n = (if r = .rsp then Memory.read s.mem i else sp) + 1) (hfit' : s.cfg.fits n = false) :
    popReadThenIncrement r s = .error (.valueOutOfRange n) := by
  subst hn
  have hrsp := stackIndex_of_int (reg_rsp_setReg_int hsp r (Memory.read s.mem i))
  simp only [popReadThenIncrement, stackIndex_of_int hsp, cellOf_eq_ok.mpr hcell, fit_of_fits hfit,
    bind_ok, hrsp, fit_of_not_fits hfit', bind_error]

theorem popIncrementThenRead_of_noCell (hsp : s.reg .rsp = .int sp)
    (hcell : NoCell s.cfg (sp + 1)) :
    popIncrementThenRead r s = .error (.stackOutOfRange (sp + 1)) := by
  simp [popIncrementThenRead, stackIndex_of_int hsp, cellOf_of_noCell hcell]

theorem popIncrementThenRead_of_rsp_not_fits (hsp : s.reg .rsp = .int sp)
    (hcell : CellIs s.cfg (sp + 1) i) (hfit : s.cfg.fits (sp + 1) = false) :
    popIncrementThenRead r s = .error (.valueOutOfRange (sp + 1)) := by
  simp [popIncrementThenRead, stackIndex_of_int hsp, cellOf_eq_ok.mpr hcell, hfit]

theorem popIncrementThenRead_of_cell_not_fits (hsp : s.reg .rsp = .int sp)
    (hcell : CellIs s.cfg (sp + 1) i) (hfit : s.cfg.fits (sp + 1) = true)
    (hfit' : s.cfg.fits (Memory.read s.mem i) = false) :
    popIncrementThenRead r s = .error (.valueOutOfRange (Memory.read s.mem i)) := by
  simp [popIncrementThenRead, stackIndex_of_int hsp, cellOf_eq_ok.mpr hcell, hfit, hfit']

end

/-! What a PUSH, a POP and an INC RSP that completed have left. -/

section
variable {s t : State} {raw : Line} {sp : Int}

theorem push_completed {src : Token} {n : Int} (hsrc : SrcIs s src (.int n))
    (hsp : s.reg .rsp = .int sp) (hexec : exec (.push ⟨[src], raw⟩) s = .next t)
    (hsafe : t.sched ≠ .faulted) : ∃ i, CellIs s.cfg sp i ∧ t.cfg = s.cfg ∧
      t.mem = Memory.write s.mem i n ∧ t.reg .rsp = .int (sp - 1) := by
  rw [exec_push] at hexec
  obtain ⟨_, hu, rfl⟩ := finish_completed hexec hsafe
  obtain ⟨src', m, sp', i, hops, hm, hsp', hcell, -, rfl⟩ := pushEffect_eq_ok.mp hu
  obtain rfl : src = src' := List.singleton_inj.mp hops
  obtain rfl : n = m := Value.int.inj (Except.ok.inj
    ((readSrc_eq_ok.mpr hsrc).symm.trans (readSrc_eq_ok.mpr hm)))
  obtain rfl : sp = sp' := Value.int.inj (hsp.symm.trans hsp')
  exact ⟨i, hcell, rfl, rfl, by simp⟩

theorem pop_completed_of_readThenIncrement {r : Reg} (hr : r ≠ .rsp)
    (horder : s.cfg.popOrder = .readThenIncrement) (hsp : s.reg .rsp = .int sp)
    (hexec : exec (.pop ⟨[r.name], raw⟩) s = .next t) (hsafe : t.sched ≠ .faulted) :
    ∃ i, CellIs s.cfg sp i ∧ t.reg r = .int (Memory.read s.mem i) ∧
      t.reg .rsp = .int (sp + 1) := by
  rw [exec_pop, execPop, popEffect_of_readThenIncrement horder] at hexec
  obtain ⟨_, hu, rfl⟩ := finish_completed hexec hsafe
  obtain ⟨sp', i, n, hsp', hcell, -, hn, -, rfl⟩ := popReadThenIncrement_eq_ok.mp hu
  obtain rfl : sp = sp' := Value.int.inj (hsp.symm.trans hsp')
  rw [if_neg hr] at hn
  exact ⟨i, hcell, by simp [State.reg_setReg_of_ne _ hr], by simp [hn]⟩

theorem pop_completed_of_incrementThenRead {r : Reg} (hr : r ≠ .rsp)
    (horder : s.cfg.popOrder = .incrementThenRead) (hsp : s.reg .rsp = .int sp)
    (hexec : exec (.pop ⟨[r.name], raw⟩) s = .next t) (hsafe : t.sched ≠ .faulted) :
    ∃ i, CellIs s.cfg (sp + 1) i ∧ t.reg r = .int (Memory.read s.mem i) ∧
      t.reg .rsp = .int (sp + 1) := by
  rw [exec_pop, execPop, popEffect_of_incrementThenRead horder] at hexec
  obtain ⟨_, hu, rfl⟩ := finish_completed hexec hsafe
  obtain ⟨sp', i, hsp', hcell, -, -, rfl⟩ := popIncrementThenRead_eq_ok.mp hu
  obtain rfl : sp = sp' := Value.int.inj (hsp.symm.trans hsp')
  exact ⟨i, hcell, by simp, by simp [State.reg_setReg_of_ne _ (Ne.symm hr)]⟩

theorem inc_completed {r : Reg} {a : Int} (ha : s.reg r = .int a)
    (hexec : exec (.inc ⟨[r.name], raw⟩) s = .next t) (hsafe : t.sched ≠ .faulted) :
    t.cfg = s.cfg ∧ t.mem = s.mem ∧ t.reg r = .int (a + 1) := by
  rw [exec_inc] at hexec
  obtain ⟨_, hu, rfl⟩ := finish_completed hexec hsafe
  obtain ⟨q, b, hops, hb, -, rfl⟩ := alu1_eq_ok.mp hu
  obtain rfl : r = q := Reg.name_injective (List.singleton_inj.mp hops)
  obtain rfl : a = b := Value.int.inj (ha.symm.trans hb)
  exact ⟨rfl, rfl, by simp⟩

end

end Sys2Proof.Machine
end

section
/-! The proofs of the statements about PUSH and POP (spec/44_stack.md). -/

namespace Sys2Proof.Machine

/-- Settles O25: each error of PUSH is one of its effect's, and a completed PUSH is one memory write,
whose reads `Memory.read_write` gives, under one register write. -/
theorem pushStoresAtTheStackIndex : Obligations.PushStoresAtTheStackIndex := by
  unfold Obligations.PushStoresAtTheStackIndex
  intro s raw hwf
  have hexec : ∀ ops, exec (.push ⟨ops, raw⟩) s =
      finish s (Instr.push ⟨ops, raw⟩).raw (pushEffect ops s) := fun _ => rfl
  refine ⟨fun ops hlen => raises_of_finish (hexec ops) (pushEffect_of_length hlen), ?_⟩
  intro src
  refine ⟨fun c hc => ?_, fun x hx => raises_of_finish (hexec _) (pushEffect_of_source_text hx),
    fun n hn => ⟨fun x hx => raises_of_finish (hexec _) (pushEffect_of_rsp_text hn hx), ?_⟩⟩
  · obtain ⟨e, he, rfl⟩ := srcFails_iff.mp hc
    exact raises_of_exec (exec_push_of_readSrc_error he raw)
  intro sp hsp
  refine ⟨fun hcell => raises_of_finish (hexec _) (pushEffect_of_noCell hn hsp hcell),
    fun i hi => ⟨fun hfit => raises_of_finish (hexec _) (pushEffect_of_not_fits hn hsp hi hfit),
      fun hfit => ?_⟩⟩
  have hpush := pushEffect_eq_ok.mpr ⟨src, n, sp, i, rfl, hn, hsp, hi, hfit, rfl⟩
  refine ⟨_, (hexec _).trans (congrArg (finish s raw) hpush), rfl, ⟨?_, fun q hq => ?_⟩, ?_,
    fun j hj => ?_⟩
  · exact State.reg_setReg_self _ _ _
  · exact State.reg_setReg_of_ne _ hq _
  · exact (Memory.read_write i n hwf i).trans (if_pos rfl)
  · exact (Memory.read_write i n hwf j).trans (if_neg (Ne.symm hj))

/-- Settles O26: each error of POP is one of its effect's in the order that the configuration gives,
and a completed POP is two register writes: the destination's and then RSP's, or RSP's first. -/
theorem popReadsAtTheStackIndex : Obligations.PopReadsAtTheStackIndex := by
  unfold Obligations.PopReadsAtTheStackIndex
  intro s raw
  have hexec : ∀ ops, exec (.pop ⟨ops, raw⟩) s =
      finish s (Instr.pop ⟨ops, raw⟩).raw (popEffect ops s) := fun _ => rfl
  refine ⟨fun ops hlen => raises_of_finish (hexec ops) (popEffect_of_length hlen), ?_⟩
  intro d
  refine ⟨fun c hc => ?_, ?_⟩
  · obtain ⟨e, he, rfl⟩ := destFails_iff.mp hc
    exact raises_of_finish (hexec _) (popEffect_of_destRef_error he)
  rintro r rfl
  refine ⟨fun x hx => raises_of_finish (hexec _) (popEffect_of_rsp_text hx), ?_⟩
  intro sp hsp
  refine ⟨fun horder => ?_, fun horder => ?_⟩
  · have hpop := (hexec [r.name]).trans
      (congrArg (finish s raw) (popEffect_of_readThenIncrement horder))
    refine ⟨fun hcell => raises_of_finish hpop (popReadThenIncrement_of_noCell hsp hcell), ?_⟩
    intro i hi n hn
    have hbadCell : s.cfg.fits (Memory.read s.mem i) = false → Raises (.pop ⟨[r.name], raw⟩) s 10 :=
      fun hfit => raises_of_finish hpop (popReadThenIncrement_of_cell_not_fits hsp hi hfit)
    refine ⟨hbadCell, fun hfit' => ?_, fun hfit hfit' => ?_⟩
    · cases hfit : s.cfg.fits (Memory.read s.mem i) with
      | false => exact hbadCell hfit
      | true =>
        exact raises_of_finish hpop (popReadThenIncrement_of_rsp_not_fits hsp hi hfit hn hfit')
    · exact completes_of_finish_two hpop
        (popReadThenIncrement_eq_ok.mpr ⟨sp, i, n, hsp, hi, hfit, hn, hfit', rfl⟩)
  · have hpop := (hexec [r.name]).trans
      (congrArg (finish s raw) (popEffect_of_incrementThenRead horder))
    refine ⟨fun hcell => raises_of_finish hpop (popIncrementThenRead_of_noCell hsp hcell), ?_⟩
    intro i hi
    have hbadIndex : s.cfg.fits (sp + 1) = false → Raises (.pop ⟨[r.name], raw⟩) s 10 :=
      fun hfit => raises_of_finish hpop (popIncrementThenRead_of_rsp_not_fits hsp hi hfit)
    refine ⟨hbadIndex, fun hfit' => ?_, fun hfit hfit' => ?_⟩
    · cases hfit : s.cfg.fits (sp + 1) with
      | false => exact hbadIndex hfit
      | true =>
        exact raises_of_finish hpop (popIncrementThenRead_of_cell_not_fits hsp hi hfit hfit')
    · obtain ⟨t, ht, hdest, hrsp, hother⟩ := completes_of_finish_two hpop
        (popIncrementThenRead_eq_ok.mpr ⟨sp, i, hsp, hi, hfit, hfit', rfl⟩)
      exact ⟨t, ht, hdest, fun hr => hrsp (Ne.symm hr), fun q hr hq => hother q hq hr⟩

/-- Settles O27: the PUSH writes the cell of `sp` alone; the POP reads the cell of `sp - 1` in the
default order, and the cell of `sp` in the other order or after an INC RSP. -/
theorem pushThenPopFollowsThePopOrder : Obligations.PushThenPopFollowsThePopOrder := by
  unfold Obligations.PushThenPopFollowsThePopOrder
  intro s t u raw raw' raw'' src r n sp hwf hsrc hsp hr hpush ht
  obtain ⟨k, hk, hcfg, hmem, hrsp⟩ := push_completed hsrc hsp hpush ht
  have hread : ∀ j, Memory.read t.mem j = if k = j then n else Memory.read s.mem j :=
    fun j => hmem ▸ Memory.read_write k n hwf j
  refine ⟨fun hpop hu => ?_, fun v hinc hv hpop hu horder => ?_⟩
  · cases horder : s.cfg.popOrder with
    | readThenIncrement =>
      obtain ⟨j, hj, hdest, hrsp'⟩ :=
        pop_completed_of_readThenIncrement hr (hcfg ▸ horder) hrsp hpop hu
      refine ⟨by rw [hrsp', Int.sub_add_cancel], nofun, fun _ i hi hni => ?_⟩
      obtain rfl : j = i := cellIs_unique (hcfg ▸ hj) hi
      have hkj : k ≠ j := fun h => hni (h ▸ hk)
      rw [hdest, hread, if_neg hkj]
    | incrementThenRead =>
      obtain ⟨j, hj, hdest, hrsp'⟩ :=
        pop_completed_of_incrementThenRead hr (hcfg ▸ horder) hrsp hpop hu
      rw [Int.sub_add_cancel] at hj hrsp'
      refine ⟨hrsp', fun _ => ?_, nofun⟩
      rw [hdest, hread, if_pos (cellIs_unique hk (hcfg ▸ hj))]
  · obtain ⟨hcfg', hmem', hrsp'⟩ := inc_completed hrsp hinc hv
    rw [hcfg] at hcfg'
    rw [Int.sub_add_cancel] at hrsp'
    obtain ⟨j, hj, hdest, hrsp''⟩ :=
      pop_completed_of_readThenIncrement hr (hcfg' ▸ horder) hrsp' hpop hu
    refine ⟨?_, hrsp''⟩
    rw [hdest, hmem', hread, if_pos (cellIs_unique hk (hcfg' ▸ hj))]

end Sys2Proof.Machine
end

section
/-! SUPPORT. What makes DEFINE, CALL print, HLT and INCLUDE raise, one lemma per error in the order of
R380, R382, R384 and R385, and what CALL print renders (spec/45_define_call_halt.md). -/

namespace Sys2Proof.Machine

/-! DEFINE: the errors of its operands, then those of its effect. -/

theorem defineOperands_of_length {ops : List Token} (h : ops.length < 3) :
    defineOperands ops = .error (countError "DEFINE".toList 3 ops) := by
  unfold defineOperands
  split
  case h_1 => simp only [List.length_cons] at h; omega
  case h_2 => rfl

theorem defineOperands_of_not_isDigits {d len w : Token} {ws : List Token} (h : ¬ IsDigits len) :
    defineOperands (d :: len :: w :: ws) = .error (.malformedInstruction len) := by
  simp [defineOperands, isImmediate_eq_false.mpr h]

/-- A literal that is no quoted text has no text to strip the quotes of (R138, R139). -/
theorem stripQuotes_joinTokens_eq_none {w : Token} {ws : List Token}
    (h : ∀ t, ¬ QuotedLiteral w ws t) : stripQuotes (joinTokens (w :: ws)) = none := by
  refine Option.eq_none_iff_forall_ne_some.mpr fun t ht => ?_
  obtain ⟨hraw, hquote⟩ := stripQuotes_eq_some.mp ht
  exact h t ⟨hquote, (joinTokens_cons w ws).symm.trans hraw⟩

theorem defineOperands_of_not_quotedLiteral {d len w : Token} {ws : List Token}
    (hlen : IsDigits len) (h : ∀ t, ¬ QuotedLiteral w ws t) :
    defineOperands (d :: len :: w :: ws) = .error (.malformedInstruction w) := by
  simp [defineOperands, isImmediate_iff.mpr hlen, stripQuotes_joinTokens_eq_none h]

theorem defineOperands_of_quotedLiteral {d len w : Token} {ws : List Token} {t : Text}
    (hlen : IsDigits len) (h : QuotedLiteral w ws t) :
    defineOperands (d :: len :: w :: ws) = .ok (d, len, t) :=
  defineOperands_eq_ok.mpr ⟨w, ws, rfl, hlen, h.2, h.1⟩

theorem immediate_of_not_fits {c : Config} {t : Token} (h : c.fits (immediateValue t) = false) :
    immediate c t = .error (.valueOutOfRange (immediateValue t)) := by
  simp [immediate, h]

section
variable {ops : List Token} {d len : Token} {t : Text} {s : State} {r : Reg} {e : Err}

theorem defineEffect_of_defineOperands_error (h : defineOperands ops = .error e) :
    defineEffect ops s = .error e := by
  simp [defineEffect, h]

theorem defineEffect_of_destRef_error (hops : defineOperands ops = .ok (d, len, t))
    (h : destRef d = .error e) : defineEffect ops s = .error e := by
  simp [defineEffect, hops, h]

theorem defineEffect_of_not_fits (hops : defineOperands ops = .ok (r.name, len, t))
    (hfit : s.cfg.fits (immediateValue len) = false) :
    defineEffect ops s = .error (.valueOutOfRange (immediateValue len)) := by
  simp [defineEffect, hops, immediate_of_not_fits hfit]

theorem defineEffect_of_length_ne (hops : defineOperands ops = .ok (r.name, len, t))
    (hfit : s.cfg.fits (immediateValue len) = true) (h : t.length ≠ immediateValue len) :
    defineEffect ops s = .error (.lengthMismatch (immediateValue len) t.length) := by
  simp [defineEffect, hops, immediate_eq_ok.mpr ⟨hfit, rfl⟩, h]

end

/-! CALL print. -/

/-- `print` is a name of the call table, and the one the model answers itself (R381, R382). -/
theorem exec_call_print (args : List Token) (raw : Line) (s : State) :
    exec (.call ⟨"print".toList :: args, raw⟩) s = finish s raw (printEffect args s) := rfl

theorem printEffect_of_length {args : List Token} {s : State} (h : args.length ≠ 1) :
    printEffect args s = .error (countError "print".toList 1 args) := by
  simp [printEffect, oneOperand_of_length h]

theorem printEffect_of_readSrc_error {src : Token} {s : State} {e : Err}
    (h : readSrc s src = .error e) : printEffect [src] s = .error e := by
  simp [printEffect, h]

/-- The model's rendering is the one R382 describes. -/
theorem renders_render (v : Value) : Renders v (render v) := by
  match v with
  | .int (.ofNat n) => exact .inl ⟨Int.natCast_nonneg n, spellsNat_renderNat n⟩
  | .int (.negSucc n) =>
    exact .inr ⟨Int.negSucc_lt_zero n, renderNat (n + 1), rfl, spellsNat_renderNat (n + 1)⟩
  | .text _ => exact rfl

/-! HLT and INCLUDE. -/

@[simp] theorem noOperand_nil (op : Token) : noOperand op [] = .ok () := rfl

theorem noOperand_of_ne_nil {op : Token} {ops : List Token} (h : ops ≠ []) :
    noOperand op ops = .error (countError op 0 ops) := by
  cases ops with
  | nil => exact absurd rfl h
  | cons => rfl

/-- INCLUDE raises the error its effect raises. -/
theorem raises_incl_of_includeEffect_error {ops : List Token} {raw : Line} {s : State} {e : Err}
    (h : includeEffect ops s = .error e) : Raises (.incl ⟨ops, raw⟩) s e.code :=
  raises_of_exec (by rw [exec_incl, execInclude, h, finishInPlace_error]; rfl)

theorem includeEffect_of_refuse {ops : List Token} {s : State} (h : s.cfg.includeMode = .refuse) :
    includeEffect ops s = .error (.unsupportedInstruction "INCLUDE".toList) := by
  simp [includeEffect, h]

theorem includeEffect_of_length {ops : List Token} {s : State} (hmode : s.cfg.includeMode = .nested)
    (h : ops.length ≠ 1) : includeEffect ops s = .error (countError "INCLUDE".toList 1 ops) := by
  simp [includeEffect, hmode, oneOperand_of_length h]

theorem includeEffect_of_load_none {path : Token} {s : State} (hmode : s.cfg.includeMode = .nested)
    (h : s.cfg.load path = none) : includeEffect [path] s = .error (.includeNotFound path) := by
  simp [includeEffect, hmode, h]

end Sys2Proof.Machine
end

section
/-! The proofs of the statements about DEFINE, CALL print, HLT, INCLUDE and the unimplemented opcodes
(spec/45_define_call_halt.md). -/

namespace Sys2Proof.Machine

/-- Settles O28: the errors of the operands are those of `defineOperands`, which answers a quoted
literal with its text; the later ones, and the write, are those of the effect on that answer. -/
theorem defineStoresTheQuotedText : Obligations.DefineStoresTheQuotedText := by
  unfold Obligations.DefineStoresTheQuotedText
  intro s raw
  have hexec : ∀ ops, exec (.define ⟨ops, raw⟩) s =
      finish s (Instr.define ⟨ops, raw⟩).raw (defineEffect ops s) := fun _ => rfl
  have hmalformed : ∀ ops e, defineOperands ops = .error e → Raises (.define ⟨ops, raw⟩) s e.code :=
    fun ops _ h => raises_of_finish (hexec ops) (defineEffect_of_defineOperands_error h)
  refine ⟨fun ops hshort => hmalformed ops _ (defineOperands_of_length hshort), ?_⟩
  intro d len w ws
  refine ⟨fun hlen => hmalformed _ _ (defineOperands_of_not_isDigits hlen),
    fun hlen => ⟨fun hnone => ?_, fun t hquote hraw => ?_⟩⟩
  · have hunquoted : ∀ t, ¬ QuotedLiteral w ws t :=
      fun t ⟨hquote, hraw⟩ => (hnone t).elim hquote (absurd hraw)
    exact hmalformed _ _ (defineOperands_of_not_quotedLiteral hlen hunquoted)
  have hops : defineOperands (d :: len :: w :: ws) = .ok (d, len, t) :=
    defineOperands_of_quotedLiteral hlen ⟨hquote, hraw⟩
  refine ⟨fun c hc => ?_, ?_⟩
  · obtain ⟨e, he, rfl⟩ := destFails_iff.mp hc
    exact raises_of_finish (hexec _) (defineEffect_of_destRef_error hops he)
  rintro r rfl
  refine ⟨fun hfit => raises_of_finish (hexec _) (defineEffect_of_not_fits hops hfit),
    fun hfit => ⟨fun hne => ?_, fun heq => ?_⟩⟩
  · exact raises_of_finish (hexec _) (defineEffect_of_length_ne hops hfit hne)
  · exact completes_of_finish (hexec _)
      (defineEffect_eq_ok.mpr ⟨r, len, t, hops, hfit, heq, rfl⟩)

/-- Settles O29: each error of CALL print is one of its effect's, and a resolved argument is rendered as
R382 says. -/
theorem callPrintWritesTheOutputBuffer : Obligations.CallPrintWritesTheOutputBuffer := by
  unfold Obligations.CallPrintWritesTheOutputBuffer
  intro s raw
  refine ⟨fun args hlen =>
    raises_of_finish (exec_call_print args raw s) (printEffect_of_length hlen), fun src => ⟨?_, ?_⟩⟩
  · intro c hc
    obtain ⟨e, he, rfl⟩ := srcFails_iff.mp hc
    exact raises_of_finish (exec_call_print _ raw s) (printEffect_of_readSrc_error he)
  · intro v hv
    refine ⟨render v, renders_render v, ?_⟩
    rw [exec_call_print, printEffect_eq_ok.mpr ⟨src, v, rfl, hv, rfl⟩, finish_ok]

/-- Settles O33: without operand tokens the effect is the state itself, under the implicit
increment. -/
theorem hltOnlyAdvances : Obligations.HltOnlyAdvances := by
  unfold Obligations.HltOnlyAdvances
  intro s raw
  refine ⟨?_, fun ops hops => ?_⟩
  · rw [exec_hlt, execHlt, noOperand_nil]
    exact finish_ok s s raw
  · have hraise : exec (.hlt ⟨ops, raw⟩) s = .next (s.raise raw (countError "HLT".toList 0 ops)) := by
      rw [exec_hlt, execHlt, noOperand_of_ne_nil hops]
      exact finish_error s raw _
    exact raises_of_exec hraise

/-- Settles O34: each error of INCLUDE is one of its effect's in the mode of the configuration, and a
found program is entered as `includeEffect` says. -/
theorem includeRunsTheLoadedProgramOrIsRefused :
    Obligations.IncludeRunsTheLoadedProgramOrIsRefused := by
  unfold Obligations.IncludeRunsTheLoadedProgramOrIsRefused
  intro s raw
  refine ⟨fun hmode => ⟨fun ops hlen => ?_, fun path => ⟨fun hnone => ?_, fun q hq => ?_⟩⟩,
    fun hmode ops => ?_⟩
  · exact raises_incl_of_includeEffect_error (includeEffect_of_length hmode hlen)
  · exact raises_incl_of_includeEffect_error (includeEffect_of_load_none hmode hnone)
  · rw [exec_incl, execInclude, includeEffect_eq_ok.mpr ⟨hmode, path, q, rfl, hq, rfl⟩,
      finishInPlace_ok]
  · exact raises_incl_of_includeEffect_error (includeEffect_of_refuse hmode)

/-- Settles O35: each of the five takes the fault entry with its own opcode, and reads no operand. -/
theorem unimplementedOpcodesAreUnsupported : Obligations.UnimplementedOpcodesAreUnsupported := by
  unfold Obligations.UnimplementedOpcodesAreUnsupported
  intro s ops raw
  refine ⟨?_, ?_, ?_, ?_, ?_⟩
  · exact raises_of_exec (e := .unsupportedInstruction "NOT".toList) rfl
  · exact raises_of_exec (e := .unsupportedInstruction "RET".toList) rfl
  · exact raises_of_exec (e := .unsupportedInstruction "STRING".toList) rfl
  · exact raises_of_exec (e := .unsupportedInstruction "COV".toList) rfl
  · exact raises_of_exec (e := .unsupportedInstruction "JE".toList) rfl

end Sys2Proof.Machine
end

section
/-! The proofs of the statements about `run(P)`, a rejected `step()`, `setDebug` and `setRate`
(spec/46_scheduler.md R437, R438, R440, R441). -/

namespace Sys2Proof.Machine

/-- The end test writes no field but `sched` (R433). -/
theorem endTest_frame (s : State) : endTest s = { s with sched := (endTest s).sched } := by
  rcases endTest_cases s with h | ⟨-, -, h⟩ <;> rw [h]

/-- The whole state an accepted `run(P)` leaves (R437). -/
theorem startRun_eq (P : Program) (s : State) : startRun P s = { s with
    prog := P
    incStack := []
    rip := 0
    fault := none
    errorInfo := none
    sched := if P = [] then .halted else .running } := by
  rw [← startRun_sched P s]
  exact endTest_frame _

theorem command_run_accepted {s : State} (P : Program) (h : s.sched = .idle ∨ s.sched = .halted) :
    command (.run P) s = .next (startRun P (s.emit .accepted)) := if_pos h

theorem command_run_rejected {s : State} (P : Program)
    (h : ¬ (s.sched = .idle ∨ s.sched = .halted)) :
    command (.run P) s = .next (s.emit (.rejected .runRejected)) := if_neg h

theorem command_step_rejected {s : State} (h : s.sched ≠ .paused) :
    command .step s = .next (s.emit (.rejected .stepWhileNotPaused)) := if_neg h

/-- Settles O48: the step is the host's command, and `sched` decides whether it is accepted. -/
theorem runStartsAProgramOnlyFromIdleOrHalted :
    Obligations.RunStartsAProgramOnlyFromIdleOrHalted := by
  unfold Obligations.RunStartsAProgramOnlyFromIdleOrHalted
  intro s P rest hturns
  rw [step_of_host hturns]
  refine ⟨fun haccepts => ?_, fun hrejects => ?_⟩
  · rw [command_run_accepted (s := { s with turns := rest }) P haccepts, startRun_eq]
    rfl
  · have hnot : ¬ (s.sched = .idle ∨ s.sched = .halted) := by
      rcases hrejects with h | h | h <;> simp [h]
    exact command_run_rejected P hnot

/-- Settles O49: outside Paused `step()` only answers, and each of the two settings is one field. -/
theorem otherCommandsDoOnlyWhatTheySay : Obligations.OtherCommandsDoOnlyWhatTheySay := by
  unfold Obligations.OtherCommandsDoOnlyWhatTheySay
  intro s rest
  refine ⟨fun hturns hpaused => ?_, fun b hturns => ?_, fun n hturns => ?_⟩
  · rw [step_of_host hturns]
    exact command_step_rejected hpaused
  · exact step_of_host hturns
  · exact step_of_host hturns

end Sys2Proof.Machine
end

section
/-! The proof of the statement about the end of every instruction (spec/60_exceptions.md R501, R503). -/

namespace Sys2Proof.Machine

/-- `t` is the end of a completed `i` begun on `s` (R434, R443): the run goes on as before, and one
`Notify` was sent, or none for a skip line. -/
def CompletesWithOneNotify (i : Instr) (s t : State) : Prop :=
  t.sched = s.sched ∧ t.fault = s.fault ∧ t.errorInfo = s.errorInfo ∧
    t.events = (if i = .skipLine then s.events else .notify :: s.events)

/-- `t` is a fault entry of `i` begun on `s` that is precise (R501, R503): the error is recorded and
reported, and nothing that an instruction writes has changed. -/
def FaultsPrecisely (i : Instr) (s t : State) : Prop :=
  t.sched = .faulted ∧ t.regs = s.regs ∧ t.rflags = s.rflags ∧ t.mem = s.mem ∧
    t.out = s.out ∧ t.rip = s.rip ∧ t.prog = s.prog ∧ t.incStack = s.incStack ∧
    ∃ e : Err, t.errorInfo = some e ∧
      t.fault = some ⟨e.code, s.rip, i.raw, s.incStack.length⟩ ∧
      t.events = .faultReport ⟨e.code, s.rip, i.raw, s.incStack.length⟩ :: s.events

theorem faultsPrecisely_raise (i : Instr) (s : State) (e : Err) :
    FaultsPrecisely i s (s.raise i.raw e) :=
  ⟨rfl, rfl, rfl, rfl, rfl, rfl, rfl, rfl, e, rfl, rfl, rfl⟩

/-- A host call whose answer fails is precise too: using up the answer writes only the host's side of
the state (`hostAnswers`, `draws`), which a precise fault says nothing of. -/
theorem faultsPrecisely_answered_raise (i : Instr) (s : State) (e : Err) :
    FaultsPrecisely i s (s.answered.raise i.raw e) :=
  faultsPrecisely_raise i s.answered e

theorem completesWithOneNotify_of_writesOnly {i : Instr} {s t : State}
    (h : WritesOnly s t (if i = .skipLine then s.events else .notify :: s.events)) :
    CompletesWithOneNotify i s t := by
  unfold WritesOnly at h
  rw [h]
  exact ⟨rfl, rfl, rfl, rfl⟩

/-- Every end of an instruction is one of the two. -/
theorem completes_or_faultsPrecisely_of_ends {i : Instr} {s t : State} (h : Ends i s t) :
    CompletesWithOneNotify i s t ∨ FaultsPrecisely i s t := by
  rcases h with ⟨e, rfl⟩ | ⟨e, rfl⟩ | hWrites
  · exact .inr (faultsPrecisely_raise i s e)
  · exact .inr (faultsPrecisely_answered_raise i s e)
  · exact .inl (completesWithOneNotify_of_writesOnly hWrites)

/-- Settles O38: every instruction answers a next state, and each of the ways it can end there
completes or is a precise fault. -/
theorem everyInstructionCompletesOrFaultsPrecisely :
    Obligations.EveryInstructionCompletesOrFaultsPrecisely := by
  unfold Obligations.EveryInstructionCompletesOrFaultsPrecisely
  intro i s
  obtain ⟨t, hExec⟩ := exec_next i s
  exact ⟨t, hExec, completes_or_faultsPrecisely_of_ends (exec_ends hExec)⟩

end Sys2Proof.Machine
end

section
/-! The proofs of the statements about `reset()` (spec/70_reset_and_hazards.md R600, R601). -/

namespace Sys2Proof.Machine

/-- The whole step a `reset()` is: the reset state, with the turn used and the command answered. -/
theorem step_of_reset {s : State} {rest : List Turn} (h : s.turns = .host .reset :: rest) :
    step s = .next (({ s with turns := rest } : State).afterReset.emit .accepted) :=
  step_of_host h

/-- A reset writes constants, and neither the turns nor the events: a reset state stays as it is under a
further one, whatever turns and events it has been given since. -/
theorem afterReset_of_afterReset (s : State) (turns : List Turn) (events : List Event) :
    ({ s.afterReset with turns := turns, events := events } : State).afterReset =
      { s.afterReset with turns := turns, events := events } := rfl

/-- Settles O51: the next state is the reset state, whose fields are read one by one. -/
theorem resetClearsTheMachine : Obligations.ResetClearsTheMachine := by
  unfold Obligations.ResetClearsTheMachine
  intro s rest hturns
  refine ⟨_, step_of_reset hturns, fun r => ?_, ?_⟩
  · rw [State.reg_emit, State.reg_afterReset]
  · simp

/-- Settles O52: the second reset finds a reset state, which it leaves. -/
theorem resetIsIdempotent : Obligations.ResetIsIdempotent := by
  unfold Obligations.ResetIsIdempotent
  intro s t u rest hturns hfirst hsecond
  rw [step_of_reset hturns] at hfirst
  obtain rfl := Host.Outcome.next.inj hfirst
  rw [step_of_reset rfl] at hsecond
  obtain rfl := Host.Outcome.next.inj hsecond
  exact congrArg (State.emit · .accepted)
    (afterReset_of_afterReset { s with turns := .host .reset :: rest } rest (.accepted :: s.events))

end Sys2Proof.Machine
end

section
/-! The proofs of the statements about the encoder, the decoder and the skip lines
(spec/30_encoding.md R131 to R135, R152, R154). -/

namespace Sys2Proof

/-! The opcode table. -/

/-- An instruction of the opcode table is found under its own name (R135). -/
theorem ofOpcode_opcodeName {i : Instr} (hs : i ≠ .skipLine) (hu : ∀ u, i ≠ .unknownOpcode u)
    (raw : Line) : ofOpcode i.opcodeName ⟨i.operands, raw⟩ = i.withRaw raw := by
  cases i with
  | mov f => exact Laws.OpcodeLookup.mov f hs hu raw
  | add f => exact Laws.OpcodeLookup.add f hs hu raw
  | sub f => exact Laws.OpcodeLookup.sub f hs hu raw
  | mul f => exact Laws.OpcodeLookup.mul f hs hu raw
  | div f => exact Laws.OpcodeLookup.div f hs hu raw
  | inc f => exact Laws.OpcodeLookup.inc f hs hu raw
  | dec f => exact Laws.OpcodeLookup.dec f hs hu raw
  | neg f => exact Laws.OpcodeLookup.neg f hs hu raw
  | andOp f => exact Laws.OpcodeLookup.andOp f hs hu raw
  | orOp f => exact Laws.OpcodeLookup.orOp f hs hu raw
  | xorOp f => exact Laws.OpcodeLookup.xorOp f hs hu raw
  | shl f => exact Laws.OpcodeLookup.shl f hs hu raw
  | shr f => exact Laws.OpcodeLookup.shr f hs hu raw
  | ror f => exact Laws.OpcodeLookup.ror f hs hu raw
  | rol f => exact Laws.OpcodeLookup.rol f hs hu raw
  | cmp f => exact Laws.OpcodeLookup.cmp f hs hu raw
  | jmp f => exact Laws.OpcodeLookup.jmp f hs hu raw
  | jeq f => exact Laws.OpcodeLookup.jeq f hs hu raw
  | jne f => exact Laws.OpcodeLookup.jne f hs hu raw
  | jg f => exact Laws.OpcodeLookup.jg f hs hu raw
  | jl f => exact Laws.OpcodeLookup.jl f hs hu raw
  | jge f => exact Laws.OpcodeLookup.jge f hs hu raw
  | jle f => exact Laws.OpcodeLookup.jle f hs hu raw
  | push f => exact Laws.OpcodeLookup.push f hs hu raw
  | pop f => exact Laws.OpcodeLookup.pop f hs hu raw
  | define f => exact Laws.OpcodeLookup.define f hs hu raw
  | call f => exact Laws.OpcodeLookup.call f hs hu raw
  | hlt f => exact Laws.OpcodeLookup.hlt f hs hu raw
  | incl f => exact Laws.OpcodeLookup.incl f hs hu raw
  | notOp f => exact Laws.OpcodeLookup.notOp f hs hu raw
  | ret f => exact Laws.OpcodeLookup.ret f hs hu raw
  | string f => exact Laws.OpcodeLookup.string f hs hu raw
  | cov f => exact Laws.OpcodeLookup.cov f hs hu raw
  | je f => exact Laws.OpcodeLookup.je f hs hu raw
  | skipLine => exact Laws.OpcodeLookup.skipLine hs hu raw
  | unknownOpcode u => exact Laws.OpcodeLookup.unknownOpcode u hs hu raw

/-- The opcode table's spellings are tokens that begin no comment, in upper case already. -/
theorem opcodeTable_spellings : ∀ name ∈ opcodeTable.map Prod.fst,
    Token.wellFormed name = true ∧ name.head? ≠ some ';' ∧ foldCase name = name := by decide

/-- An instruction that is no skip line and no unknown opcode has a name of the opcode table. -/
theorem opcodeName_mem_opcodeTable {i : Instr} (hs : i ≠ .skipLine)
    (hu : ∀ u, i ≠ .unknownOpcode u) : i.opcodeName ∈ opcodeTable.map Prod.fst := by
  cases i with
  | skipLine => exact absurd rfl hs
  | unknownOpcode u => exact absurd rfl (hu u)
  | _ => simp [Instr.opcodeName, opcodeTable]

/-- Whatever the lookup answers has the opcode it was asked for. -/
theorem opcodeName_ofOpcode (op : Token) (f : Fields) : (ofOpcode op f).opcodeName = op := by
  rcases ofOpcode_cases op f with ⟨-, h⟩ | ⟨h, -⟩
  · rw [h]
    rfl
  · exact h

/-! Well-formed instructions, one equation per kind. -/

theorem wellFormed_iff_of_listed {i : Instr} (hs : i ≠ .skipLine)
    (hu : ∀ u, i ≠ .unknownOpcode u) : i.wellFormed = true ↔
      (∀ t ∈ i.operands, Token.wellFormed t = true) ∧ isSkip i.raw = false ∧
        ∃ t, tokens i.raw = t :: i.operands ∧ foldCase t = i.opcodeName := by
  have checks : i.wellFormed = (i.operands.all Token.wellFormed && (!isSkip i.raw &&
      match tokens i.raw with
      | [] => false
      | t :: ops => foldCase t == i.opcodeName && ops == i.operands)) := by
    cases i with
    | skipLine => exact absurd rfl hs
    | unknownOpcode u => exact absurd rfl (hu u)
    | _ => rfl
  rw [checks]
  cases tokens i.raw <;> simp [and_comm]

theorem isUnknownOpcode_iff {t : Token} : Token.isUnknownOpcode t = true ↔
    Token.wellFormed t = true ∧ t.head? ≠ some ';' ∧ foldCase t = t ∧
      t ∉ opcodeTable.map Prod.fst := by
  simp only [Token.isUnknownOpcode, Bool.and_eq_true, bne_iff_ne, beq_iff_eq, List.all_eq_true,
    List.mem_map, not_exists, not_and, and_assoc, ne_eq]

theorem wellFormed_unknownOpcode_iff {u : UnknownFields} :
    (Instr.unknownOpcode u).wellFormed = true ↔ Token.isUnknownOpcode u.tok = true ∧
      isSkip u.raw = false ∧ ∃ t ts, tokens u.raw = t :: ts ∧ foldCase t = u.tok := by
  simp only [Instr.wellFormed, Instr.tokensWellFormed, Instr.agreesWithRaw]
  cases tokens u.raw <;> simp

/-- Settles O2: the line that the encoder writes, and the text that a well-formed instruction
carries, are both cut into a token of its opcode and its operand tokens, and the table holds the
instruction under that opcode. -/
theorem decodeOfEncodeIsTheInstruction : Obligations.DecodeOfEncodeIsTheInstruction := by
  unfold Obligations.DecodeOfEncodeIsTheInstruction
  intro i hwf
  by_cases hs : i = .skipLine
  · subst hs
    exact ⟨rfl, rfl⟩
  by_cases hu : ∃ u, i = .unknownOpcode u
  · obtain ⟨u, rfl⟩ := hu
    obtain ⟨htok, hskip, t, ts, htokens, hfold⟩ := wellFormed_unknownOpcode_iff.mp hwf
    obtain ⟨hop, hcomment, hcaps, hunlisted⟩ := isUnknownOpcode_iff.mp htok
    have lookup := fun f => ofOpcode_of_not_mem hunlisted f
    refine ⟨?_, ?_⟩
    · show decode (lineOf u.tok []) = _
      rw [decode_lineOf hop hcomment (by simp), hcaps, lookup]
      rfl
    · show decode u.raw = _
      rw [decode_of_tokens hskip htokens, hfold, lookup]
  · rw [not_exists] at hu
    obtain ⟨hops, hskip, t, htokens, hfold⟩ := (wellFormed_iff_of_listed hs hu).mp hwf
    obtain ⟨hop, hcomment, hcaps⟩ := opcodeTable_spellings _ (opcodeName_mem_opcodeTable hs hu)
    refine ⟨?_, ?_⟩
    · rw [encode, decode_lineOf hop hcomment hops, hcaps, ofOpcode_opcodeName hs hu]
    · rw [decode_of_tokens hskip htokens, hfold, ofOpcode_opcodeName hs hu, Instr.withRaw_raw]

/-- Settles O3: the lookup's answer carries what the tokenizer cut, and the tokenizer cuts tokens.
-/
theorem everyLineDecodesToAWellFormedInstruction :
    Obligations.EveryLineDecodesToAWellFormedInstruction := by
  unfold Obligations.EveryLineDecodesToAWellFormedInstruction
  intro l
  refine ⟨?_, decode_raw⟩
  by_cases hdec : decode l = .skipLine
  · rw [hdec]
    rfl
  have hskip : isSkip l = false := isSkip_of_decode_ne_skipLine hdec
  obtain ⟨t, ts, htokens, hcomment⟩ := tokens_of_not_isSkip hskip
  have hcut : ∀ u ∈ t :: ts, Token.wellFormed u = true := htokens ▸ tokens_wellFormed l
  rw [decode_of_tokens hskip htokens]
  rcases ofOpcode_cases (foldCase t) ⟨ts, l⟩ with ⟨hunlisted, hop⟩ | ⟨hname, hfields, hs, hu⟩
  · rw [hop, wellFormed_unknownOpcode_iff, isUnknownOpcode_iff]
    refine ⟨⟨Token.wellFormed_foldCase (hcut t (by simp)), head_foldCase hcomment,
      foldCase_idem t, fun hmem => ?_⟩, hskip, t, ts, htokens, rfl⟩
    obtain ⟨row, hrow, hname⟩ := List.mem_map.mp hmem
    exact absurd (List.all_eq_true.mp hunlisted row hrow) (by simp [hname])
  · rw [wellFormed_iff_of_listed hs hu, Instr.operands, Instr.raw, hfields, hname]
    exact ⟨fun u hu => hcut u (by simp [hu]), hskip, t, htokens, rfl⟩

/-! Skip lines. -/

/-- A line decodes to a skip line exactly when the skip test accepts it (R132, R154). -/
theorem decode_eq_skipLine_iff {l : Line} : decode l = .skipLine ↔ isSkip l = true := by
  refine ⟨fun h => ?_, fun h => by simp [decode, h]⟩
  by_contra hskip
  rw [Bool.not_eq_true] at hskip
  obtain ⟨t, ts, htokens, -⟩ := tokens_of_not_isSkip hskip
  have hraw : (ofOpcode (foldCase t) ⟨ts, l⟩).opcodeName = foldCase t := opcodeName_ofOpcode _ _
  rw [← decode_of_tokens hskip htokens, h] at hraw
  have hne := (Token.wellFormed_iff.mp (tokens_wellFormed l t (by simp [htokens]))).1
  exact hne (List.map_eq_nil_iff.mp hraw.symm)

/-- The skip test accepts a line exactly when nothing or a comment follows its whitespace (R132). -/
theorem isSkip_iff {l : Line} : isSkip l = true ↔ ∃ blanks rest : Line,
    l = blanks ++ rest ∧ (∀ c ∈ blanks, isSpace c = true) ∧
      (rest = [] ∨ ∃ more, rest = ';' :: more) := by
  constructor
  · intro h
    refine ⟨l.takeWhile isSpace, l.dropWhile isSpace, List.takeWhile_append_dropWhile.symm,
      fun c hc => List.mem_takeWhile_imp hc, ?_⟩
    unfold isSkip at h
    split at h
    · exact .inl ‹_›
    · exact .inr ⟨_, by rw [‹l.dropWhile isSpace = _›, eq_of_beq h]⟩
  · rintro ⟨blanks, rest, rfl, hblanks, hrest⟩
    rw [isSkip_blanks_append hblanks]
    rcases hrest with rfl | ⟨more, rfl⟩
    · rfl
    · exact isSkip_cons (c := ';') rfl more

/-- Settles O4: decoding to a skip line is the skip test, and its whitespace is that of R131. -/
theorem skipLinesAreBlankOrComment : Obligations.SkipLinesAreBlankOrComment := by
  unfold Obligations.SkipLinesAreBlankOrComment
  intro l
  simp only [decode_eq_skipLine_iff, isSkip_iff, isSpace_iff_isBlank]

/-! Letter case. -/

/-- A token spells a name in ASCII capitals exactly when it folds to it (R134). -/
theorem caseVariant_iff_foldCase {u name : Token}
    (hcaps : ∀ c ∈ name, 65 ≤ c.toNat ∧ c.toNat ≤ 90) :
    Machine.CaseVariant u name ↔ foldCase u = name := by
  refine ⟨fun h => ?_, fun h => h ▸ Machine.caseVariant_foldCase u⟩
  induction h with
  | nil => rfl
  | @cons c d u name hcd _ ih =>
    have hd := hcaps d (by simp)
    have hfold : foldChar c = d := by
      apply char_eq_of_toNat
      rw [toNat_foldChar]
      rcases hcd with rfl | ⟨-, -, hc⟩
      · exact if_neg (by omega)
      · rw [if_pos (by omega), hc, Nat.add_sub_cancel]
    have htail : foldCase u = name := ih fun x hx => hcaps x (by simp [hx])
    show foldChar c :: foldCase u = d :: name
    rw [hfold, htail]

/-- Settles O5: the line decodes to what the lookup of the folded token answers, which has the
folded token as its name. -/
theorem opcodeLettersMatchInEitherCase : Obligations.OpcodeLettersMatchInEitherCase := by
  unfold Obligations.OpcodeLettersMatchInEitherCase
  intro i u hwf hs hu htoken hcomment
  have hops := ((wellFormed_iff_of_listed hs hu).mp hwf).1
  have hcaps : ∀ c ∈ i.opcodeName, 65 ≤ c.toNat ∧ c.toNat ≤ 90 := by
    obtain ⟨row, hrow, hname⟩ := List.mem_map.mp (opcodeName_mem_opcodeTable hs hu)
    exact hname ▸ opcodeTable_capitals row hrow
  rw [decode_lineOf htoken hcomment hops, caseVariant_iff_foldCase hcaps]
  constructor
  · intro h
    rw [← opcodeName_ofOpcode (foldCase u) ⟨i.operands, lineOf u i.operands⟩, h,
      Instr.withRaw_opcodeName]
  · intro h
    rw [h, ofOpcode_opcodeName hs hu]

/-! Whitespace. -/

/-- The tokens of a token, blanks and tokens in turn, and trailing blanks (R133). -/
theorem tokens_spaced {op : Token} {ops : List (Line × Token)} {trail : Line}
    (hop : Token.wellFormed op = true)
    (hops : ∀ p ∈ ops, p.1 ≠ [] ∧ (∀ c ∈ p.1, isSpace c = true) ∧ Token.wellFormed p.2 = true)
    (htrail : ∀ c ∈ trail, isSpace c = true) :
    tokens (op ++ (ops.flatMap (fun p => p.1 ++ p.2) ++ trail)) = op :: ops.map Prod.snd := by
  induction ops generalizing op with
  | nil =>
    have hstop : trail = [] ∨ ∃ c l, trail = c :: l ∧ isSpace c = true := by
      cases trail with
      | nil => exact .inl rfl
      | cons c l => exact .inr ⟨c, l, rfl, htrail c (by simp)⟩
    have hnone : tokens trail = [] := by simpa using tokens_blanks_append htrail []
    rw [List.flatMap_nil, List.nil_append, tokens_token_append hop hstop, hnone]
    rfl
  | cons p ops ih =>
    obtain ⟨hne, hblank, htoken⟩ := hops p (by simp)
    obtain ⟨c, b, hp⟩ := List.exists_cons_of_ne_nil hne
    have hstop : isSpace c = true := hblank c (by simp [hp])
    have hrest := ih htoken fun q hq => hops q (by simp [hq])
    rw [List.flatMap_cons, List.append_assoc, List.append_assoc,
      tokens_token_append hop (.inr ⟨c, _, by rw [hp]; rfl, hstop⟩), tokens_blanks_append hblank,
      hrest]
    rfl

/-- Settles O6: both lines are cut into the same tokens, or are both comments. -/
theorem whitespaceAroundTokensCarriesNoMeaning :
    Obligations.WhitespaceAroundTokensCarriesNoMeaning := by
  unfold Obligations.WhitespaceAroundTokensCarriesNoMeaning
  intro lead op ops trail l hlead htrail hop hops hl
  simp only [← isSpace_iff_isBlank] at hlead htrail hops
  obtain rfl : l = lead ++ (op ++ (ops.flatMap (fun p => p.1 ++ p.2) ++ trail)) := by
    simpa using hl
  have htokens := (tokens_blanks_append hlead _).trans (tokens_spaced hop hops htrail)
  have hskip := isSkip_blanks_append hlead (op ++ (ops.flatMap (fun p => p.1 ++ p.2) ++ trail))
  by_cases hcomment : op.head? = some ';'
  · obtain ⟨more, rfl⟩ := List.head?_eq_some_iff.mp hcomment
    have hwritten : isSkip (lineOf (';' :: more) (ops.map Prod.snd)) = true :=
      isSkip_cons (c := ';') rfl _
    rw [decode_eq_skipLine_iff.mpr (hskip.trans (isSkip_cons rfl _)),
      decode_eq_skipLine_iff.mpr hwritten]
    rfl
  · rw [isSkip_token_append hop hcomment] at hskip
    have hwritten : ∀ t ∈ ops.map Prod.snd, Token.wellFormed t = true := by
      rw [List.forall_mem_map]
      exact fun p hp => (hops p hp).2.2
    rw [decode_of_tokens hskip htokens, decode_lineOf hop hcomment hwritten,
      (ofOpcode_raw (foldCase op) _ _).2]

/-- Settles O1: the model decodes each of the lines. -/
theorem sampleLinesDecodeAsTheSpecSays : Obligations.SampleLinesDecodeAsTheSpecSays := by
  unfold Obligations.SampleLinesDecodeAsTheSpecSays
  refine ⟨by decide, by decide, ?_, by decide⟩
  decide

end Sys2Proof
end

section
/-! The proof of the statement about immediates (spec/30_encoding.md R141). -/

namespace Sys2Proof.Machine

/-- The digits of a token as numbers, the least significant first. -/
def digitValues (t : Token) : List Nat :=
  (t.map (fun c => c.toNat - 48)).reverse

/-- The value of an immediate is what its digits are in base 10 (R141). -/
theorem immediateValue_eq_ofDigits (t : Token) :
    immediateValue t = Nat.ofDigits 10 (digitValues t) := by
  induction t using List.reverseRecOn with
  | nil => rfl
  | append_singleton t c ih =>
    simp only [digitValues] at ih ⊢
    rw [immediateValue_append, ih, List.map_append, List.reverse_append, List.map_singleton,
      List.reverse_singleton, List.singleton_append, Nat.ofDigits_cons, Nat.add_comm]

/-- A token of digits that does not begin with a zero has the digits of its value. -/
theorem digitValues_eq_digits {t : Token} (hdigits : IsDigits t) (hzero : t.head? ≠ some '0') :
    digitValues t = Nat.digits 10 (immediateValue t) := by
  rw [immediateValue_eq_ofDigits]
  refine (Nat.digits_ofDigits 10 (by decide) _ (fun d hd => ?_) (fun hne => ?_)).symm
  · obtain ⟨c, hc, rfl⟩ := List.mem_map.mp (List.mem_reverse.mp hd)
    have := hdigits.2 c hc
    omega
  · cases t with
    | nil => exact absurd rfl hdigits.1
    | cons c t =>
      have hc := hdigits.2 c (by simp)
      have hcode : c.toNat ≠ 48 := fun h => hzero (by rw [char_eq_of_toNat (d := '0') h]; rfl)
      simp only [digitValues, List.map_cons, List.reverse_cons, List.getLast_append_singleton]
      omega

/-- A token of digits can be read back from its digit values. -/
theorem map_digitValues {t : Token} (ht : IsDigits t) :
    (digitValues t).reverse.map (fun d => Char.ofNat (48 + d)) = t := by
  rw [digitValues, List.reverse_reverse, List.map_map]
  refine (List.map_congr_left (g := id) fun c hc => ?_).trans (List.map_id t)
  have hcode : 48 + (c.toNat - 48) = c.toNat := Nat.add_sub_cancel' (ht.2 c hc).1
  rw [Function.comp_apply, hcode, Char.ofNat_toNat, id]

/-- Tokens of digits with the same digit values are one token. -/
theorem eq_of_digitValues_eq {t u : Token} (ht : IsDigits t) (hu : IsDigits u)
    (h : digitValues t = digitValues u) : t = u := by
  rw [← map_digitValues ht, h, map_digitValues hu]

/-- A canonical spelling begins with a zero only for the number zero, which is spelled `0` alone. -/
theorem head_zero_iff_of_spellsNat {t : Token} {n : Nat} (h : SpellsNat t n) :
    t.head? = some '0' ↔ n = 0 := by
  obtain ⟨hdigits, hvalue, hlead⟩ := h
  refine ⟨fun hz => ?_, fun hn => ?_⟩
  · rw [← hvalue, hlead hz]
    rfl
  · by_contra hz
    have hnone : digitValues t = [] := by
      rw [digitValues_eq_digits hdigits hz, hvalue, hn, Nat.digits_zero]
    exact hdigits.1 (by simpa [digitValues] using hnone)

/-- A number has one canonical spelling. -/
theorem spellsNat_unique {t u : Token} {n : Nat} (ht : SpellsNat t n) (hu : SpellsNat u n) :
    t = u := by
  by_cases hn : n = 0
  · rw [ht.2.2 ((head_zero_iff_of_spellsNat ht).mpr hn),
      hu.2.2 ((head_zero_iff_of_spellsNat hu).mpr hn)]
  · have htz := mt (head_zero_iff_of_spellsNat ht).mp hn
    have huz := mt (head_zero_iff_of_spellsNat hu).mp hn
    refine eq_of_digitValues_eq ht.1 hu.1 ?_
    rw [digitValues_eq_digits ht.1 htz, digitValues_eq_digits hu.1 huz, ht.2.1, hu.2.1]

/-- Settles O9: the model's rendering spells every number, canonical spellings are the numbers'
digits in base 10, and the value is a fold over the digits. -/
theorem immediatesSpellNumbersInBaseTen : Obligations.ImmediatesSpellNumbersInBaseTen := by
  unfold Obligations.ImmediatesSpellNumbersInBaseTen
  refine ⟨fun n => ⟨renderNat n, spellsNat_renderNat n⟩, fun t u n => spellsNat_unique,
    fun t => rfl, fun t k hk => ?_⟩
  rw [immediateValue_append, toNat_ofNat_digit hk, Nat.add_sub_cancel_left]

end Sys2Proof.Machine
end

section
/-! The proofs of the statements about bits and about rotating there and back (spec/42_bitwise.md
R250, R257). -/

namespace Sys2Proof.Machine

/-- Bit `k` in the words of R250 is Lean's bit `k`. -/
theorem bitOf_eq_one_iff_testBit (k : Nat) (a : Int) : bitOf k a = 1 ↔ a.testBit k = true := by
  have hpos : (0 : Int) < 2 ^ k := by positivity
  cases a with
  | ofNat m =>
    have hquot : (m : Int) / 2 ^ k = ((m / 2 ^ k : Nat) : Int) := by push_cast; rfl
    show ((m : Int) / 2 ^ k) % 2 = 1 ↔ m.testBit k = true
    rw [hquot, Nat.testBit_eq_decide_div_mod_eq, decide_eq_true_eq]
    omega
  | negSucc m =>
    have hquot : Int.negSucc m / 2 ^ k = -(((m / 2 ^ k : Nat) : Int) + 1) := by
      rw [Int.negSucc_ediv m hpos]
      push_cast
      rfl
    show (Int.negSucc m / 2 ^ k) % 2 = 1 ↔ (!m.testBit k) = true
    rw [hquot, Nat.testBit_eq_decide_div_mod_eq, Bool.not_eq_true', decide_eq_false_iff_not]
    omega

/-- Settles O15: the model's operations are Lean's, whose bits are the operations on the bits. -/
theorem bitwiseResultsAreBitByBit : Obligations.BitwiseResultsAreBitByBit := by
  unfold Obligations.BitwiseResultsAreBitByBit
  intro a b k
  simp only [bitOf_eq_one_iff_testBit, bitAnd_eq_land, bitOr_eq_lor, bitXor_eq_xor,
    Int.testBit_land, Int.testBit_lor, Int.testBit_lxor]
  cases a.testBit k <;> cases b.testBit k <;> decide

/-! The shifts and rotates of natural numbers. -/

theorem shiftLeft_natCast (n k : Nat) : shiftLeft n k = ((n <<< k : Nat) : Int) := by
  rw [shiftLeft, Int.toNat_natCast, Nat.shiftLeft_eq]
  push_cast
  rfl

theorem shiftRight_natCast (n k : Nat) : shiftRight n k = ((n >>> k : Nat) : Int) := by
  rw [shiftRight_eq, Int.toNat_natCast, Nat.shiftRight_eq_div_pow]
  push_cast
  rfl

theorem rotateLeft_natCast {w k : Nat} (hk : k ≤ w) (n : Nat) :
    rotateLeft w n k = ((n <<< k ||| n >>> (w - k) : Nat) : Int) := by
  rw [rotateLeft, ← Nat.cast_sub hk, shiftLeft_natCast, shiftRight_natCast]
  rfl

theorem rotateRight_natCast {w k : Nat} (hk : k ≤ w) (n : Nat) :
    rotateRight w n k = ((n >>> k ||| n <<< (w - k) : Nat) : Int) := by
  rw [rotateRight, ← Nat.cast_sub hk, shiftLeft_natCast, shiftRight_natCast]
  rfl

/-- Rotating a `w`-bit number left and then right by `k` leaves it in the low `w` bits: each bit
comes back from where the first rotate put it, inside the field or above it. -/
theorem rotated_back_mod_two_pow {w k n : Nat} (hk : k ≤ w) (hn : n < 2 ^ w) :
    ((n <<< k ||| n >>> (w - k)) >>> k ||| (n <<< k ||| n >>> (w - k)) <<< (w - k)) % 2 ^ w =
      n := by
  have habove : ∀ j, w ≤ j → n.testBit j = false := fun j hj =>
    Nat.testBit_lt_two_pow (hn.trans_le (Nat.pow_le_pow_right (by decide) hj))
  refine Nat.eq_of_testBit_eq fun i => ?_
  simp only [Nat.testBit_mod_two_pow, Nat.testBit_or, Nat.testBit_shiftRight, Nat.testBit_shiftLeft]
  by_cases hi : i < w
  · have hback : k + i - k = i := by omega
    have hhigh : n.testBit (w - k + (k + i)) = false := habove _ (by omega)
    by_cases hwrap : w - k ≤ i
    · have hlow : ¬ k ≤ i - (w - k) := by omega
      have hround : w - k + (i - (w - k)) = i := by omega
      simp [hi, hback, hlow, hhigh, hwrap, hround]
    · simp [hi, hback, hhigh, hwrap]
  · simp [hi, habove i (by omega)]

/-- Settles O18: both rotates of a natural number are shifts of it, and every bit below 32 comes
back. -/
theorem rotateLeftThenRightKeepsTheLowBits : Obligations.RotateLeftThenRightKeepsTheLowBits := by
  unfold Obligations.RotateLeftThenRightKeepsTheLowBits
  intro a b ha hlt hb hle
  obtain ⟨n, rfl⟩ := Int.eq_ofNat_of_zero_le ha
  obtain ⟨k, rfl⟩ := Int.eq_ofNat_of_zero_le hb
  have hk : k ≤ 32 := by exact_mod_cast hle
  have hn : n < 2 ^ 32 := by exact_mod_cast hlt
  rw [rotateLeft_natCast hk, rotateRight_natCast hk]
  exact_mod_cast rotated_back_mod_two_pow hk hn

end Sys2Proof.Machine
end

section
/-! The proof of the statement about the data memory (spec/20_memory.md R102, R109). -/

namespace Sys2Proof.Machine

/-- A memory in canonical form that reads 0 everywhere lists nothing. -/
theorem Memory.eq_nil_of_read_zero {m : Memory} (h : Memory.wf m = true)
    (hzero : ∀ j, Memory.read m j = 0) : m = [] := by
  cases m with
  | nil => rfl
  | cons p m =>
    obtain ⟨a, v⟩ := p
    have hv : v ≠ 0 := ((Memory.wf_cons a v m).mp h).2.1
    exact absurd (by simpa using hzero a) hv

/-- The first listed cell of one of two canonical memories that read alike is not below that of the
other, which would read 0 there. -/
theorem Memory.first_cell_le {a b : Nat} {v w : Int} {m n : Memory}
    (hm : Memory.wf ((a, v) :: m) = true) (hn : Memory.wf ((b, w) :: n) = true)
    (hread : ∀ j, Memory.read ((a, v) :: m) j = Memory.read ((b, w) :: n) j) : b ≤ a := by
  by_contra hlt
  obtain ⟨-, hv, -⟩ := (Memory.wf_cons a v m).mp hm
  obtain ⟨habove, -, -⟩ := (Memory.wf_cons b w n).mp hn
  have hzero : Memory.read ((b, w) :: n) a = 0 := by
    refine Memory.read_of_lt fun p hp => ?_
    rcases List.mem_cons.mp hp with rfl | hp
    · exact Nat.lt_of_not_le hlt
    · exact (Nat.lt_of_not_le hlt).trans (habove p hp)
  rw [← hread a, Memory.read_cons, if_pos rfl] at hzero
  exact hv hzero

/-- Canonical memories that read the same everywhere are equal (R109). -/
theorem Memory.eq_of_read_eq {m n : Memory} (hm : Memory.wf m = true) (hn : Memory.wf n = true)
    (hread : ∀ j, Memory.read m j = Memory.read n j) : m = n := by
  induction m generalizing n with
  | nil => exact (Memory.eq_nil_of_read_zero hn fun j => (hread j).symm).symm
  | cons p m ih =>
    obtain ⟨a, v⟩ := p
    cases n with
    | nil => exact Memory.eq_nil_of_read_zero hm hread
    | cons q n =>
      obtain ⟨b, w⟩ := q
      obtain rfl : a = b := Nat.le_antisymm (Memory.first_cell_le hn hm fun j => (hread j).symm)
        (Memory.first_cell_le hm hn hread)
      obtain rfl : v = w := by simpa using hread a
      obtain ⟨hma, -, hm'⟩ := (Memory.wf_cons a v m).mp hm
      obtain ⟨hna, -, hn'⟩ := (Memory.wf_cons a v n).mp hn
      have htails : ∀ j, Memory.read m j = Memory.read n j := by
        intro j
        by_cases hj : a = j
        · rw [← hj, Memory.read_of_lt hma, Memory.read_of_lt hna]
        · simpa [hj] using hread j
      rw [ih hm' hn' htails]

/-- Settles O45: the laws of reading after a write, and that reading tells canonical memories
apart. -/
theorem memoryReadsTheLastWrite : Obligations.MemoryReadsTheLastWrite := by
  unfold Obligations.MemoryReadsTheLastWrite
  intro m i n hm
  refine ⟨?_, fun j hj => ?_, Memory.wf_write i n hm, fun m' hm' => Memory.eq_of_read_eq hm hm'⟩
  · rw [Memory.read_write i n hm, if_pos rfl]
  · rw [Memory.read_write i n hm, if_neg hj.symm]

end Sys2Proof.Machine
end

section
/-! SUPPORT. What every instruction can leave: one predicate whose constructors are the kinds of
ends an instruction has, and that every end of `exec` is one of them (spec/46_scheduler.md R434).
-/

namespace Sys2Proof.Machine

/-- The jump `i` resolves its target to `n` (R301). -/
def JumpTargetIs (s : State) (i : Instr) (n : Int) : Prop :=
  match i with
  | .jmp f | .jeq f | .jne f | .jg f | .jl f | .jge f | .jle f =>
    ∃ addr, f.ops = [addr] ∧ SrcIs s addr (.int n)
  | _ => False

/-- Executing `i` on `s` may leave `t`: the fault entry, or what each kind of instruction commits.
-/
inductive ExecResult (s : State) : Instr → State → Prop where
  | raised (i : Instr) (e : Err) : ExecResult s i (s.raise i.raw e)
  /-- A failing host call has used the host's answer up (log entry 3). -/
  | callFailed (f : Fields) (e : Err) : ExecResult s (.call f) (s.answered.raise f.raw e)
  | wroteReg {i : Instr} {r : Reg} (v : Value) (hdest : DestinationIs i r.name)
      (hpop : ∀ f, i ≠ .pop f) : ExecResult s i ((s.setReg r v).advance.emit .notify)
  | compared (f : Fields) (flag : BitVec 1) :
      ExecResult s (.cmp f) ({ s with rflags := flag }.advance.emit .notify)
  | jumped {i : Instr} {n rip : Int} {flag : BitVec 1} (htarget : JumpTargetIs s i n)
      (hrip : rip = s.rip + 1 ∨ rip = n) (hflag : (∀ f, i ≠ .jeq f) → flag = s.rflags) :
      ExecResult s i ({ s with rip := rip, rflags := flag }.emit .notify)
  | pushed (f : Fields) (n : Int) {sp : Int} {k : Nat} (hsp : s.reg .rsp = .int sp)
      (hcell : CellIs s.cfg sp k) :
      ExecResult s (.push f) ((State.setReg { s with mem := Memory.write s.mem k n } .rsp
        (.int (sp - 1))).advance.emit .notify)
  | popped {f : Fields} {r p q : Reg} (v w : Value) (hops : f.ops = [r.name])
      (hp : p = .rsp ∨ p = r) (hq : q = .rsp ∨ q = r) :
      ExecResult s (.pop f) (((s.setReg p v).setReg q w).advance.emit .notify)
  | printed (f : Fields) (out : Option Text) :
      ExecResult s (.call f) ({ s with out := out }.advance.emit .notify)
  | called {f : Fields} {regs : Vector Value 24} (out : Option Text)
      (hregs : ∀ r, State.reg { s with regs := regs } r ≠ s.reg r → r.name ∈ f.ops.tail) :
      ExecResult s (.call f) ({ s.answered with regs := regs, out := out }.advance.emit .notify)
  | halted (f : Fields) : ExecResult s (.hlt f) (s.advance.emit .notify)
  | included (f : Fields) (q : Program) :
      ExecResult s (.incl f) ({ s with
        incStack := ⟨s.prog, s.rip + 1⟩ :: s.incStack, prog := q, rip := 0 }.emit .notify)
  | skipped : ExecResult s .skipLine s.advance

/-- An instruction that ends by `finish` raised, or ends as its effect says. -/
theorem execResult_of_finish {i : Instr} {s t : State} {r : Except Err State}
    (hok : ∀ u, r = .ok u → ExecResult s i (u.advance.emit .notify))
    (h : finish s i.raw r = .next t) : ExecResult s i t := by
  rcases finish_cases h with ⟨e, -, rfl⟩ | ⟨u, hu, rfl⟩
  · exact .raised i e
  · exact hok u hu

section
variable {i : Instr} {s t : State} {op : Token} {ops : List Token}

theorem execResult_of_mov (hdest : ∀ tok, ops.head? = some tok → DestinationIs i tok)
    (hpop : ∀ f, i ≠ .pop f) (h : finish s i.raw (movEffect ops s) = .next t) :
    ExecResult s i t := by
  refine execResult_of_finish (fun u hu => ?_) h
  obtain ⟨_, r, v, rfl, -, -, rfl⟩ := movEffect_eq_ok.mp hu
  exact .wroteReg v (hdest _ rfl) hpop

theorem execResult_of_alu2 {g : Int → Int → Except Err Int}
    (hdest : ∀ tok, ops.head? = some tok → DestinationIs i tok) (hpop : ∀ f, i ≠ .pop f)
    (h : finish s i.raw (alu2 op g ops s) = .next t) : ExecResult s i t := by
  refine execResult_of_finish (fun u hu => ?_) h
  obtain ⟨_, r, _, _, n, rfl, -, -, -, -, rfl⟩ := alu2_eq_ok.mp hu
  exact .wroteReg (.int n) (hdest _ rfl) hpop

theorem execResult_of_alu1 {g : Int → Int}
    (hdest : ∀ tok, ops.head? = some tok → DestinationIs i tok) (hpop : ∀ f, i ≠ .pop f)
    (h : finish s i.raw (alu1 op g ops s) = .next t) : ExecResult s i t := by
  refine execResult_of_finish (fun u hu => ?_) h
  obtain ⟨r, a, rfl, -, -, rfl⟩ := alu1_eq_ok.mp hu
  exact .wroteReg (.int (g a)) (hdest _ rfl) hpop

theorem execResult_of_jump {taken : BitVec 1 → Bool} {clears : Bool}
    (htarget : ∀ addr n, ops = [addr] → SrcIs s addr (.int n) → JumpTargetIs s i n)
    (hclears : (∀ f, i ≠ .jeq f) → clears = false)
    (h : finish s i.raw (jump op taken clears ops s) = .next t) : ExecResult s i t := by
  rcases finish_cases h with ⟨e, -, rfl⟩ | ⟨u, hu, rfl⟩
  · exact .raised i e
  · obtain ⟨addr, n, hops, hn, rfl⟩ := jump_eq_ok.mp hu
    refine .jumped (rip := (if taken s.rflags then n - 1 else s.rip) + 1)
      (flag := if clears then 0 else s.rflags) (htarget addr n hops hn) ?_ fun hjeq => ?_
    · cases taken s.rflags
      · exact .inl rfl
      · exact .inr (Int.sub_add_cancel n 1)
    · rw [hclears hjeq]
      rfl

end

theorem execResult_of_cmp {f : Fields} {s t : State}
    (h : finish s f.raw (cmpEffect f.ops s) = .next t) : ExecResult s (.cmp f) t := by
  refine execResult_of_finish (fun u hu => ?_) h
  obtain ⟨_, _, m, n, -, -, -, rfl⟩ := cmpEffect_eq_ok.mp hu
  exact .compared f (equalFlag m n)

theorem execResult_of_push {f : Fields} {s t : State}
    (h : finish s f.raw (pushEffect f.ops s) = .next t) : ExecResult s (.push f) t := by
  refine execResult_of_finish (fun u hu => ?_) h
  obtain ⟨_, n, sp, k, -, -, hsp, hcell, -, rfl⟩ := pushEffect_eq_ok.mp hu
  exact .pushed f n hsp hcell

theorem execResult_of_pop {f : Fields} {s t : State}
    (h : finish s f.raw (popEffect f.ops s) = .next t) : ExecResult s (.pop f) t := by
  refine execResult_of_finish (fun u hu => ?_) h
  obtain ⟨r, hops, ⟨-, hpop⟩ | ⟨-, hpop⟩⟩ := popEffect_eq_ok.mp hu
  · obtain ⟨_, _, _, -, -, -, -, -, rfl⟩ := popReadThenIncrement_eq_ok.mp hpop
    exact .popped _ _ hops (.inr rfl) (.inl rfl)
  · obtain ⟨_, _, -, -, -, -, rfl⟩ := popIncrementThenRead_eq_ok.mp hpop
    exact .popped _ _ hops (.inl rfl) (.inr rfl)

theorem execResult_of_define {f : Fields} {s t : State}
    (h : finish s f.raw (defineEffect f.ops s) = .next t) : ExecResult s (.define f) t := by
  refine execResult_of_finish (fun u hu => ?_) h
  obtain ⟨r, _, x, hops, -, -, rfl⟩ := defineEffect_eq_ok.mp hu
  obtain ⟨_, _, hops, -⟩ := defineOperands_eq_ok.mp hops
  exact .wroteReg (.text x) (congrArg List.head? hops) nofun

/-- A lawful answer writes registers that the call's arguments name, and perhaps the output
(R383). -/
theorem execResult_of_call {f : Fields} {s t : State} (h : execCall f s = .next t) :
    ExecResult s (.call f) t := by
  rcases execCall_cases h with ⟨e, rfl⟩ | ⟨args, u, -, hu, rfl⟩ |
    ⟨name, args, vals, hops, -, -, -, -, ⟨e, -, rfl⟩ | ⟨u, hu, rfl⟩⟩
  · exact .raised (.call f) e
  · obtain ⟨_, v, -, -, rfl⟩ := printEffect_eq_ok.mp hu
    exact .printed f (some (render v))
  · exact .callFailed f e
  · obtain ⟨ws, out, w, -, hw, rfl⟩ := applyAnswer_eq_ok hu
    obtain ⟨hframe, hwrites, hregs⟩ := hostWrites_frame hw
    rw [hframe]
    refine .called (regs := w.regs) (out.orElse fun _ => s.out) fun r hr => ?_
    rw [hops, List.tail_cons]
    by_contra hmem
    exact hr (hregs r fun p hp hname => hmem (hname ▸ (hwrites p hp).1))

theorem execResult_of_hlt {f : Fields} {s t : State} (h : execHlt f s = .next t) :
    ExecResult s (.hlt f) t := by
  refine execResult_of_finish (fun u hu => ?_) h
  cases hops : noOperand "HLT".toList f.ops with
  | error e =>
    rw [hops] at hu
    cases hu
  | ok _ =>
    rw [hops] at hu
    obtain rfl : s = u := Except.ok.inj hu
    exact .halted f

theorem execResult_of_include {f : Fields} {s t : State} (h : execInclude f s = .next t) :
    ExecResult s (.incl f) t := by
  rcases finishInPlace_cases h with ⟨e, -, rfl⟩ | ⟨u, hu, rfl⟩
  · exact .raised (.incl f) e
  · obtain ⟨-, _, q, -, -, rfl⟩ := includeEffect_eq_ok.mp hu
    exact .included f q

theorem execResult_of_raise {i : Instr} {s t : State} {e : Err}
    (h : Host.Outcome.next (s.raise i.raw e) = (.next t : Host.Outcome State Fault Refusal)) :
    ExecResult s i t :=
  Host.Outcome.next.inj h ▸ .raised i e

/-- What every instruction leaves. -/
theorem exec_result {i : Instr} {s t : State} (h : exec i s = .next t) : ExecResult s i t := by
  cases i with
  | mov f => exact execResult_of_mov (fun _ => id) nofun h
  | add f => exact execResult_of_alu2 (fun _ => id) nofun h
  | sub f => exact execResult_of_alu2 (fun _ => id) nofun h
  | mul f => exact execResult_of_alu2 (fun _ => id) nofun h
  | div f => exact execResult_of_alu2 (fun _ => id) nofun h
  | inc f => exact execResult_of_alu1 (fun _ => id) nofun h
  | dec f => exact execResult_of_alu1 (fun _ => id) nofun h
  | neg f => exact execResult_of_alu1 (fun _ => id) nofun h
  | andOp f => exact execResult_of_alu2 (fun _ => id) nofun h
  | orOp f => exact execResult_of_alu2 (fun _ => id) nofun h
  | xorOp f => exact execResult_of_alu2 (fun _ => id) nofun h
  | shl f => exact execResult_of_alu2 (fun _ => id) nofun h
  | shr f => exact execResult_of_alu2 (fun _ => id) nofun h
  | ror f => exact execResult_of_alu2 (fun _ => id) nofun h
  | rol f => exact execResult_of_alu2 (fun _ => id) nofun h
  | cmp f => exact execResult_of_cmp h
  | jmp f => exact execResult_of_jump (fun addr _ ha hn => ⟨addr, ha, hn⟩) (fun _ => rfl) h
  | jeq f =>
    exact execResult_of_jump (fun addr _ ha hn => ⟨addr, ha, hn⟩) (fun hne => absurd rfl (hne f)) h
  | jne f => exact execResult_of_jump (fun addr _ ha hn => ⟨addr, ha, hn⟩) (fun _ => rfl) h
  | jg f => exact execResult_of_jump (fun addr _ ha hn => ⟨addr, ha, hn⟩) (fun _ => rfl) h
  | jl f => exact execResult_of_jump (fun addr _ ha hn => ⟨addr, ha, hn⟩) (fun _ => rfl) h
  | jge f => exact execResult_of_jump (fun addr _ ha hn => ⟨addr, ha, hn⟩) (fun _ => rfl) h
  | jle f => exact execResult_of_jump (fun addr _ ha hn => ⟨addr, ha, hn⟩) (fun _ => rfl) h
  | push f => exact execResult_of_push h
  | pop f => exact execResult_of_pop h
  | define f => exact execResult_of_define h
  | call f => exact execResult_of_call h
  | hlt f => exact execResult_of_hlt h
  | incl f => exact execResult_of_include h
  | notOp f => exact execResult_of_raise (i := .notOp f) h
  | ret f => exact execResult_of_raise (i := .ret f) h
  | string f => exact execResult_of_raise (i := .string f) h
  | cov f => exact execResult_of_raise (i := .cov f) h
  | je f => exact execResult_of_raise (i := .je f) h
  | skipLine => exact Host.Outcome.next.inj h ▸ .skipped
  | unknownOpcode u => exact execResult_of_raise (i := .unknownOpcode u) h

end Sys2Proof.Machine
end

section
/-! The proofs of the statements about what instructions leave unchanged (spec/10_state.md R56,
R57, R59, R60, R63, R65; spec/20_memory.md R100, R106). -/

namespace Sys2Proof.Machine

/-- Settles O39: of the ends an instruction has, only CMP's and JEQ's write the flag. -/
theorem onlyCmpAndJeqWriteTheFlag : Obligations.OnlyCmpAndJeqWriteTheFlag := by
  unfold Obligations.OnlyCmpAndJeqWriteTheFlag
  intro i s t h hcmp hjeq
  cases exec_result h with
  | compared f flag => exact absurd rfl (hcmp f)
  | jumped _ _ hflag => exact hflag hjeq
  | _ => rfl

/-- Settles O40: only PUSH's end writes memory, at the cell its stack index selects. -/
theorem onlyPushWritesMemoryAndOneCell : Obligations.OnlyPushWritesMemoryAndOneCell := by
  unfold Obligations.OnlyPushWritesMemoryAndOneCell
  intro i s t h
  cases exec_result h with
  | pushed f n hsp hcell =>
    refine ⟨fun hpush => absurd rfl (hpush f), fun hwf sp k hsp' hcell' j hj => ?_⟩
    obtain rfl := Value.int.inj (hsp.symm.trans hsp')
    obtain rfl := cellIs_unique hcell hcell'
    exact (Memory.read_write _ n hwf j).trans (if_neg hj.symm)
  | _ => exact ⟨fun _ => rfl, fun _ _ _ _ _ _ _ => rfl⟩

/-- Settles O41: only CALL's ends write OUT and the host's answers, only INCLUDE's writes `prog` and
`incStack`, and none writes the configuration or the turns. -/
theorem outputProgramAndConfigurationHaveTheirWriters :
    Obligations.OutputProgramAndConfigurationHaveTheirWriters := by
  unfold Obligations.OutputProgramAndConfigurationHaveTheirWriters
  intro i s t h
  cases exec_result h with
  | callFailed f | printed f | called =>
    exact ⟨fun hcall => absurd rfl (hcall _), fun _ => ⟨rfl, rfl⟩, rfl, rfl, rfl, rfl⟩
  | included f =>
    exact ⟨fun _ => ⟨rfl, rfl, rfl⟩, fun hincl => absurd rfl (hincl f), rfl, rfl, rfl, rfl⟩
  | _ => exact ⟨fun _ => ⟨rfl, rfl, rfl⟩, fun _ => ⟨rfl, rfl⟩, rfl, rfl, rfl, rfl⟩

/-- A register that differs after a write is the written one. -/
theorem eq_of_reg_setReg_ne {s : State} {p q : Reg} {v : Value}
    (h : (s.setReg p v).reg q ≠ s.reg q) :
    q = p := by
  by_contra hne
  exact h (State.reg_setReg_of_ne s hne v)

/-- Settles O42: each end writes its destination, RSP, or registers that argument tokens name. -/
theorem onlyNamedRegistersChange : Obligations.OnlyNamedRegistersChange := by
  unfold Obligations.OnlyNamedRegistersChange
  intro i s t r h hr
  cases exec_result h with
  | wroteReg v hdest hpop =>
    obtain rfl := eq_of_reg_setReg_ne (s := s) hr
    cases i with
    | pop f => exact absurd rfl (hpop f)
    | push f => exact hdest.elim
    | call f => exact hdest.elim
    | _ => exact hdest
  | pushed f n => exact eq_of_reg_setReg_ne (s := { s with mem := _ }) hr
  | @popped f d p q v w hops hp hq =>
    have hwritten : r = p ∨ r = q := by
      by_contra hne
      rw [not_or] at hne
      refine hr ?_
      exact (State.reg_setReg_of_ne _ hne.2 w).trans (State.reg_setReg_of_ne s hne.1 v)
    have hnamed : r = .rsp ∨ r = d := by
      rcases hwritten with rfl | rfl
      · exact hp
      · exact hq
    rcases hnamed with hrsp | rfl
    · exact .inl hrsp
    · exact .inr hops
  | called _ hregs => exact hregs r hr
  | _ => exact absurd rfl hr

/-- What the statement about RIP says of a completed `i` (R56). -/
def MovesRip (i : Instr) (s t : State) : Prop :=
  match i with
  | .jmp f | .jeq f | .jne f | .jg f | .jl f | .jge f | .jle f =>
    t.rip = s.rip + 1 ∨ ∃ addr n, f.ops = [addr] ∧ SrcIs s addr (.int n) ∧ t.rip = n
  | .incl _ => t.rip = 0
  | _ => t.rip = s.rip + 1

/-- Moving on by one is what every instruction but INCLUDE may do. -/
theorem movesRip_of_next {i : Instr} {s t : State} (hincl : ∀ f, i ≠ .incl f)
    (h : t.rip = s.rip + 1) : MovesRip i s t := by
  cases i with
  | jmp | jeq | jne | jg | jl | jge | jle => exact .inl h
  | incl f => exact absurd rfl (hincl f)
  | _ => exact h

/-- Landing on its resolved target is what a jump may do. -/
theorem movesRip_of_target {i : Instr} {s t : State} {n : Int} (htarget : JumpTargetIs s i n)
    (h : t.rip = n) : MovesRip i s t := by
  cases i with
  | jmp | jeq | jne | jg | jl | jge | jle =>
    obtain ⟨addr, hops, hn⟩ := htarget
    exact .inr ⟨addr, n, hops, hn, h⟩
  | _ => exact htarget.elim

/-- Settles O43: the fault entry leaves RIP, and each other end has advanced it, set it to the
target or, for INCLUDE, to 0. -/
theorem ripMovesOnByOne : Obligations.RipMovesOnByOne := by
  unfold Obligations.RipMovesOnByOne
  intro i s t h hlive
  have hmoves : t.sched = .faulted ∧ t.rip = s.rip ∨ t.sched = s.sched ∧ MovesRip i s t := by
    cases exec_result h with
    | raised | callFailed => exact .inl ⟨rfl, rfl⟩
    | wroteReg v hdest hpop =>
      refine .inr ⟨rfl, movesRip_of_next (fun f hf => ?_) rfl⟩
      rw [hf] at hdest
      exact hdest
    | jumped htarget hrip hflag =>
      refine .inr ⟨rfl, ?_⟩
      rcases hrip with hrip | hrip
      · refine movesRip_of_next (fun f hf => ?_) hrip
        rw [hf] at htarget
        exact htarget
      · exact movesRip_of_target htarget hrip
    | included => exact .inr ⟨rfl, rfl⟩
    | _ => exact .inr ⟨rfl, movesRip_of_next nofun rfl⟩
  rcases hmoves with ⟨hfault, hrip⟩ | ⟨hsched, hrip⟩
  · exact ⟨fun _ => hrip, fun hok => absurd hfault hok⟩
  · exact ⟨fun hfault => absurd (hsched.symm.trans hfault) hlive, fun _ => hrip⟩

end Sys2Proof.Machine
end

section
/-! The proof of the statement about the settings (spec/10_state.md R63, spec/60_exceptions.md
R509): each operation commutes with writing `debug` and `rate`. -/

namespace Sys2Proof.Machine

/-- The same state with these settings. -/
def State.withSettings (b : Bool) (n : Nat) (s : State) : State :=
  { s with debug := b, rate := n }

@[simp] theorem State.withSettings_cfg (b : Bool) (n : Nat) (s : State) :
    (s.withSettings b n).cfg = s.cfg := rfl

/-- The effect `E` neither reads nor writes the settings. -/
def IgnoresSettings (E : State → Except Err State) : Prop :=
  ∀ b n s, E (s.withSettings b n) = (E s).map (State.withSettings b n)

/-- Mapping what a sequence of two operations gives is mapping what the second gives. -/
theorem map_bind_except {α β γ : Type} (g : β → γ) (x : Except Err α) (f : α → Except Err β) :
    (x >>= f).map g = x >>= fun a => (f a).map g := by
  cases x <;> rfl

theorem bind_congr_except {α β : Type} (x : Except Err α) {f g : α → Except Err β}
    (h : ∀ a, f a = g a) : x >>= f = x >>= g := by
  rw [funext h]

section
variable (op : Token) (ops : List Token)

theorem movEffect_ignoresSettings : IgnoresSettings (movEffect ops) := by
  intro b n s
  simp only [movEffect, map_bind_except]
  rfl

theorem alu2_ignoresSettings (g : Int → Int → Except Err Int) :
    IgnoresSettings (alu2 op g ops) := by
  intro b n s
  simp only [alu2, map_bind_except]
  rfl

theorem alu1_ignoresSettings (g : Int → Int) : IgnoresSettings (alu1 op g ops) := by
  intro b n s
  simp only [alu1, map_bind_except]
  rfl

theorem cmpEffect_ignoresSettings : IgnoresSettings (cmpEffect ops) := by
  intro b n s
  simp only [cmpEffect, map_bind_except]
  rfl

theorem jump_ignoresSettings (taken : BitVec 1 → Bool) (clears : Bool) :
    IgnoresSettings (jump op taken clears ops) := by
  intro b n s
  simp only [jump, map_bind_except]
  rfl

theorem pushEffect_ignoresSettings : IgnoresSettings (pushEffect ops) := by
  intro b n s
  simp only [pushEffect, map_bind_except]
  rfl

theorem popReadThenIncrement_ignoresSettings (r : Reg) :
    IgnoresSettings (popReadThenIncrement r) := by
  intro b n s
  simp only [popReadThenIncrement, map_bind_except]
  rfl

theorem popIncrementThenRead_ignoresSettings (r : Reg) :
    IgnoresSettings (popIncrementThenRead r) := by
  intro b n s
  simp only [popIncrementThenRead, map_bind_except]
  rfl

theorem popEffect_ignoresSettings : IgnoresSettings (popEffect ops) := by
  intro b n s
  simp only [popEffect, map_bind_except, State.withSettings_cfg]
  refine bind_congr_except _ fun d => bind_congr_except _ fun r => ?_
  cases s.cfg.popOrder with
  | readThenIncrement => exact popReadThenIncrement_ignoresSettings r b n s
  | incrementThenRead => exact popIncrementThenRead_ignoresSettings r b n s

theorem defineEffect_ignoresSettings : IgnoresSettings (defineEffect ops) := by
  intro b n s
  simp only [defineEffect, map_bind_except]
  refine bind_congr_except _ fun p => bind_congr_except _ fun r => bind_congr_except _ fun k => ?_
  split
  · rfl
  · rfl

theorem printEffect_ignoresSettings : IgnoresSettings (printEffect ops) := by
  intro b n s
  simp only [printEffect, map_bind_except]
  rfl

theorem hostWrites_ignoresSettings (name : Token) (ws : List (Token × Value)) :
    IgnoresSettings (hostWrites name ops ws) := by
  intro b n s
  induction ws generalizing s with
  | nil => rfl
  | cons w ws ih =>
    simp only [hostWrites]
    split
    · split
      · exact ih (s.setReg _ w.2)
      · rfl
    · rfl

theorem applyAnswer_ignoresSettings (name : Token) (answer : HostAnswer) :
    IgnoresSettings (applyAnswer name ops answer) := by
  intro b n s
  cases answer with
  | fail => rfl
  | ok ws out =>
    simp only [applyAnswer, hostWrites_ignoresSettings ops name ws b n s]
    cases hostWrites name ops ws s with
    | error e => rfl
    | ok t => cases out <;> rfl

theorem includeEffect_ignoresSettings : IgnoresSettings (includeEffect ops) := by
  intro b n s
  simp only [includeEffect, State.withSettings_cfg]
  cases s.cfg.includeMode with
  | refuse => rfl
  | nested =>
    simp only [map_bind_except]
    refine bind_congr_except _ fun path => ?_
    cases s.cfg.load path <;> rfl

end

theorem readAll_withSettings (b : Bool) (n : Nat) (s : State) (args : List Token) :
    readAll (s.withSettings b n) args = readAll s args := by
  induction args with
  | nil => rfl
  | cons t ts ih =>
    simp only [readAll, ih]
    rfl

section
variable {s t : State} {raw : Line} (b : Bool) (n : Nat)

/-- `next t` with the settings changed in `s` and `t` alike. -/
theorem finish_withSettings {E : State → Except Err State} (hE : IgnoresSettings E)
    (h : finish s raw (E s) = .next t) :
    finish (s.withSettings b n) raw (E (s.withSettings b n)) = .next (t.withSettings b n) := by
  rw [hE]
  rcases finish_cases h with ⟨e, he, rfl⟩ | ⟨u, hu, rfl⟩
  · rw [he]
    rfl
  · rw [hu]
    rfl

theorem execInclude_withSettings {f : Fields} (h : execInclude f s = .next t) :
    execInclude f (s.withSettings b n) = .next (t.withSettings b n) := by
  rw [execInclude, includeEffect_ignoresSettings]
  rcases finishInPlace_cases h with ⟨e, he, rfl⟩ | ⟨u, hu, rfl⟩
  · rw [he]
    rfl
  · rw [hu]
    rfl

theorem hostCall_withSettings {name : Token} {args : List Token}
    (h : hostCall name args raw s = .next t) :
    hostCall name args raw (s.withSettings b n) = .next (t.withSettings b n) := by
  unfold hostCall at h ⊢
  rw [readAll_withSettings, State.withSettings_cfg]
  cases hvals : readAll s args with
  | error e =>
    rw [hvals] at h
    cases h
    rfl
  | ok vals =>
    simp only [hvals] at h ⊢
    split at h
    · rename_i hhandler
      rw [if_pos hhandler]
      exact finish_withSettings b n (applyAnswer_ignoresSettings args name _) h
    · rename_i hhandler
      rw [if_neg hhandler]
      cases h
      rfl

theorem execCall_withSettings {f : Fields} (h : execCall f s = .next t) :
    execCall f (s.withSettings b n) = .next (t.withSettings b n) := by
  unfold execCall at h ⊢
  split at h
  · cases h
    rfl
  · split at h
    · rename_i hlisted
      rw [if_pos hlisted]
      split at h
      · rename_i hprint
        rw [if_pos hprint]
        exact finish_withSettings b n (printEffect_ignoresSettings _) h
      · rename_i hprint
        rw [if_neg hprint]
        exact hostCall_withSettings b n h
    · rename_i hlisted
      rw [if_neg hlisted]
      cases h
      rfl

/-- Every instruction does the same under other settings. -/
theorem exec_withSettings {i : Instr} (h : exec i s = .next t) :
    exec i (s.withSettings b n) = .next (t.withSettings b n) := by
  cases i with
  | mov f => exact finish_withSettings b n (movEffect_ignoresSettings f.ops) h
  | add f | sub f | mul f | div f | andOp f | orOp f | xorOp f | shl f | shr f | ror f | rol f =>
    exact finish_withSettings b n (alu2_ignoresSettings _ f.ops _) h
  | inc f | dec f | neg f => exact finish_withSettings b n (alu1_ignoresSettings _ f.ops _) h
  | cmp f => exact finish_withSettings b n (cmpEffect_ignoresSettings f.ops) h
  | jmp f | jeq f | jne f | jg f | jl f | jge f | jle f =>
    exact finish_withSettings b n (jump_ignoresSettings _ f.ops _ _) h
  | push f => exact finish_withSettings b n (pushEffect_ignoresSettings f.ops) h
  | pop f => exact finish_withSettings b n (popEffect_ignoresSettings f.ops) h
  | define f => exact finish_withSettings b n (defineEffect_ignoresSettings f.ops) h
  | call f => exact execCall_withSettings b n h
  | hlt f =>
    have hE : IgnoresSettings fun u => (noOperand "HLT".toList f.ops).map fun _ => u := by
      intro b n s
      cases noOperand "HLT".toList f.ops <;> rfl
    exact finish_withSettings b n hE h
  | incl f => exact execInclude_withSettings b n h
  | notOp | ret | string | cov | je | skipLine | unknownOpcode =>
    cases h
    rfl

end

/-- Settles O44: the settings written into both states are those of the statement. -/
theorem instructionsDoNotSeeTheConfiguration :
    Obligations.InstructionsDoNotSeeTheConfiguration := by
  unfold Obligations.InstructionsDoNotSeeTheConfiguration
  intro i s t b n h
  exact exec_withSettings b n h

end Sys2Proof.Machine
end

section
/-! The proofs of the statements about the call table and the host calls
(spec/45_define_call_halt.md R381, R383). -/

namespace Sys2Proof.Machine

/-- A name outside the call table raises before any argument is looked at (R381). -/
theorem exec_call_of_not_mem {name : Token} (h : name ∉ callTable) (args : List Token) (raw : Line)
    (s : State) :
    exec (.call ⟨name :: args, raw⟩) s = .next (s.raise raw (.unknownCallTarget name)) := by
  simp [execCall, h]

/-- Settles O30: both errors are the first that CALL looks for. -/
theorem callNeedsANameOfTheCallTable : Obligations.CallNeedsANameOfTheCallTable := by
  unfold Obligations.CallNeedsANameOfTheCallTable
  intro s raw
  refine ⟨?_, fun name args hname => ?_⟩
  · exact raises_of_exec (e := .malformedInstruction "CALL".toList) rfl
  · exact raises_of_exec (exec_call_of_not_mem hname args raw s)

/-! Host calls: what each part of R383 does with its arguments and with the host's answer. -/

/-- Every name of the call table but `print` runs the host call. -/
theorem execCall_of_ne_print {name : Token} (hlisted : name ∈ callTable)
    (hprint : name ≠ "print".toList) (args : List Token) (raw : Line) (s : State) :
    execCall ⟨name :: args, raw⟩ s = hostCall name args raw s := by
  have hcontains : callTable.contains name = true := List.contains_iff_mem.mpr hlisted
  have hbeq : (name == "print".toList) = false := beq_eq_false_iff_ne.mpr hprint
  unfold execCall
  simp only [hcontains, hbeq, if_true, Bool.false_eq_true, if_false]

/-- The seven names of the call table that the host answers run the host call. -/
theorem exec_call_of_host {name : Token}
    (h : name ∈ ["input", "wait", "play", "add", "sub", "mul", "div"].map String.toList)
    (args : List Token) (raw : Line) (s : State) :
    exec (.call ⟨name :: args, raw⟩) s = hostCall name args raw s := by
  have hhost : ∀ n ∈ ["input", "wait", "play", "add", "sub", "mul", "div"].map String.toList,
      n ∈ callTable ∧ n ≠ "print".toList := by decide
  obtain ⟨hlisted, hprint⟩ := hhost name h
  exact execCall_of_ne_print hlisted hprint args raw s

/-- The leftmost argument that does not resolve raises its error. -/
theorem readAll_of_readSrc_error {s : State} {before after : List Token} {tok : Token} {e : Err}
    (hbefore : ∀ t ∈ before, ∃ v, SrcIs s t v) (h : readSrc s tok = .error e) :
    readAll s (before ++ tok :: after) = .error e := by
  induction before with
  | nil => simp [readAll, h]
  | cons t ts ih =>
    obtain ⟨v, hv⟩ := hbefore t (by simp)
    simp [readAll, readSrc_eq_ok.mpr hv, ih fun u hu => hbefore u (by simp [hu])]

section
variable {name : Token} {args : List Token} {raw : Line} {s : State} {vals : List Value}

theorem hostCall_of_readAll_error {e : Err} (h : readAll s args = .error e) :
    hostCall name args raw s = .next (s.raise raw e) := by
  simp [hostCall, h]

theorem hostCall_of_no_handler (hvals : readAll s args = .ok vals)
    (h : s.cfg.callHandler = false) :
    hostCall name args raw s = .next (s.raise raw (.hostCallFault name)) := by
  simp [hostCall, hvals, h]

theorem hostCall_of_handler (hvals : readAll s args = .ok vals) (h : s.cfg.callHandler = true) :
    hostCall name args raw s =
      finish s.answered raw (applyAnswer name args (s.hostAnswer name args vals) s.answered) := by
  simp [hostCall, hvals, h]

/-- The only error of a host's writes is HostCallFault. -/
theorem eq_hostCallFault_of_hostWrites_error {ws : List (Token × Value)} {e : Err}
    (h : hostWrites name args ws s = .error e) : e = .hostCallFault name := by
  induction ws generalizing s with
  | nil => cases h
  | cons w ws ih =>
    simp only [hostWrites] at h
    split at h
    · split at h
      · exact ih h
      · exact (Except.error.inj h).symm
    · exact (Except.error.inj h).symm

/-- An answer that writes outside the argument registers fails (R383). -/
theorem hostWrites_of_unlawful {ws : List (Token × Value)} {p : Token × Value} (hp : p ∈ ws)
    (hbad : p.1 ∉ args ∨ NamesNoRegister p.1) :
    hostWrites name args ws s = .error (.hostCallFault name) := by
  cases hw : hostWrites name args ws s with
  | error e => rw [eq_hostCallFault_of_hostWrites_error hw]
  | ok t =>
    obtain ⟨hmem, r, hr⟩ := (hostWrites_frame hw).2.1 p hp
    exact (hbad.elim (absurd hmem) fun hnone => absurd hr (hnone r))

/-- Writes to argument registers are all made (R383). -/
theorem hostWrites_of_lawful {ws : List (Token × Value)}
    (h : ∀ p ∈ ws, p.1 ∈ args ∧ ∃ r : Reg, p.1 = r.name) :
    ∃ t, hostWrites name args ws s = .ok t := by
  induction ws generalizing s with
  | nil => exact ⟨s, rfl⟩
  | cons w ws ih =>
    obtain ⟨tok, v⟩ := w
    obtain ⟨hmem, r, rfl⟩ := h _ (List.mem_cons_self ..)
    obtain ⟨t, ht⟩ := ih (s := s.setReg r v) fun p hp => h p (by simp [hp])
    exact ⟨t, by simpa [hostWrites, hmem] using ht⟩

/-- A list of writes is made in its order. -/
theorem hostWrites_append (ws ws' : List (Token × Value)) :
    hostWrites name args (ws ++ ws') s =
      hostWrites name args ws s >>= hostWrites name args ws' := by
  induction ws generalizing s with
  | nil => rfl
  | cons w ws ih =>
    simp only [List.cons_append, hostWrites]
    split
    · split
      · exact ih
      · rfl
    · rfl

/-- A register holds the last value written to it (R383). -/
theorem reg_of_hostWrites {before after : List (Token × Value)} {r : Reg} {v : Value} {t : State}
    (h : hostWrites name args (before ++ (r.name, v) :: after) s = .ok t)
    (hlast : ∀ p ∈ after, p.1 ≠ r.name) : t.reg r = v := by
  rw [hostWrites_append, bind_eq_ok] at h
  obtain ⟨u, -, h⟩ := h
  simp only [hostWrites, lookupReg_name] at h
  split at h
  · rw [(hostWrites_frame h).2.2 r hlast, State.reg_setReg_self]
  · cases h

theorem applyAnswer_of_hostWrites_error {ws : List (Token × Value)} {out : Option Text} {e : Err}
    (h : hostWrites name args ws s = .error e) :
    applyAnswer name args (.ok ws out) s = .error e := by
  simp [applyAnswer, h]

theorem applyAnswer_of_hostWrites_ok {ws : List (Token × Value)} {out : Option Text} {t : State}
    (h : hostWrites name args ws s = .ok t) :
    applyAnswer name args (.ok ws out) s = .ok { t with out := out.orElse fun _ => t.out } := by
  cases out <;> simp [applyAnswer, h]

/-- An answer that is `Fail` or writes outside the argument registers fails the call. -/
theorem applyAnswer_of_unlawful {a : HostAnswer}
    (h : a = .fail ∨ ∃ ws out, a = .ok ws out ∧ ∃ p ∈ ws, p.1 ∉ args ∨ NamesNoRegister p.1) :
    applyAnswer name args a s = .error (.hostCallFault name) := by
  rcases h with rfl | ⟨ws, out, rfl, p, hp, hbad⟩
  · rfl
  · exact applyAnswer_of_hostWrites_error (hostWrites_of_unlawful hp hbad)

end

/-- Settles O31: the arguments are read first, then the handler is looked for, then its answer is
held against R383. -/
theorem hostCallsFailWithoutALawfulAnswer : Obligations.HostCallsFailWithoutALawfulAnswer := by
  unfold Obligations.HostCallsFailWithoutALawfulAnswer
  intro s raw name args hname
  refine ⟨?_, fun vals hargs => ⟨fun hhandler => ?_, fun a hhandler ha hbad => ?_⟩⟩
  · rintro before tok after c rfl hbefore hfails
    obtain ⟨e, he, rfl⟩ := srcFails_iff.mp hfails
    refine raises_of_exec ?_
    rw [exec_call_of_host hname]
    exact hostCall_of_readAll_error (readAll_of_readSrc_error hbefore he)
  · refine raises_of_exec (e := .hostCallFault name) ?_
    rw [exec_call_of_host hname]
    exact hostCall_of_no_handler (readAll_eq_ok.mpr hargs) hhandler
  · subst ha
    refine ⟨.hostCallFault name, rfl, ?_⟩
    rw [exec_call_of_host hname, hostCall_of_handler (readAll_eq_ok.mpr hargs) hhandler,
      applyAnswer_of_unlawful hbad]
    rfl

/-- Settles O32: a lawful answer's writes are all made, in their order, and nothing else is. -/
theorem hostCallsApplyALawfulAnswer : Obligations.HostCallsApplyALawfulAnswer := by
  unfold Obligations.HostCallsApplyALawfulAnswer
  intro s raw name args vals hname hargs
  refine ⟨fun a more hlisted => ?_, fun hnone => ?_, fun ws out hhandler hanswer hlawful => ?_⟩
  · simp [State.hostAnswer, hlisted]
  · simp [State.hostAnswer, hnone]
  obtain ⟨u, hu⟩ := hostWrites_of_lawful (name := name) (s := s.answered) hlawful
  obtain ⟨hframe, -, hunwritten⟩ := hostWrites_frame hu
  have hout : u.out = s.answered.out := by rw [hframe]
  refine ⟨State.emit { u with rip := u.rip + 1, out := out.orElse fun _ => u.out } .notify,
    ?_, ?_, ?_, ?_, ?_, ?_⟩
  · rw [exec_call_of_host hname, hostCall_of_handler (readAll_eq_ok.mpr hargs) hhandler, hanswer,
      applyAnswer_of_hostWrites_ok hu]
    rfl
  · rw [hframe]
    rfl
  · rintro o rfl
    rfl
  · rintro rfl
    exact hout
  · exact hunwritten
  · rintro before after r v rfl hlast
    exact (reg_of_hostWrites hu hlast : u.reg r = v)

end Sys2Proof.Machine
end

section
/-! The proof of the statement about the info an error records (spec/60_exceptions.md R500): first
the info of each operand error and of each check, then of each effect, then of each instruction.
-/

namespace Sys2Proof.Machine

/-! The errors of operand counts, operand tokens and checks. -/

section
variable {s : State} {i : Instr} {op d tok : Token} {ops : List Token} {e : Err} {n : Int}

theorem recordsInfo_of_countError {k : Nat} (h : ops.length ≠ k)
    (hcount : ∀ tok, CountFault op k ops tok → Miscounted i tok) :
    RecordsInfo s i (countError op k ops) := by
  obtain ⟨tok, herr, hfault⟩ := countError_eq (op := op) h
  rw [herr]
  exact .inl (hcount tok hfault)

theorem recordsInfo_of_oneOperand_error (hcount : ∀ tok, CountFault op 1 ops tok → Miscounted i tok)
    (h : oneOperand op ops = .error e) : RecordsInfo s i e := by
  have hlen : ops.length ≠ 1 := fun hlen => by
    obtain ⟨a, rfl⟩ := List.length_eq_one_iff.mp hlen
    cases h
  rw [oneOperand_of_length hlen] at h
  obtain rfl := Except.error.inj h
  exact recordsInfo_of_countError hlen hcount

theorem recordsInfo_of_twoOperands_error
    (hcount : ∀ tok, CountFault op 2 ops tok → Miscounted i tok)
    (h : twoOperands op ops = .error e) : RecordsInfo s i e := by
  have hlen : ops.length ≠ 2 := fun hlen => by
    obtain ⟨a, b, rfl⟩ := List.length_eq_two.mp hlen
    cases h
  rw [twoOperands_of_length hlen] at h
  obtain rfl := Except.error.inj h
  exact recordsInfo_of_countError hlen hcount

theorem recordsInfo_of_destRef_error (hdest : DestinationIs i d) (hres : d ∈ resolvedTokens i)
    (h : destRef d = .error e) : RecordsInfo s i e := by
  rcases destRef_eq_error.mp h with ⟨hdigits, rfl⟩ | ⟨hdigits, hname, rfl⟩
  · exact .inr (.inl ⟨hdest, hdigits⟩)
  · exact ⟨hres, hdigits, hname⟩

theorem recordsInfo_of_readSrc_error (hres : tok ∈ resolvedTokens i)
    (h : readSrc s tok = .error e) : RecordsInfo s i e := by
  rcases readSrc_eq_error.mp h with ⟨hdigits, hfit, rfl⟩ | ⟨hdigits, hname, rfl⟩
  · exact .inl ⟨tok, hres, hdigits, rfl, hfit⟩
  · exact ⟨hres, hdigits, hname⟩

theorem recordsInfo_of_intOf_error {v : Value} (hv : SrcIs s tok v) (hint : tok ∈ integerTokens i)
    (h : intOf tok v = .error e) : RecordsInfo s i e := by
  cases v with
  | int => cases h
  | text x =>
    cases h
    exact ⟨⟨x, hv⟩, .inl hint⟩

theorem recordsInfo_of_fit_error (hwrite : WouldWrite s i n) (h : fit s.cfg n = .error e) :
    RecordsInfo s i e := by
  cases hfit : s.cfg.fits n with
  | true =>
    rw [fit_of_fits hfit] at h
    cases h
  | false =>
    rw [fit_of_not_fits hfit] at h
    cases h
    exact .inr (.inr ⟨hwrite, hfit⟩)

/-- The register name of a source denotes what the register holds. -/
theorem srcIs_name (r : Reg) {v : Value} (h : s.reg r = v) : SrcIs s r.name v :=
  .inr ⟨r, rfl, h.symm⟩

theorem recordsInfo_of_stackIndex_error (hstack : ∃ f, i = .push f ∨ i = .pop f)
    (h : stackIndex s = .error e) : RecordsInfo s i e := by
  cases hrsp : s.reg .rsp with
  | int sp =>
    rw [stackIndex_of_int hrsp] at h
    cases h
  | text x =>
    rw [stackIndex_of_text hrsp] at h
    cases h
    exact ⟨⟨x, srcIs_name .rsp hrsp⟩, .inr ⟨rfl, hstack⟩⟩

theorem recordsInfo_of_cellOf_error
    (hstack : ∃ sp f, s.reg .rsp = .int sp ∧ ((i = .push f ∧ n = sp) ∨
      (i = .pop f ∧ n = if s.cfg.popOrder = .readThenIncrement then sp else sp + 1)))
    (h : cellOf s.cfg n = .error e) : RecordsInfo s i e := by
  have hnone : NoCell s.cfg n := fun k hk => by
    rw [cellOf_eq_ok.mpr hk] at h
    cases h
  rw [cellOf_of_noCell hnone] at h
  cases h
  exact ⟨hnone, hstack⟩

/-! The errors of the effects, each in the order it looks for them. -/

theorem recordsInfo_of_mov {f : Fields} (h : movEffect f.ops s = .error e) :
    RecordsInfo s (.mov f) e := by
  simp only [movEffect, bind_eq_error, twoOperands_eq_ok] at h
  rcases h with h | ⟨⟨d, src⟩, hops, h | ⟨r, -, h | ⟨v, hv, h | ⟨w, -, h⟩⟩⟩⟩
  · exact recordsInfo_of_twoOperands_error (fun _ => id) h
  · exact recordsInfo_of_destRef_error (congrArg List.head? hops) (by simp [resolvedTokens, hops]) h
  · exact recordsInfo_of_readSrc_error (by simp [resolvedTokens, hops]) h
  · cases v with
    | text => cases h
    | int n =>
      refine recordsInfo_of_fit_error (n := n) ⟨d, src, hops, readSrc_eq_ok.mp hv⟩ ?_
      cases hfit : fit s.cfg n with
      | ok m => simp [fitValue, hfit, Except.map] at h
      | error e' => simpa [fitValue, hfit, Except.map] using h
  · cases h

/-- R201. -/
theorem recordsInfo_of_alu2 {g : Int → Int → Except Err Int} {value : Int → Int → Int}
    (hcount : ∀ tok, CountFault op 2 ops tok → Miscounted i tok)
    (hdest : ∀ tok, ops.head? = some tok → DestinationIs i tok)
    (hres : resolvedTokens i = ops) (hint : integerTokens i = ops)
    (hvalue : ∀ a b n, g a b = .ok n → n = value a b)
    (hwrite : ∀ n, Result2 s ops value n → WouldWrite s i n)
    (herror : ∀ d src a b e, ops = [d, src] → SrcIs s src (.int b) → g a b = .error e →
      RecordsInfo s i e)
    (h : alu2 op g ops s = .error e) : RecordsInfo s i e := by
  simp only [alu2, bind_eq_error, twoOperands_eq_ok, destRef_eq_ok, readSrc_eq_ok,
    intOf_eq_ok] at h
  rcases h with h | ⟨⟨d, src⟩, hops, h | ⟨r, hr, h | ⟨v, hv, h | ⟨a, ha, h | ⟨b, hb, h |
    ⟨n, hn, h | ⟨m, -, h⟩⟩⟩⟩⟩⟩⟩
  · exact recordsInfo_of_twoOperands_error hcount h
  · exact recordsInfo_of_destRef_error (hdest d (congrArg List.head? hops)) (by simp [hres, hops]) h
  · exact recordsInfo_of_readSrc_error (by simp [hres, hops]) h
  · exact recordsInfo_of_intOf_error (hr ▸ srcIs_name r rfl) (by simp [hint, hops]) h
  · exact recordsInfo_of_intOf_error hv (by simp [hint, hops]) h
  · exact herror d src a b e hops (hb ▸ hv) h
  · refine recordsInfo_of_fit_error (hwrite n ⟨src, r, a, b, ?_, ha, hb ▸ hv, hvalue a b n hn⟩) h
    rw [hops, hr]
  · cases h

/-- R207. -/
theorem recordsInfo_of_alu1 {g : Int → Int}
    (hcount : ∀ tok, CountFault op 1 ops tok → Miscounted i tok)
    (hdest : ∀ tok, ops.head? = some tok → DestinationIs i tok)
    (hres : resolvedTokens i = ops) (hint : integerTokens i = ops)
    (hwrite : ∀ n, Result1 s ops g n → WouldWrite s i n)
    (h : alu1 op g ops s = .error e) : RecordsInfo s i e := by
  simp only [alu1, bind_eq_error, oneOperand_eq_ok, destRef_eq_ok, intOf_eq_ok] at h
  rcases h with h | ⟨d, hops, h | ⟨r, hr, h | ⟨a, ha, h | ⟨m, -, h⟩⟩⟩⟩
  · exact recordsInfo_of_oneOperand_error hcount h
  · exact recordsInfo_of_destRef_error (hdest d (congrArg List.head? hops)) (by simp [hres, hops]) h
  · exact recordsInfo_of_intOf_error (hr ▸ srcIs_name r rfl) (by simp [hint, hops]) h
  · exact recordsInfo_of_fit_error (hwrite _ ⟨r, a, hr ▸ hops, ha, rfl⟩) h
  · cases h

/-- R300. -/
theorem recordsInfo_of_cmp {f : Fields} (h : cmpEffect f.ops s = .error e) :
    RecordsInfo s (.cmp f) e := by
  simp only [cmpEffect, bind_eq_error, twoOperands_eq_ok, readSrc_eq_ok] at h
  rcases h with h | ⟨⟨a, b⟩, hops, h | ⟨va, ha, h | ⟨vb, hb, h | ⟨m, -, h | ⟨n, -, h⟩⟩⟩⟩⟩
  · exact recordsInfo_of_twoOperands_error (fun _ => id) h
  · exact recordsInfo_of_readSrc_error (by simp [resolvedTokens, hops]) h
  · exact recordsInfo_of_readSrc_error (by simp [resolvedTokens, hops]) h
  · exact recordsInfo_of_intOf_error ha (by simp [integerTokens, hops]) h
  · exact recordsInfo_of_intOf_error hb (by simp [integerTokens, hops]) h
  · cases h

/-- R301. -/
theorem recordsInfo_of_jump {taken : BitVec 1 → Bool} {clears : Bool}
    (hcount : ∀ tok, CountFault op 1 ops tok → Miscounted i tok)
    (hres : resolvedTokens i = ops) (hint : integerTokens i = ops)
    (h : jump op taken clears ops s = .error e) : RecordsInfo s i e := by
  simp only [jump, bind_eq_error, oneOperand_eq_ok, readSrc_eq_ok] at h
  rcases h with h | ⟨addr, hops, h | ⟨v, hv, h | ⟨n, -, h⟩⟩⟩
  · exact recordsInfo_of_oneOperand_error hcount h
  · exact recordsInfo_of_readSrc_error (by simp [hres, hops]) h
  · exact recordsInfo_of_intOf_error hv (by simp [hint, hops]) h
  · cases h

/-- R350. -/
theorem recordsInfo_of_push {f : Fields} (h : pushEffect f.ops s = .error e) :
    RecordsInfo s (.push f) e := by
  simp only [pushEffect, bind_eq_error, oneOperand_eq_ok, readSrc_eq_ok, stackIndex_eq_ok] at h
  rcases h with h | ⟨src, hops, h | ⟨v, hv, h | ⟨n, -, h | ⟨sp, hsp, h | ⟨k, -, h | ⟨m, -, h⟩⟩⟩⟩⟩⟩
  · exact recordsInfo_of_oneOperand_error (fun _ => id) h
  · exact recordsInfo_of_readSrc_error (by simp [resolvedTokens, hops]) h
  · exact recordsInfo_of_intOf_error hv (by simp [integerTokens, hops]) h
  · exact recordsInfo_of_stackIndex_error ⟨f, .inl rfl⟩ h
  · exact recordsInfo_of_cellOf_error ⟨sp, f, hsp, .inl ⟨rfl, rfl⟩⟩ h
  · exact recordsInfo_of_fit_error (i := .push f) ⟨sp, hsp, rfl⟩ h
  · cases h

theorem recordsInfo_of_popReadThenIncrement {f : Fields} {r : Reg} (hops : f.ops = [r.name])
    (horder : s.cfg.popOrder = .readThenIncrement) (h : popReadThenIncrement r s = .error e) :
    RecordsInfo s (.pop f) e := by
  have hwrite : ∀ sp k n, s.reg .rsp = .int sp → CellIs s.cfg sp k →
      (n = Memory.read s.mem k ∨ n = (if r = .rsp then Memory.read s.mem k else sp) + 1) →
      WouldWrite s (.pop f) n :=
    fun sp k n hsp hk hn => ⟨r, sp, k, hops, hsp, .inl ⟨horder, hk, hn⟩⟩
  simp only [popReadThenIncrement, bind_eq_error, stackIndex_eq_ok, cellOf_eq_ok, fit_eq_ok] at h
  rcases h with h | ⟨sp, hsp, h | ⟨k, hk, h | ⟨v, ⟨-, rfl⟩, h | ⟨sp', hsp', h | ⟨n, -, h⟩⟩⟩⟩⟩
  · exact recordsInfo_of_stackIndex_error ⟨f, .inr rfl⟩ h
  · exact recordsInfo_of_cellOf_error ⟨sp, f, hsp, .inr ⟨rfl, (if_pos horder).symm⟩⟩ h
  · exact recordsInfo_of_fit_error (hwrite sp k _ hsp hk (.inl rfl)) h
  · rw [stackIndex_of_int (reg_rsp_setReg_int hsp r _)] at h
    cases h
  · obtain rfl := Value.int.inj ((reg_rsp_setReg_int hsp r _).symm.trans hsp')
    exact recordsInfo_of_fit_error (hwrite sp k _ hsp hk (.inr rfl)) h
  · cases h

theorem recordsInfo_of_popIncrementThenRead {f : Fields} {r : Reg} (hops : f.ops = [r.name])
    (horder : s.cfg.popOrder = .incrementThenRead) (h : popIncrementThenRead r s = .error e) :
    RecordsInfo s (.pop f) e := by
  have hother : s.cfg.popOrder ≠ .readThenIncrement := by simp [horder]
  have hwrite : ∀ sp k n, s.reg .rsp = .int sp → CellIs s.cfg (sp + 1) k →
      (n = Memory.read s.mem k ∨ n = sp + 1) → WouldWrite s (.pop f) n :=
    fun sp k n hsp hk hn => ⟨r, sp, k, hops, hsp, .inr ⟨horder, hk, hn⟩⟩
  simp only [popIncrementThenRead, bind_eq_error, stackIndex_eq_ok, cellOf_eq_ok] at h
  rcases h with h | ⟨sp, hsp, h | ⟨k, hk, h | ⟨n, -, h | ⟨v, -, h⟩⟩⟩⟩
  · exact recordsInfo_of_stackIndex_error ⟨f, .inr rfl⟩ h
  · exact recordsInfo_of_cellOf_error ⟨sp, f, hsp, .inr ⟨rfl, (if_neg hother).symm⟩⟩ h
  · exact recordsInfo_of_fit_error (hwrite sp k _ hsp hk (.inr rfl)) h
  · exact recordsInfo_of_fit_error (hwrite sp k _ hsp hk (.inl rfl)) h
  · cases h

/-- R351. -/
theorem recordsInfo_of_pop {f : Fields} (h : popEffect f.ops s = .error e) :
    RecordsInfo s (.pop f) e := by
  simp only [popEffect, bind_eq_error, oneOperand_eq_ok, destRef_eq_ok] at h
  rcases h with h | ⟨d, hops, h | ⟨r, rfl, h⟩⟩
  · exact recordsInfo_of_oneOperand_error (fun _ => id) h
  · exact recordsInfo_of_destRef_error (congrArg List.head? hops) (by simp [resolvedTokens, hops]) h
  · cases horder : s.cfg.popOrder with
    | readThenIncrement =>
      rw [horder] at h
      exact recordsInfo_of_popReadThenIncrement hops horder h
    | incrementThenRead =>
      rw [horder] at h
      exact recordsInfo_of_popIncrementThenRead hops horder h

theorem recordsInfo_of_defineOperands_error {f : Fields} (h : defineOperands f.ops = .error e) :
    RecordsInfo s (.define f) e := by
  by_cases hshort : f.ops.length < 3
  · rw [defineOperands_of_length hshort] at h
    obtain rfl := Except.error.inj h
    refine recordsInfo_of_countError (by omega) fun tok hfault => ?_
    rcases hfault with ⟨before, rest, hops, hlen⟩ | hlast
    · rw [hops] at hshort
      simp [hlen] at hshort
    · exact hlast
  obtain ⟨ops, raw⟩ := f
  obtain ⟨d, len, w, ws, rfl⟩ : ∃ d len w ws, ops = d :: len :: w :: ws := by
    match ops, hshort with
    | d :: len :: w :: ws, _ => exact ⟨d, len, w, ws, rfl⟩
    | [], h | [_], h | [_, _], h => simp at h
  by_cases hlen : IsDigits len
  · by_cases hquoted : ∃ t, QuotedLiteral w ws t
    · obtain ⟨t, ht⟩ := hquoted
      rw [defineOperands_of_quotedLiteral hlen ht] at h
      cases h
    · rw [not_exists] at hquoted
      rw [defineOperands_of_not_quotedLiteral hlen hquoted] at h
      cases h
      exact .inr (.inr (.inr ⟨d, len, ws, raw, rfl, hquoted⟩))
  · rw [defineOperands_of_not_isDigits hlen] at h
    cases h
    exact .inr (.inr (.inl ⟨d, w :: ws, raw, rfl, by simp, hlen⟩))

/-- R380. -/
theorem recordsInfo_of_define {f : Fields} (h : defineEffect f.ops s = .error e) :
    RecordsInfo s (.define f) e := by
  obtain ⟨ops, raw⟩ := f
  simp only [defineEffect, bind_eq_error, immediate_eq_ok] at h
  rcases h with h | ⟨⟨d, len, t⟩, hparsed, h⟩
  · exact recordsInfo_of_defineOperands_error h
  obtain ⟨w, ws, rfl, hdigits, hraw, hquote⟩ := defineOperands_eq_ok.mp hparsed
  rcases h with h | ⟨r, -, h | ⟨n, ⟨-, rfl⟩, h⟩⟩
  · exact recordsInfo_of_destRef_error (i := .define ⟨d :: len :: w :: ws, raw⟩) rfl
      (by simp [resolvedTokens]) h
  · cases hfit : s.cfg.fits (immediateValue len) with
    | true =>
      rw [immediate_eq_ok.mpr ⟨hfit, rfl⟩] at h
      cases h
    | false =>
      rw [immediate_of_not_fits hfit] at h
      cases h
      exact .inl ⟨len, by simp [resolvedTokens], hdigits, rfl, hfit⟩
  · split at h
    · cases h
    · rename_i hlen
      cases h
      exact ⟨d, len, w, ws, t, raw, rfl, rfl, ⟨hquote, hraw⟩, rfl, Ne.symm hlen⟩

/-- R384. -/
theorem recordsInfo_of_hlt {f : Fields} {u : State}
    (h : (noOperand "HLT".toList f.ops).map (fun _ => u) = .error e) :
    RecordsInfo s (.hlt f) e := by
  by_cases hops : f.ops = []
  · rw [hops] at h
    cases h
  · rw [noOperand_of_ne_nil hops] at h
    cases h
    exact recordsInfo_of_countError (by simpa using hops) fun _ => id

/-- R385 and R386. -/
theorem recordsInfo_of_include {f : Fields} (h : includeEffect f.ops s = .error e) :
    RecordsInfo s (.incl f) e := by
  cases hmode : s.cfg.includeMode with
  | refuse =>
    rw [includeEffect_of_refuse hmode] at h
    cases h
    rfl
  | nested =>
    by_cases hlen : f.ops.length = 1
    · obtain ⟨ops, raw⟩ := f
      obtain ⟨path, rfl⟩ := List.length_eq_one_iff.mp hlen
      cases hload : s.cfg.load path with
      | none =>
        rw [includeEffect_of_load_none hmode hload] at h
        cases h
        exact ⟨⟨raw, rfl⟩, hload⟩
      | some q =>
        rw [includeEffect_eq_ok.mpr ⟨hmode, path, q, rfl, hload, rfl⟩] at h
        cases h
    · rw [includeEffect_of_length hmode hlen] at h
      cases h
      exact recordsInfo_of_countError hlen fun _ => id

end

end Sys2Proof.Machine
end

section
/-! The proof of the statement about the info an error records (spec/60_exceptions.md R500): what
a fault of each instruction says of its effect, and the statement. -/

namespace Sys2Proof.Machine

/-- `t` is a fault with the info `e` that a live `s` has run into. -/
def FaultsWith (s t : State) (e : Err) : Prop :=
  s.sched ≠ .faulted ∧ t.sched = .faulted ∧ t.errorInfo = some e

/-- A completed instruction leaves `sched`. -/
theorem WritesOnly.sched_eq {s t : State} {events : List Event} (h : WritesOnly s t events) :
    t.sched = s.sched := by
  unfold WritesOnly at h
  rw [h]

section
variable {s u t : State} {raw : Line} {e : Err}

theorem error_of_raise_faultsWith {e' : Err} (hf : FaultsWith s t e)
    (h : Host.Outcome.next (u.raise raw e') = (.next t : Host.Outcome State Fault Refusal)) :
    e' = e := by
  obtain ⟨-, -, hinfo⟩ := hf
  obtain rfl := Host.Outcome.next.inj h
  exact Option.some.inj hinfo

/-- An instruction that ends by `finish` in a fault has an effect that raised what is recorded. -/
theorem error_of_finish_faultsWith {r : Except Err State} (hf : FaultsWith s t e)
    (hok : ∀ v, r = .ok v → WritesOnly s v s.events) (h : finish u raw r = .next t) :
    r = .error e := by
  rcases finish_cases h with ⟨e', hr, rfl⟩ | ⟨v, hv, rfl⟩
  · rw [hr, error_of_raise_faultsWith hf rfl]
  · exact absurd ((hok v hv).sched_eq.symm.trans hf.2.1) hf.1

theorem error_of_include_faultsWith {f : Fields} (hf : FaultsWith s t e)
    (h : execInclude f s = .next t) : includeEffect f.ops s = .error e := by
  rcases finishInPlace_cases h with ⟨e', hr, rfl⟩ | ⟨v, hv, rfl⟩
  · rw [hr, error_of_raise_faultsWith hf rfl]
  · obtain ⟨-, _, _, -, -, rfl⟩ := includeEffect_eq_ok.mp hv
    exact absurd hf.2.1 hf.1

end

/-! The two-operand instructions: the value each gives, and the errors of its function. -/

section
variable {s t : State} {i : Instr} {op : Token} {f : Fields} {e : Err}

/-- A function that never raises adds no error to those of R201. -/
theorem recordsInfo_of_total_alu2 {g value : Int → Int → Int}
    (hcount : ∀ tok, CountFault op 2 f.ops tok → Miscounted i tok)
    (hdest : ∀ tok, f.ops.head? = some tok → DestinationIs i tok)
    (hres : resolvedTokens i = f.ops) (hint : integerTokens i = f.ops)
    (hvalue : ∀ a b, g a b = value a b)
    (hwrite : ∀ n, Result2 s f.ops value n → WouldWrite s i n) (hf : FaultsWith s t e)
    (h : finish s f.raw (alu2 op (fun a b => .ok (g a b)) f.ops s) = .next t) :
    RecordsInfo s i e := by
  refine recordsInfo_of_alu2 hcount hdest hres hint (fun a b n hn => ?_) hwrite
    (fun _ _ _ _ _ _ _ herr => by cases herr)
    (error_of_finish_faultsWith hf (fun _ => writesOnly_alu2) h)
  rw [← hvalue, Except.ok.inj hn]

theorem fields_eq_of_ops {ops : List Token} (h : f.ops = ops) : f = ⟨ops, f.raw⟩ := by
  rw [← h]

/-- R206: the one error of DIV's function is the zero divisor. -/
theorem recordsInfo_of_div (hf : FaultsWith s t e) (h : execDiv f s = .next t) :
    RecordsInfo s (.div f) e := by
  refine recordsInfo_of_alu2 (value := fun a b => ⌊(a : ℚ) / (b : ℚ)⌋) (fun _ => id) (fun _ => id)
    rfl rfl (fun a b n hn => ?_) (fun _ => id) (fun d src a b e' hops hsrc herr => ?_)
    (error_of_finish_faultsWith hf (fun _ => writesOnly_alu2) h)
  · unfold divide at hn
    split at hn
    · cases hn
    · rw [← floorDiv_eq_floor, Except.ok.inj hn]
  · unfold divide at herr
    split at herr
    · rename_i hzero
      cases herr
      exact ⟨d, src, f.raw, congrArg Instr.div (fields_eq_of_ops hops), hzero ▸ hsrc⟩
    · cases herr

/-- R254 and R255: the one error of a shift's function is the negative count. -/
theorem recordsInfo_of_shift {g value : Int → Int → Int}
    (hcount : ∀ tok, CountFault op 2 f.ops tok → Miscounted i tok)
    (hdest : ∀ tok, f.ops.head? = some tok → DestinationIs i tok)
    (hres : resolvedTokens i = f.ops) (hint : integerTokens i = f.ops)
    (hvalue : ∀ a b, g a b = value a b)
    (hwrite : ∀ n, Result2 s f.ops value n → WouldWrite s i n)
    (hi : i = .shl f ∨ i = .shr f) (hf : FaultsWith s t e)
    (h : finish s f.raw (alu2 op (shiftBy g) f.ops s) = .next t) : RecordsInfo s i e := by
  refine recordsInfo_of_alu2 hcount hdest hres hint (fun a b n hn => ?_) hwrite
    (fun d src a b e' hops hsrc herr => ?_)
    (error_of_finish_faultsWith hf (fun _ => writesOnly_alu2) h)
  · unfold shiftBy at hn
    split at hn
    · cases hn
    · rw [← hvalue, Except.ok.inj hn]
  · unfold shiftBy at herr
    split at herr
    · rename_i hneg
      cases herr
      rw [fields_eq_of_ops hops] at hi
      exact .inr (.inl ⟨d, src, f.raw, hsrc, .inl ⟨hneg, hi⟩⟩)
    · cases herr

/-- R256 and R257: the one error of a rotate's function is the count outside its range. -/
theorem recordsInfo_of_rotate {g : Nat → Int → Int → Int} {value : Int → Int → Int}
    (hcount : ∀ tok, CountFault op 2 f.ops tok → Miscounted i tok)
    (hdest : ∀ tok, f.ops.head? = some tok → DestinationIs i tok)
    (hres : resolvedTokens i = f.ops) (hint : integerTokens i = f.ops)
    (hvalue : ∀ a b, 0 ≤ b → g s.cfg.rotWidth a b = value a b)
    (hwrite : ∀ n, Result2 s f.ops value n → WouldWrite s i n)
    (hi : i = .ror f ∨ i = .rol f) (hf : FaultsWith s t e)
    (h : finish s f.raw (alu2 op (rotateBy s.cfg.rotWidth g) f.ops s) = .next t) :
    RecordsInfo s i e := by
  refine recordsInfo_of_alu2 hcount hdest hres hint (fun a b n hn => ?_) hwrite
    (fun d src a b e' hops hsrc herr => ?_)
    (error_of_finish_faultsWith hf (fun _ => writesOnly_alu2) h)
  · unfold rotateBy at hn
    split at hn
    · cases hn
    · rw [← hvalue a b (by omega), Except.ok.inj hn]
  · unfold rotateBy at herr
    split at herr
    · rename_i hrange
      cases herr
      rw [fields_eq_of_ops hops] at hi
      exact .inr (.inl ⟨d, src, f.raw, hsrc, .inr ⟨hrange, hi⟩⟩)
    · cases herr

/-- R207. -/
theorem recordsInfo_of_alu1_faults {g : Int → Int}
    (hcount : ∀ tok, CountFault op 1 f.ops tok → Miscounted i tok)
    (hdest : ∀ tok, f.ops.head? = some tok → DestinationIs i tok)
    (hres : resolvedTokens i = f.ops) (hint : integerTokens i = f.ops)
    (hwrite : ∀ n, Result1 s f.ops g n → WouldWrite s i n) (hf : FaultsWith s t e)
    (h : finish s f.raw (alu1 op g f.ops s) = .next t) : RecordsInfo s i e :=
  recordsInfo_of_alu1 hcount hdest hres hint hwrite
    (error_of_finish_faultsWith hf (fun _ => writesOnly_alu1) h)

/-- R301. -/
theorem recordsInfo_of_jump_faults {taken : BitVec 1 → Bool} {clears : Bool}
    (hcount : ∀ tok, CountFault op 1 f.ops tok → Miscounted i tok)
    (hres : resolvedTokens i = f.ops) (hint : integerTokens i = f.ops) (hf : FaultsWith s t e)
    (h : finish s f.raw (jump op taken clears f.ops s) = .next t) : RecordsInfo s i e :=
  recordsInfo_of_jump hcount hres hint
    (error_of_finish_faultsWith hf (fun _ => writesOnly_jump) h)

/-! CALL (R381 to R383). -/

theorem recordsInfo_of_print {args : List Token} {raw : Line}
    (h : printEffect args s = .error e) :
    RecordsInfo s (.call ⟨"print".toList :: args, raw⟩) e := by
  simp only [printEffect, bind_eq_error, oneOperand_eq_ok] at h
  rcases h with h | ⟨src, rfl, h | ⟨v, -, h⟩⟩
  · exact recordsInfo_of_oneOperand_error (fun tok hfault => .inr ⟨args, rfl, hfault⟩) h
  · exact recordsInfo_of_readSrc_error (by simp [resolvedTokens]) h
  · cases h

/-- The error of a list of source tokens is that of one of them. -/
theorem readSrc_of_readAll_error {args : List Token} (h : readAll s args = .error e) :
    ∃ tok ∈ args, readSrc s tok = .error e := by
  induction args with
  | nil => cases h
  | cons tok args ih =>
    simp only [readAll, bind_eq_error] at h
    rcases h with h | ⟨v, -, h | ⟨vs, -, h⟩⟩
    · exact ⟨tok, by simp, h⟩
    · obtain ⟨tok', hmem, h⟩ := ih h
      exact ⟨tok', by simp [hmem], h⟩
    · cases h

/-- The one error of a host's answer is HostCallFault. -/
theorem eq_hostCallFault_of_applyAnswer_error {name : Token} {args : List Token} {a : HostAnswer}
    (h : applyAnswer name args a s = .error e) : e = .hostCallFault name := by
  cases a with
  | fail => exact (Except.error.inj h).symm
  | ok ws out =>
    simp only [applyAnswer, bind_eq_error] at h
    rcases h with h | ⟨u, -, h⟩
    · exact eq_hostCallFault_of_hostWrites_error h
    · cases out <;> cases h

theorem recordsInfo_of_hostCall {name : Token} {args : List Token} {raw : Line}
    (hlisted : name ∈ callTable) (hprint : name ≠ "print".toList) (hf : FaultsWith s t e)
    (h : hostCall name args raw s = .next t) : RecordsInfo s (.call ⟨name :: args, raw⟩) e := by
  have hfails : e = .hostCallFault name → RecordsInfo s (.call ⟨name :: args, raw⟩) e := by
    rintro rfl
    exact ⟨hlisted, hprint, args, raw, rfl⟩
  cases hvals : readAll s args with
  | error e' =>
    rw [hostCall_of_readAll_error hvals] at h
    obtain rfl := error_of_raise_faultsWith hf h
    obtain ⟨tok, hmem, herr⟩ := readSrc_of_readAll_error hvals
    exact recordsInfo_of_readSrc_error hmem herr
  | ok vals =>
    cases hhandler : s.cfg.callHandler with
    | false =>
      rw [hostCall_of_no_handler hvals hhandler] at h
      exact hfails (error_of_raise_faultsWith hf h).symm
    | true =>
      rw [hostCall_of_handler hvals hhandler] at h
      exact hfails (eq_hostCallFault_of_applyAnswer_error
        (error_of_finish_faultsWith hf (fun _ => writesOnly_applyAnswer) h))

theorem recordsInfo_of_call (hf : FaultsWith s t e) (h : execCall f s = .next t) :
    RecordsInfo s (.call f) e := by
  obtain ⟨ops, raw⟩ := f
  cases ops with
  | nil =>
    obtain rfl := error_of_raise_faultsWith hf h
    exact .inl (.inl ⟨rfl, rfl⟩)
  | cons name args =>
    by_cases hlisted : name ∈ callTable
    · by_cases hprint : name = "print".toList
      · subst hprint
        refine recordsInfo_of_print (error_of_finish_faultsWith hf (fun u hu => ?_) h)
        obtain ⟨_, _, -, -, rfl⟩ := printEffect_eq_ok.mp hu
        rfl
      · rw [execCall_of_ne_print hlisted hprint] at h
        exact recordsInfo_of_hostCall hlisted hprint hf h
    · have herr := exec_call_of_not_mem hlisted args raw s
      obtain rfl := error_of_raise_faultsWith hf (herr.symm.trans h)
      exact ⟨hlisted, args, raw, rfl⟩

end

/-- Every instruction that faults records the info of its error. -/
theorem recordsInfo_of_exec {i : Instr} {s t : State} {e : Err} (hf : FaultsWith s t e)
    (h : exec i s = .next t) : RecordsInfo s i e := by
  cases i with
  | mov f =>
    exact recordsInfo_of_mov (error_of_finish_faultsWith hf (fun _ => writesOnly_movEffect) h)
  | add f | sub f | mul f =>
    exact recordsInfo_of_total_alu2 (fun _ => id) (fun _ => id) rfl rfl (fun _ _ => rfl)
      (fun _ => id) hf h
  | div f => exact recordsInfo_of_div hf h
  | inc f | dec f | neg f =>
    exact recordsInfo_of_alu1_faults (fun _ => id) (fun _ => id) rfl rfl (fun _ => id) hf h
  | andOp f =>
    exact recordsInfo_of_total_alu2 (fun _ => id) (fun _ => id) rfl rfl bitAnd_eq_land
      (fun _ => id) hf h
  | orOp f =>
    exact recordsInfo_of_total_alu2 (fun _ => id) (fun _ => id) rfl rfl bitOr_eq_lor
      (fun _ => id) hf h
  | xorOp f =>
    exact recordsInfo_of_total_alu2 (fun _ => id) (fun _ => id) rfl rfl bitXor_eq_xor
      (fun _ => id) hf h
  | shl f =>
    exact recordsInfo_of_shift (value := fun a b => a * 2 ^ b.toNat) (fun _ => id) (fun _ => id)
      rfl rfl (fun _ _ => rfl) (fun _ => id) (.inl rfl) hf h
  | shr f =>
    exact recordsInfo_of_shift (fun _ => id) (fun _ => id) rfl rfl shiftRight_eq_floor (fun _ => id)
      (.inr rfl) hf h
  | ror f =>
    exact recordsInfo_of_rotate (fun _ => id) (fun _ => id) rfl rfl
      (fun a _ hb => rotateRight_eq hb _ a) (fun _ => id) (.inl rfl) hf h
  | rol f =>
    exact recordsInfo_of_rotate (fun _ => id) (fun _ => id) rfl rfl
      (fun a _ hb => rotateLeft_eq hb _ a) (fun _ => id) (.inr rfl) hf h
  | cmp f =>
    exact recordsInfo_of_cmp (error_of_finish_faultsWith hf (fun _ => writesOnly_cmpEffect) h)
  | jmp f | jeq f | jne f | jg f | jl f | jge f | jle f =>
    exact recordsInfo_of_jump_faults (fun _ => id) rfl rfl hf h
  | push f =>
    exact recordsInfo_of_push (error_of_finish_faultsWith hf (fun _ => writesOnly_pushEffect) h)
  | pop f =>
    exact recordsInfo_of_pop (error_of_finish_faultsWith hf (fun _ => writesOnly_popEffect) h)
  | define f =>
    exact recordsInfo_of_define (error_of_finish_faultsWith hf (fun _ => writesOnly_defineEffect) h)
  | call f => exact recordsInfo_of_call hf h
  | hlt f =>
    refine recordsInfo_of_hlt (error_of_finish_faultsWith hf (fun u hu => ?_) h)
    cases hops : noOperand "HLT".toList f.ops with
    | error e => rw [hops] at hu; cases hu
    | ok _ => rw [hops] at hu; cases hu; rfl
  | incl f => exact recordsInfo_of_include (error_of_include_faultsWith hf h)
  | skipLine =>
    cases h
    exact absurd hf.2.1 hf.1
  | notOp | ret | string | cov | je | unknownOpcode =>
    obtain rfl := error_of_raise_faultsWith hf h
    rfl

/-- Settles O37: a fault records the error its instruction's effect raised, and each of those errors
carries what the table of R500 says. -/
theorem errorsRecordTheirInfo : Obligations.ErrorsRecordTheirInfo := by
  unfold Obligations.ErrorsRecordTheirInfo
  intro s t i e h hlive hfault hinfo
  exact recordsInfo_of_exec ⟨hlive, hfault, hinfo⟩ h

end Sys2Proof.Machine
end

section
/-! SUPPORT. What a micro-step is for each thing that a fetch can find, what the end test and the
debug pause do, and what a turn is (spec/46_scheduler.md R430 to R436). -/

namespace Sys2Proof.Machine

/-! The end test and the debug pause. -/

/-- The end test of an active machine halts it at the end of its program, and there only. -/
theorem endTest_of_active {s : State} (h : s.sched = .running ∨ s.sched = .paused) :
    endTest s = { s with sched := if PastTheEnd s then .halted else s.sched } := by
  unfold endTest
  simp only [h, true_and, atEnd_iff]
  split <;> rfl

theorem endTest_of_not_active {s : State} (h : ¬ (s.sched = .running ∨ s.sched = .paused)) :
    endTest s = s := by
  simp [endTest, h]

theorem debugPause_of_not_running {s : State} (c : Consumed) (h : s.sched ≠ .running) :
    debugPause c s = s := by
  simp [debugPause, h]

theorem debugPause_of_not_executed {c : Consumed} (s : State) (h : c ≠ .executed) :
    debugPause c s = s := by
  simp [debugPause, h]

/-! What was consumed. -/

theorem consumedBy_of_faulted (i : Instr) {t : State} (h : t.sched = .faulted) :
    consumedBy i t = .raised := by
  simp [consumedBy, h]

theorem consumedBy_skipLine {t : State} (h : t.sched ≠ .faulted) :
    consumedBy .skipLine t = .skipped := by
  simp [consumedBy, h]

theorem consumedBy_of_executed {i : Instr} {t : State} (h : t.sched ≠ .faulted)
    (hi : i ≠ .skipLine) : consumedBy i t = .executed := by
  simp [consumedBy, h, hi]

/-! A micro-step, by what the fetch finds. -/

theorem microStep_of_negative {s : State} (h : s.rip < 0) :
    microStep s = .next (.raised, s.raise [] (.valueOutOfRange s.rip)) := by
  simp [microStep, fetch_eq_negative.mpr h]

theorem microStep_of_leave {s : State} {f : Frame} {rest : List Frame}
    (h : (s.prog.length : Int) ≤ s.rip) (hframes : s.incStack = f :: rest) :
    microStep s = .next (.includeReturn,
      endTest { s with prog := f.prog, rip := f.resume, incStack := rest }) := by
  simp [microStep, fetch_eq_leave.mpr ⟨h, hframes⟩]

theorem microStep_of_ended {s : State} (h : (s.prog.length : Int) ≤ s.rip)
    (hframes : s.incStack = []) : microStep s = .next (.nothing, endTest s) := by
  simp [microStep, fetch_eq_ended.mpr ⟨h, hframes⟩]

theorem microStep_of_line {s t : State} {l : Line} (h0 : 0 ≤ s.rip)
    (hl : s.prog[s.rip.toNat]? = some l) (he : exec (decode l) s = .next t) :
    microStep s = .next (consumedBy (decode l) t, endTest t) := by
  simp [microStep, fetch_eq_line.mpr ⟨h0, hl⟩, runLine, he, andThen]

/-- A micro-step that neither executes nor raises passes over a skip line, an include return or
the end: it writes nothing but RIP, the program, the frames and `sched`. -/
theorem microStep_passes {s : State} {p : Consumed × State} (h : microStep s = .next p)
    (hpass : ¬ (p.1 = .executed ∨ p.1 = .raised)) : ∃ rip prog frames sched,
      p.2 = { s with rip := rip, prog := prog, incStack := frames, sched := sched } := by
  rcases microStep_cases s with ⟨-, h'⟩ | ⟨f, rest, -, -, h'⟩ | ⟨-, -, h'⟩ |
    ⟨l, t, -, -, he, h'⟩ <;>
    rw [h'] at h <;> cases h
  · simp at hpass
  · exact ⟨_, _, _, _, endTest_frame _⟩
  · exact ⟨_, _, _, _, endTest_frame _⟩
  · by_cases hf : t.sched = .faulted
    · simp [consumedBy_of_faulted _ hf] at hpass
    · by_cases hk : decode l = .skipLine
      · rw [hk] at he
        cases he
        exact ⟨_, _, _, _, endTest_frame _⟩
      · simp [consumedBy_of_executed hf hk] at hpass

/-- A micro-step leaves `debug`. -/
theorem microStep_debug {s : State} {p : Consumed × State} (h : microStep s = .next p) :
    p.2.debug = s.debug := by
  have htest : ∀ t : State, (endTest t).debug = t.debug := fun t => by rw [endTest_frame]
  rcases microStep_cases s with ⟨-, h'⟩ | ⟨f, rest, -, -, h'⟩ | ⟨-, -, h'⟩ |
    ⟨l, t, -, -, he, h'⟩ <;>
    rw [h'] at h <;> cases h
  · rfl
  · exact htest _
  · exact htest _
  · obtain ⟨-, -, hdebug, -⟩ := outputProgramAndConfigurationHaveTheirWriters _ _ _ he
    exact (htest t).trans hdebug

/-! One turn. -/

theorem coreTurn_of_microStep {s : State} {p : Consumed × State} (hs : s.sched = .running)
    (h : microStep s = .next p) : coreTurn s = .next (debugPause p.1 p.2) := by
  simp [coreTurn, hs, h, andThen]

/-- A step is a turn of the core or a command of the host. -/
theorem step_cases (s : State) :
    (∃ u, CoreTurn s u ∧ step s = coreTurn u) ∨
      ∃ c rest, s.turns = .host c :: rest ∧ step s = command c { s with turns := rest } := by
  rcases hturns : s.turns with _ | ⟨_ | _, rest⟩
  · exact .inl ⟨s, .inl ⟨hturns, rfl⟩, step_of_no_turns hturns⟩
  · exact .inr ⟨_, rest, rfl, step_of_host hturns⟩
  · exact .inl ⟨_, .inr ⟨rest, hturns, rfl⟩, step_of_core hturns⟩

/-- A turn of the core uses up at most the turn, and is no turn of the host. -/
theorem CoreTurn.eq_and_head {s u : State} (h : CoreTurn s u) :
    u = { s with turns := u.turns } ∧ (s.turns.head? = none ∨ s.turns.head? = some .core) := by
  rcases h with ⟨hturns, rfl⟩ | ⟨rest, hturns, rfl⟩
  · exact ⟨rfl, .inl (by simp [hturns])⟩
  · exact ⟨rfl, .inr (by simp [hturns])⟩

/-! The loop of `step()`. -/

theorem stepLoop_succ {s : State} {p : Consumed × State} (h : microStep s = .next p) (fuel : Nat) :
    stepLoop (fuel + 1) s = if p.1 = .executed ∨ p.1 = .raised ∨ p.2.sched = .halted then .next p.2
      else stepLoop fuel p.2 := by
  simp [stepLoop, h, andThen]

/-- An accepted `step()` is the loop. -/
theorem command_step_accepted {s : State} (h : s.sched = .paused) :
    command .step s = stepLoop (s.linesLeft + 1) (s.emit .accepted) := if_pos h

end Sys2Proof.Machine
end

section
/-! The proofs of the statements about one turn of the core (spec/46_scheduler.md R432 to R436)
and about the skip line. -/

namespace Sys2Proof.Machine

/-- Settles O36: executing a skip line is the implicit increment. -/
theorem skipLinesOnlyMoveRip : Obligations.SkipLinesOnlyMoveRip := by
  unfold Obligations.SkipLinesOnlyMoveRip
  intro s
  rw [exec_skipLine, execSkipLine]
  rfl

/-- Settles O46: on a line the core's turn is `exec`, the end test and the debug pause, of which
the last two do nothing to a fault. -/
theorem aStepRunsTheDecodedLine : Obligations.AStepRunsTheDecodedLine := by
  unfold Obligations.AStepRunsTheDecodedLine
  intro s u hturn
  rw [step_of_coreTurn hturn]
  refine ⟨coreTurn_of_not_running, fun t l hrun h0 hl he => ?_⟩
  rw [coreTurn_of_line hrun h0 hl he]
  refine ⟨fun hfault => ⟨?_, ?_⟩, fun hlive hend => ?_, fun hlive hend => ?_⟩
  · rw [endTest_of_not_active (by simp [hfault]), debugPause_of_not_running _ (by simp [hfault])]
  · rcases completes_or_faultsPrecisely_of_ends (exec_ends he) with ⟨hsched, -⟩ |
      ⟨-, -, -, -, -, -, -, -, e, -, hrecord, -⟩
    · rw [hsched, hrun] at hfault
      cases hfault
    · refine ⟨_, hrecord, rfl, decode_raw fun hskip => ?_⟩
      rw [hskip] at he
      cases he
      exact absurd (hrun.symm.trans hfault) (by decide)
  · rw [endTest_of_active (.inl hlive), if_pos hend]
    exact congrArg Host.Outcome.next (debugPause_of_not_running _ (by simp))
  · have hok : t.sched ≠ .faulted := by simp [hlive]
    obtain ⟨-, -, hdebug, -⟩ := outputProgramAndConfigurationHaveTheirWriters _ _ _ he
    have hstay : endTest t = t := by rw [endTest_of_active (.inl hlive), if_neg hend]
    rw [hstay]
    by_cases hskip : decode l = .skipLine
    · rw [hskip, consumedBy_skipLine hok, debugPause_of_not_executed (c := .skipped) t nofun]
      simp
    · rw [consumedBy_of_executed hok hskip]
      simp [debugPause, hlive, hdebug, hskip]

/-- Settles O47: both fetches find no line, and their micro-steps are no instruction to pause
after. -/
theorem fetchOutsideTheProgram : Obligations.FetchOutsideTheProgram := by
  unfold Obligations.FetchOutsideTheProgram
  intro s u hturn hrun
  rw [step_of_coreTurn hturn]
  refine ⟨fun hneg => ?_, fun f rest hend hframes => ?_⟩
  · rw [coreTurn_of_microStep hrun (microStep_of_negative hneg)]
    exact congrArg Host.Outcome.next (debugPause_of_not_executed _ (by simp))
  · rw [coreTurn_of_microStep hrun (microStep_of_leave hend hframes),
      debugPause_of_not_executed (c := .includeReturn) _ nofun,
      endTest_of_active (s := { u with prog := f.prog, rip := f.resume, incStack := rest })
        (.inl hrun)]
    simp only [hrun]

end Sys2Proof.Machine
end

section
/-! The proofs of the statements about `step()` and the loop it runs (spec/46_scheduler.md R439). -/

namespace Sys2Proof.Machine

/-- Where a micro-step of a paused machine passes over something and does not halt it, the loop
goes on from what the micro-step leaves, whatever its bound. -/
theorem stepLoop_of_goes_on {s : State} {p : Consumed × State} (hs : s.sched = .paused)
    (h : microStep s = .next p) (hp : ¬ (p.1 = .executed ∨ p.1 = .raised ∨ p.2.sched = .halted)) :
    stepLoop (s.linesLeft + 1) s = stepLoop (p.2.linesLeft + 1) p.2 := by
  obtain ⟨hpaused, hless⟩ := linesLeft_of_goes_on hs h hp
  rw [stepLoop_succ h, if_neg hp]
  exact stepLoop_bound hpaused hless (Nat.lt_succ_self _)

/-- The loop ends with the micro-step that executes, raises or halts. -/
theorem stepLoop_of_stops {s : State} {p : Consumed × State} (h : microStep s = .next p)
    (hp : p.1 = .executed ∨ p.1 = .raised ∨ p.2.sched = .halted) (fuel : Nat) :
    stepLoop (fuel + 1) s = .next p.2 := by
  rw [stepLoop_succ h, if_pos hp]

/-- How the loop of `step()` ends from `u`: with one instruction, with one error, or at the end of
the program with nothing executed (R439). -/
def StepCommandEnds (u t : State) : Prop :=
  (t.events = .notify :: u.events ∧ (t.sched = .paused ∨ t.sched = .halted)) ∨
    (t.sched = .faulted ∧ ∃ r, t.fault = some r ∧ t.events = .faultReport r :: u.events) ∨
    (t.sched = .halted ∧ t.events = u.events ∧ t.regs = u.regs ∧ t.rflags = u.rflags ∧
      t.mem = u.mem ∧ t.out = u.out)

/-- A micro-step that executes or raises ends the command so. -/
theorem stepCommandEnds_of_consumes {s : State} {p : Consumed × State} (hs : s.sched = .paused)
    (h : microStep s = .next p) (hp : p.1 = .executed ∨ p.1 = .raised) : StepCommandEnds s p.2 := by
  rcases microStep_cases s with ⟨-, h'⟩ | ⟨f, rest, -, -, h'⟩ | ⟨-, -, h'⟩ |
    ⟨l, t, -, -, he, h'⟩ <;>
    rw [h'] at h <;> cases h
  · exact .inr (.inl ⟨rfl, _, rfl, rfl⟩)
  · simp at hp
  · simp at hp
  · rcases completes_or_faultsPrecisely_of_ends (exec_ends he) with ⟨hsched, -, -, hevents⟩ |
      ⟨hfault, -, -, -, -, -, -, -, e, -, hrecord, hevents⟩
    · have hpaused : t.sched = .paused := hsched.trans hs
      have hinstr : decode l ≠ .skipLine := fun hskip => by
        rw [hskip, consumedBy_skipLine (by simp [hpaused])] at hp
        simp at hp
      rw [if_neg hinstr] at hevents
      refine .inl ⟨?_, ?_⟩
      · rw [endTest_frame]
        exact hevents
      · rw [endTest_of_active (.inr hpaused), hpaused]
        dsimp only
        split
        · exact .inr rfl
        · exact .inl rfl
    · have hstay : endTest t = t := endTest_of_not_active (by simp [hfault])
      rw [hstay]
      exact .inr (.inl ⟨hfault, _, hrecord, hevents⟩)

/-- The loop of `step()` always ends, in one of the three ways. -/
theorem stepLoop_ends {k : Nat} {s : State} (hs : s.sched = .paused) (hk : s.linesLeft < k) :
    ∃ t, stepLoop k s = .next t ∧ StepCommandEnds s t := by
  induction k generalizing s with
  | zero => omega
  | succ k ih =>
    obtain ⟨p, hp⟩ := microStep_next s
    by_cases hconsumes : p.1 = .executed ∨ p.1 = .raised
    · exact ⟨p.2, stepLoop_of_stops hp (by tauto) k, stepCommandEnds_of_consumes hs hp hconsumes⟩
    obtain ⟨rip, prog, frames, sched, hframe⟩ := microStep_passes hp hconsumes
    by_cases hhalted : p.2.sched = .halted
    · refine ⟨p.2, stepLoop_of_stops hp (.inr (.inr hhalted)) k, .inr (.inr ⟨hhalted, ?_⟩)⟩
      rw [hframe]
      exact ⟨rfl, rfl, rfl, rfl, rfl⟩
    · have hgo : ¬ (p.1 = .executed ∨ p.1 = .raised ∨ p.2.sched = .halted) := by tauto
      obtain ⟨hpaused, hless⟩ := linesLeft_of_goes_on hs hp hgo
      obtain ⟨t, ht, hends⟩ := ih hpaused (by omega)
      refine ⟨t, by rw [stepLoop_succ hp, if_neg hgo, ht], ?_⟩
      rw [hframe] at hends
      exact hends

/-- The step that an accepted `step()` is. -/
theorem step_of_accepted_step {s : State} {rest : List Turn}
    (hturns : s.turns = .host .step :: rest) (hs : s.sched = .paused) : step s = stepLoop (s.linesLeft + 1)
      { s with turns := rest, events := .accepted :: s.events } := by
  rw [step_of_host hturns]
  exact command_step_accepted (s := { s with turns := rest }) hs

/-- An instruction that is consumed ends the loop. -/
theorem consumedBy_instruction {i : Instr} (hi : i ≠ .skipLine) (t : State) :
    consumedBy i t = .executed ∨ consumedBy i t = .raised ∨ (endTest t).sched = .halted := by
  by_cases hf : t.sched = .faulted
  · exact .inr (.inl (consumedBy_of_faulted i hf))
  · exact .inl (consumedBy_of_executed hf hi)

/-- Where the loop's first micro-step passes over something and leaves `v`, it halts if that is
the end, and else goes on from `v`. -/
theorem stepLoop_of_passing {u v : State} {c : Consumed}
    (hmicro : microStep u = .next (c, endTest v)) (hu : u.sched = .paused) (hv : v.sched = .paused)
    (hc : ¬ (c = .executed ∨ c = .raised)) :
    (PastTheEnd v → stepLoop (u.linesLeft + 1) u = .next { v with sched := .halted }) ∧
      (¬ PastTheEnd v → stepLoop (u.linesLeft + 1) u = stepLoop (v.linesLeft + 1) v) := by
  have htest := endTest_of_active (.inr hv)
  refine ⟨fun hend => ?_, fun hend => ?_⟩
  · rw [if_pos hend] at htest
    rw [htest] at hmicro
    exact stepLoop_of_stops hmicro (.inr (.inr rfl)) _
  · rw [if_neg hend] at htest
    rw [htest] at hmicro
    refine stepLoop_of_goes_on hu hmicro ?_
    simpa [hv] using hc

/-- The end test after an instruction of a paused machine. -/
theorem endTest_of_exec {i : Instr} {s t : State} (hs : s.sched = .paused)
    (h : exec i s = .next t) :
    endTest t = if t.sched = .paused ∧ PastTheEnd t then { t with sched := .halted } else t := by
  rcases exec_sched h with hsched | hfault
  · have hpaused := hsched.trans hs
    rw [endTest_of_active (.inr hpaused)]
    by_cases hend : PastTheEnd t
    · rw [if_pos hend, if_pos ⟨hpaused, hend⟩]
    · rw [if_neg hend, if_neg fun hboth => hend hboth.2]
  · rw [endTest_of_not_active (by simp [hfault])]
    simp [hfault]

/-- Settles O50: the loop's first micro-step ends it or leaves the machine where another `step()`
would begin, and by induction on the lines left the loop ends. -/
theorem stepCommandConsumesOneInstruction : Obligations.StepCommandConsumesOneInstruction := by
  unfold Obligations.StepCommandConsumesOneInstruction
  intro s u rest hturns hs hu
  have hpaused : u.sched = .paused := hu ▸ hs
  have hstep : step s = stepLoop (u.linesLeft + 1) u := by
    rw [step_of_accepted_step hturns hs, hu]
    rfl
  have hagain : ∀ (rip : Int) (prog : Program) (frames : List Frame),
      step { s with rip := rip, prog := prog, incStack := frames } =
        stepLoop (State.linesLeft { u with rip := rip, prog := prog, incStack := frames } + 1)
          { u with rip := rip, prog := prog, incStack := frames } := by
    intro rip prog frames
    rw [hu]
    exact step_of_accepted_step hturns hs
  have hline : ∀ l, 0 ≤ s.rip → s.prog[s.rip.toNat]? = some l →
      0 ≤ u.rip ∧ u.prog[u.rip.toNat]? = some l := by
    rw [hu]
    exact fun l h0 hl => ⟨h0, hl⟩
  refine ⟨fun l t h0 hl hinstr he => ?_, fun hneg => ?_, fun l h0 hl hskip => ?_,
    fun f frames hend hframes => ?_, ?_⟩
  · obtain ⟨h0, hl⟩ := hline l h0 hl
    rw [hstep, stepLoop_of_stops (microStep_of_line h0 hl he) (consumedBy_instruction hinstr t)]
    exact congrArg Host.Outcome.next (endTest_of_exec hpaused he)
  · have hneg : u.rip < 0 := hu ▸ hneg
    rw [hstep, stepLoop_of_stops (microStep_of_negative hneg) (.inr (.inl rfl)), hu]
  · obtain ⟨h0, hl⟩ := hline l h0 hl
    have he : exec (decode l) u = .next u.advance := hskip ▸ exec_skipLine u
    have hmicro := microStep_of_line h0 hl he
    rw [hskip, consumedBy_skipLine (by simp [hpaused])] at hmicro
    obtain ⟨hends, hgoes⟩ := stepLoop_of_passing hmicro hpaused hpaused (by simp)
    rw [hstep, hagain (s.rip + 1) s.prog s.incStack]
    subst hu
    exact ⟨hends, hgoes⟩
  · have hend : (u.prog.length : Int) ≤ u.rip := hu ▸ hend
    have hframes : u.incStack = f :: frames := hu ▸ hframes
    obtain ⟨hends, hgoes⟩ := stepLoop_of_passing (microStep_of_leave hend hframes)
      hpaused hpaused (by simp)
    rw [hstep, hagain f.resume f.prog frames]
    exact ⟨hends, hgoes⟩
  · obtain ⟨t, ht, hends⟩ := stepLoop_ends hpaused (Nat.lt_succ_self _)
    rw [hu] at hends
    exact ⟨t, hstep.trans ht, hends⟩

end Sys2Proof.Machine
end

section
/-! The proofs of the statements about every step: that it answers, the transitions of `sched`,
the fault that stays, and `rate` (spec/46_scheduler.md R442, R447; spec/60_exceptions.md R507). -/

namespace Sys2Proof.Machine

/-! Every step answers. -/

theorem coreTurn_next (s : State) : ∃ t, coreTurn s = .next t := by
  by_cases hs : s.sched = .running
  · obtain ⟨p, -, h⟩ := coreTurn_of_running hs
    exact ⟨_, h⟩
  · exact ⟨s, coreTurn_of_not_running hs⟩

theorem stepLoop_next (fuel : Nat) (s : State) : ∃ t, stepLoop fuel s = .next t := by
  induction fuel generalizing s with
  | zero => exact ⟨s, rfl⟩
  | succ fuel ih =>
    obtain ⟨p, hp⟩ := microStep_next s
    rw [stepLoop_succ hp]
    split
    · exact ⟨p.2, rfl⟩
    · exact ih p.2

theorem command_next (c : Command) (s : State) : ∃ t, command c s = .next t := by
  cases c with
  | run P =>
    by_cases h : s.sched = .idle ∨ s.sched = .halted
    · exact ⟨_, command_run_accepted P h⟩
    · exact ⟨_, command_run_rejected P h⟩
  | step =>
    by_cases h : s.sched = .paused
    · rw [command_step_accepted h]
      exact stepLoop_next _ _
    · exact ⟨_, command_step_rejected h⟩
  | reset | setDebug | setRate => exact ⟨_, rfl⟩

/-- What a command can do: start a program, run the loop of `step()`, reset, or answer and write
at most `debug` and `rate` (R437 to R441, R600). -/
theorem command_cases {c : Command} {s t : State} (h : command c s = .next t) :
    (∃ P, c = .run P ∧ (s.sched = .idle ∨ s.sched = .halted) ∧ t = startRun P (s.emit .accepted)) ∨
      (c = .step ∧ s.sched = .paused ∧
        stepLoop (s.linesLeft + 1) (s.emit .accepted) = .next t) ∨
      (c = .reset ∧ t = s.afterReset.emit .accepted) ∨
      ∃ debug rate events, t = { s with debug := debug, rate := rate, events := events } := by
  cases c with
  | run P =>
    by_cases haccepts : s.sched = .idle ∨ s.sched = .halted
    · rw [command_run_accepted P haccepts] at h
      exact .inl ⟨P, rfl, haccepts, (Host.Outcome.next.inj h).symm⟩
    · rw [command_run_rejected P haccepts] at h
      exact .inr (.inr (.inr ⟨_, _, _, (Host.Outcome.next.inj h).symm⟩))
  | step =>
    by_cases hpaused : s.sched = .paused
    · exact .inr (.inl ⟨rfl, hpaused, command_step_accepted hpaused ▸ h⟩)
    · rw [command_step_rejected hpaused] at h
      exact .inr (.inr (.inr ⟨_, _, _, (Host.Outcome.next.inj h).symm⟩))
  | reset => exact .inr (.inr (.inl ⟨rfl, (Host.Outcome.next.inj h).symm⟩))
  | setDebug | setRate => exact .inr (.inr (.inr ⟨_, _, _, (Host.Outcome.next.inj h).symm⟩))

/-- Settles O56: a turn of the core and a command both answer a next state. -/
theorem everyStepAnswersANextState : Obligations.EveryStepAnswersANextState := by
  unfold Obligations.EveryStepAnswersANextState
  intro s
  rcases step_cases s with ⟨u, -, h⟩ | ⟨c, rest, -, h⟩
  · rw [h]
    exact coreTurn_next u
  · rw [h]
    exact command_next c _

/-! The transitions of `sched`. -/

/-- What becomes of `sched` in a turn of the running core (R433, R436). -/
theorem coreTurn_sched {s t : State} (hs : s.sched = .running) (h : coreTurn s = .next t) :
    t.sched = .running ∨ (t.sched = .paused ∧ s.debug = true ∧ t.atEnd = false) ∨
      (t.sched = .halted ∧ t.atEnd = true) ∨ t.sched = .faulted := by
  obtain ⟨p, hp, hcore⟩ := coreTurn_of_running hs
  obtain rfl := Host.Outcome.next.inj (hcore.symm.trans h)
  rcases debugPause_cases p.1 p.2 with hkeep | ⟨-, hdebug, hrun, hpause⟩
  · rw [hkeep, ← hs]
    exact (microStep_sched hp).imp_right .inr
  · rw [hpause]
    exact .inr (.inl ⟨rfl, (microStep_debug hp).symm.trans hdebug,
      microStep_not_atEnd hp (.inl hrun)⟩)

/-- What becomes of `sched` in the loop of `step()` (R439). -/
theorem stepLoop_sched {fuel : Nat} {s t : State} (h : stepLoop fuel s = .next t)
    (hs : s.sched = .paused) :
    t.sched = .paused ∨ (t.sched = .halted ∧ t.atEnd = true) ∨ t.sched = .faulted := by
  induction fuel generalizing s with
  | zero => exact .inl (Host.Outcome.next.inj h ▸ hs)
  | succ fuel ih =>
    obtain ⟨p, hp⟩ := microStep_next s
    rw [stepLoop_succ hp] at h
    split at h
    · obtain rfl := Host.Outcome.next.inj h
      exact hs ▸ microStep_sched hp
    · rename_i hgo
      exact ih h (linesLeft_of_goes_on hs hp hgo).1

/-- Settles O53: each kind of turn changes `sched` as its row of R447 says. -/
theorem schedulerTransitionsAreThoseOfTheTable :
    Obligations.SchedulerTransitionsAreThoseOfTheTable := by
  unfold Obligations.SchedulerTransitionsAreThoseOfTheTable
  intro s t h hchange
  rcases step_cases s with ⟨u, hturn, hstep⟩ | ⟨c, rest, hturns, hstep⟩
  · obtain ⟨hu, hhead⟩ := hturn.eq_and_head
    have hsched : u.sched = s.sched := by rw [hu]
    have hdebug : u.debug = s.debug := by rw [hu]
    rw [hstep] at h
    by_cases hrun : u.sched = .running
    · rw [← hsched, hrun] at hchange
      refine .inr (.inr (.inl ⟨hsched ▸ hrun, hhead, ?_⟩))
      rw [← hdebug]
      exact (coreTurn_sched hrun h).resolve_left hchange
    · rw [coreTurn_of_not_running hrun] at h
      exact absurd (Host.Outcome.next.inj h ▸ hsched) hchange
  · rw [hstep] at h
    have hhead : s.turns.head? = some (.host c) := by rw [hturns]; rfl
    rcases command_cases h with ⟨P, rfl, haccepts, rfl⟩ | ⟨rfl, hpaused, hloop⟩ | ⟨rfl, rfl⟩ |
      ⟨_, _, _, rfl⟩
    · exact .inr (.inl ⟨haccepts, P, hhead, startRun_sched P _⟩)
    · have hnew : t.sched ≠ .paused := fun hstays => hchange (hstays.trans hpaused.symm)
      exact .inr (.inr (.inr ⟨hpaused, hhead, (stepLoop_sched hloop hpaused).resolve_left hnew⟩))
    · exact .inl ⟨hhead, rfl⟩
    · exact absurd rfl hchange

/-- Settles O54: in Faulted the core waits, and every command but `reset()` answers and writes at
most a setting. -/
theorem faultedStaysUntilReset : Obligations.FaultedStaysUntilReset := by
  unfold Obligations.FaultedStaysUntilReset
  intro s t hs h hreset
  rcases step_cases s with ⟨u, hturn, hstep⟩ | ⟨c, rest, hturns, hstep⟩
  · obtain ⟨hu, -⟩ := hturn.eq_and_head
    have hwaits : u.sched ≠ .running := by rw [hu]; simp [hs]
    rw [hstep, coreTurn_of_not_running hwaits] at h
    obtain rfl := Host.Outcome.next.inj h
    rw [hu]
    exact ⟨hs, rfl, rfl, rfl, rfl, rfl, rfl, rfl, rfl⟩
  · rw [hstep] at h
    rcases command_cases h with ⟨P, -, haccepts, -⟩ | ⟨-, hpaused, -⟩ | ⟨rfl, -⟩ | ⟨_, _, _, rfl⟩
    · exact absurd haccepts (by simp [hs])
    · exact absurd hpaused (by simp [hs])
    · exact absurd (by rw [hturns]; rfl) hreset
    · exact ⟨hs, rfl, rfl, rfl, rfl, rfl, rfl, rfl, rfl⟩

/-! `rate`: every part of a step commutes with writing it. -/

/-- The same state with this rate. -/
def State.withRate (n : Nat) (s : State) : State :=
  { s with rate := n }

section
variable (n : Nat) {s : State}

theorem exec_withRate {i : Instr} {t : State} (h : exec i s = .next t) :
    exec i (s.withRate n) = .next (t.withRate n) := by
  obtain ⟨-, -, hdebug, -⟩ := outputProgramAndConfigurationHaveTheirWriters _ _ _ h
  have hs : s.withSettings s.debug n = s.withRate n := rfl
  have ht : t.withSettings s.debug n = t.withRate n := by
    rw [← hdebug]
    rfl
  rw [← hs, ← ht]
  exact exec_withSettings s.debug n h

theorem endTest_withRate (s : State) : endTest (s.withRate n) = (endTest s).withRate n := by
  unfold endTest
  rw [apply_ite (State.withRate n)]
  rfl

theorem debugPause_withRate (c : Consumed) (s : State) :
    debugPause c (s.withRate n) = (debugPause c s).withRate n := by
  unfold debugPause
  rw [apply_ite (State.withRate n)]
  rfl

theorem microStep_withRate {p : Consumed × State} (h : microStep s = .next p) :
    microStep (s.withRate n) = .next (p.1, p.2.withRate n) := by
  rcases microStep_cases s with ⟨hneg, h'⟩ | ⟨f, rest, hend, hframes, h'⟩ | ⟨hend, hframes, h'⟩ |
    ⟨l, t, h0, hl, he, h'⟩ <;>
    rw [h'] at h <;> cases h
  · exact microStep_of_negative (s := s.withRate n) hneg
  · rw [microStep_of_leave (s := s.withRate n) hend hframes, ← endTest_withRate]
    rfl
  · rw [microStep_of_ended (s := s.withRate n) hend hframes, ← endTest_withRate]
  · rw [microStep_of_line (s := s.withRate n) h0 hl (exec_withRate n he), ← endTest_withRate]
    rfl

theorem coreTurn_withRate {t : State} (h : coreTurn s = .next t) :
    coreTurn (s.withRate n) = .next (t.withRate n) := by
  by_cases hs : s.sched = .running
  · obtain ⟨p, hp, hcore⟩ := coreTurn_of_running hs
    obtain rfl := Host.Outcome.next.inj (hcore.symm.trans h)
    rw [coreTurn_of_microStep (s := s.withRate n) hs (microStep_withRate n hp), debugPause_withRate]
  · rw [coreTurn_of_not_running hs] at h
    obtain rfl := Host.Outcome.next.inj h
    exact coreTurn_of_not_running (s := s.withRate n) hs

theorem stepLoop_withRate {fuel : Nat} {t : State} (h : stepLoop fuel s = .next t) :
    stepLoop fuel (s.withRate n) = .next (t.withRate n) := by
  induction fuel generalizing s with
  | zero =>
    obtain rfl := Host.Outcome.next.inj h
    rfl
  | succ fuel ih =>
    obtain ⟨p, hp⟩ := microStep_next s
    rw [stepLoop_succ hp] at h
    rw [stepLoop_succ (microStep_withRate n hp)]
    split at h
    · rename_i hstop
      obtain rfl := Host.Outcome.next.inj h
      exact if_pos hstop
    · rename_i hgo
      exact (if_neg hgo).trans (ih h)

theorem startRun_withRate (P : Program) (s : State) :
    startRun P (s.withRate n) = (startRun P s).withRate n :=
  endTest_withRate n { s with
    prog := P, incStack := [], rip := 0, fault := none, errorInfo := none, sched := .running }

/-- Every command but `setRate` keeps the rate it finds. -/
theorem command_withRate {c : Command} {t : State} (hc : ∀ k, c ≠ .setRate k)
    (h : command c s = .next t) : command c (s.withRate n) = .next (t.withRate n) := by
  cases c with
  | run P =>
    by_cases haccepts : s.sched = .idle ∨ s.sched = .halted
    · rw [command_run_accepted P haccepts] at h
      obtain rfl := Host.Outcome.next.inj h
      rw [command_run_accepted (s := s.withRate n) P haccepts, ← startRun_withRate]
      rfl
    · rw [command_run_rejected P haccepts] at h
      obtain rfl := Host.Outcome.next.inj h
      exact command_run_rejected (s := s.withRate n) P haccepts
  | step =>
    by_cases hpaused : s.sched = .paused
    · rw [command_step_accepted hpaused] at h
      rw [command_step_accepted (s := s.withRate n) hpaused]
      exact stepLoop_withRate n h
    · rw [command_step_rejected hpaused] at h
      obtain rfl := Host.Outcome.next.inj h
      exact command_step_rejected (s := s.withRate n) hpaused
  | reset | setDebug =>
    obtain rfl := Host.Outcome.next.inj h
    rfl
  | setRate k => exact absurd rfl (hc k)

theorem CoreTurn.withRate {u : State} (h : CoreTurn s u) :
    CoreTurn (s.withRate n) (u.withRate n) := by
  rcases h with ⟨hturns, rfl⟩ | ⟨rest, hturns, rfl⟩
  · exact .inl ⟨hturns, rfl⟩
  · exact .inr ⟨rest, hturns, rfl⟩

end

/-- Settles O55: every turn commutes with writing `rate`, but `setRate`, which overwrites it. -/
theorem rateHasNoEffect : Obligations.RateHasNoEffect := by
  unfold Obligations.RateHasNoEffect
  intro s t n h
  show (step (s.withRate n) = .next t ∧ _) ∨ step (s.withRate n) = .next (t.withRate n)
  rcases step_cases s with ⟨u, hturn, hstep⟩ | ⟨c, rest, hturns, hstep⟩
  · rw [step_of_coreTurn (hturn.withRate n)]
    exact .inr (coreTurn_withRate n (hstep.symm.trans h))
  · have hstep' := step_of_host (s := s.withRate n) hturns
    by_cases hc : ∃ k, c = .setRate k
    · obtain ⟨k, rfl⟩ := hc
      exact .inl ⟨hstep'.trans (hstep.symm.trans h), k, by rw [hturns]; rfl⟩
    · rw [not_exists] at hc
      exact .inr (hstep'.trans (command_withRate n hc (hstep.symm.trans h)))

end Sys2Proof.Machine
end

section
/-! The proofs of the statements about the accessors and the state at power-on
(spec/46_scheduler.md R444, spec/10_state.md R66). -/

namespace Sys2Proof.Machine

/-- The flag as the integer that `readReg` answers. -/
theorem toNat_flag : ∀ f : BitVec 1, (f.toNat : Int) = if f = 1 then 1 else 0 := by decide

/-- Settles O57: a register's name finds the register, and RIP and RFLAGS are no register's names.
-/
theorem accessorsReadTheirRegisters : Obligations.AccessorsReadTheirRegisters := by
  unfold Obligations.AccessorsReadTheirRegisters
  intro s
  refine ⟨fun r => ?_, rfl, ?_, rfl, rfl⟩
  · rw [readReg, lookupReg_name]
  · rw [← toNat_flag]
    rfl

/-- Settles O58: power-on is a reset state with `debug` false and `rate` 0. -/
theorem powerOnValuesAreThoseOfTheTable : Obligations.PowerOnValuesAreThoseOfTheTable := by
  unfold Obligations.PowerOnValuesAreThoseOfTheTable
  refine ⟨fun r => ?_, rfl, rfl, fun i => ?_, rfl, rfl, rfl, rfl, rfl, rfl, rfl⟩
  · exact State.reg_afterReset State.reset r
  · exact Memory.read_nil i

end Sys2Proof.Machine
end

section
/-! The proofs of the statements about the invariant (spec/10_state.md R50 to R62): what it says
of a machine that can still run, that executing a line keeps that up to the end test, and that
every turn keeps it. -/

namespace Sys2Proof.Machine

/-! The invariant reads neither registers, flag, output, settings nor the host's side of the
state. -/

theorem Inv.of_eq {s t : State} (h : Inv s) (hcfg : t.cfg = s.cfg) (hmem : t.mem = s.mem)
    (hframes : t.incStack = s.incStack) (hprog : t.prog = s.prog) (hrip : t.rip = s.rip)
    (hsched : t.sched = s.sched) (hfault : t.fault = s.fault) (hinfo : t.errorInfo = s.errorInfo) :
    Inv t := by
  have hend : t.atEnd = s.atEnd := by simp only [State.atEnd, hprog, hrip, hframes]
  have htext : t.lineText = s.lineText := by simp only [State.lineText, hprog, hrip]
  constructor
  · rw [hcfg]; exact h.cfg_legal
  · rw [hmem]; exact h.mem_wf
  · rw [hmem, hcfg]; exact h.mem_cells
  · rw [hframes]; exact h.frames
  · rw [hsched, hend]; exact h.active_before_end
  · rw [hsched, hend]; exact h.halted_at_end
  · rw [hsched, hprog, hframes, hrip]; exact h.idle_empty
  · rw [hsched, hfault]; exact h.fault_iff
  · rw [hfault, hrip, htext, hframes]; exact h.fault_record
  · rw [hfault, hinfo]; exact h.fault_info

/-- What the invariant says of a machine that can still run, but for the end test. -/
structure LiveInv (s : State) : Prop where
  cfg_legal : s.cfg.legal = true
  mem_wf : Memory.wf s.mem = true
  mem_cells : ∀ p ∈ s.mem, p.1 < s.cfg.memCells
  frames : ∀ f ∈ s.incStack, 0 < f.resume ∧ f.resume ≤ f.prog.length
  active : s.sched = .running ∨ s.sched = .paused
  no_fault : s.fault = none
  no_info : s.errorInfo = none

theorem LiveInv.of_eq {s t : State} (h : LiveInv s) (hcfg : t.cfg = s.cfg) (hmem : t.mem = s.mem)
    (hframes : t.incStack = s.incStack) (hsched : t.sched = s.sched) (hfault : t.fault = s.fault)
    (hinfo : t.errorInfo = s.errorInfo) : LiveInv t := by
  constructor
  · rw [hcfg]; exact h.cfg_legal
  · rw [hmem]; exact h.mem_wf
  · rw [hmem, hcfg]; exact h.mem_cells
  · rw [hframes]; exact h.frames
  · rw [hsched]; exact h.active
  · rw [hfault]; exact h.no_fault
  · rw [hinfo]; exact h.no_info

/-- Outside Faulted there is neither a record nor its info (R62). -/
theorem Inv.no_fault {s : State} (h : Inv s) (hs : s.sched ≠ .faulted) :
    s.fault = none ∧ s.errorInfo = none := by
  have hnone : s.fault = none := by
    rw [← Option.not_isSome_iff_eq_none]
    exact fun hsome => hs (h.fault_iff.mpr hsome)
  have hinfo := h.fault_info
  rw [hnone] at hinfo
  exact ⟨hnone, Option.map_eq_none_iff.mp hinfo.symm⟩

theorem Inv.live {s : State} (h : Inv s) (hs : s.sched = .running ∨ s.sched = .paused) :
    LiveInv s := by
  obtain ⟨hfault, hinfo⟩ := h.no_fault (by rcases hs with hs | hs <;> simp [hs])
  exact ⟨h.cfg_legal, h.mem_wf, h.mem_cells, h.frames, hs, hfault, hinfo⟩

/-- A machine that can still run and is not at its end meets the invariant. -/
theorem LiveInv.inv {s : State} (h : LiveInv s) (hend : s.atEnd = false) : Inv s where
  cfg_legal := h.cfg_legal
  mem_wf := h.mem_wf
  mem_cells := h.mem_cells
  frames := h.frames
  active_before_end := fun _ => hend
  halted_at_end := fun hs => by rcases h.active with hs' | hs' <;> rw [hs'] at hs <;> cases hs
  idle_empty := fun hs => by rcases h.active with hs' | hs' <;> rw [hs'] at hs <;> cases hs
  fault_iff := by rcases h.active with hs | hs <;> simp [hs, h.no_fault]
  fault_record := fun f hf => by rw [h.no_fault] at hf; cases hf
  fault_info := by rw [h.no_fault, h.no_info]; rfl

/-- At its end, it meets the invariant once it is Halted. -/
theorem LiveInv.inv_halted {s : State} (h : LiveInv s) (hend : s.atEnd = true) :
    Inv { s with sched := .halted } where
  cfg_legal := h.cfg_legal
  mem_wf := h.mem_wf
  mem_cells := h.mem_cells
  frames := h.frames
  active_before_end := by simp
  halted_at_end := fun _ => hend
  idle_empty := nofun
  fault_iff := by simp [h.no_fault]
  fault_record := fun f hf => by rw [h.no_fault] at hf; cases hf
  fault_info := by simp [h.no_fault, h.no_info]

theorem LiveInv.inv_endTest {s : State} (h : LiveInv s) : Inv (endTest s) := by
  cases hend : s.atEnd with
  | true =>
    rw [endTest_of_active h.active, if_pos (atEnd_iff.mp hend)]
    exact h.inv_halted hend
  | false =>
    have hnot : ¬ PastTheEnd s := fun hpast => by
      rw [atEnd_iff.mpr hpast] at hend
      cases hend
    rw [endTest_of_active h.active, if_neg hnot]
    exact h.inv hend

/-- The fault entry of the line at RIP meets the invariant (R501, R511). -/
theorem LiveInv.inv_raise {s : State} {raw : Line} (h : LiveInv s) (hraw : raw = s.lineText)
    (e : Err) : Inv (s.raise raw e) where
  cfg_legal := h.cfg_legal
  mem_wf := h.mem_wf
  mem_cells := h.mem_cells
  frames := h.frames
  active_before_end := by simp
  halted_at_end := nofun
  idle_empty := nofun
  fault_iff := by simp
  fault_record := fun f hf => by
    obtain rfl := Option.some.inj hf
    exact ⟨rfl, hraw, rfl, e.code_range⟩
  fault_info := rfl

/-! One instruction. -/

/-- A PUSH keeps memory within its cells. -/
theorem LiveInv.push {s : State} {sp : Int} {k : Nat} (h : LiveInv s) (hcell : CellIs s.cfg sp k)
    (n : Int) : LiveInv { s with mem := Memory.write s.mem k n } where
  cfg_legal := h.cfg_legal
  mem_wf := Memory.wf_write k n h.mem_wf
  mem_cells := fun p hp => by
    rcases Memory.mem_write hp with hk | hp
    · rw [hk]
      exact cellOf_lt (cellOf_eq_ok.mpr hcell)
    · exact h.mem_cells p hp
  frames := h.frames
  active := h.active
  no_fault := h.no_fault
  no_info := h.no_info

/-- An INCLUDE at a line of the program opens a frame that resumes behind that line. -/
theorem LiveInv.enter {s : State} {l : Line} (h : LiveInv s) (h0 : 0 ≤ s.rip)
    (hl : s.prog[s.rip.toNat]? = some l) (q : Program) : LiveInv { s with
      incStack := ⟨s.prog, s.rip + 1⟩ :: s.incStack, prog := q, rip := 0 } where
  cfg_legal := h.cfg_legal
  mem_wf := h.mem_wf
  mem_cells := h.mem_cells
  frames := fun f hf => by
    rcases List.mem_cons.mp hf with rfl | hf
    · have hlt := (List.getElem?_eq_some_iff.mp hl).1
      exact ⟨by dsimp only; omega, by dsimp only; omega⟩
    · exact h.frames f hf
  active := h.active
  no_fault := h.no_fault
  no_info := h.no_info

/-- Executing the line at RIP leaves a machine that can run on, or the fault entry of that line. -/
theorem LiveInv.exec {s t : State} {l : Line} (h : LiveInv s) (h0 : 0 ≤ s.rip)
    (hl : s.prog[s.rip.toNat]? = some l) (he : exec (decode l) s = .next t) :
    LiveInv t ∨ Inv t := by
  by_cases hskip : decode l = .skipLine
  · rw [hskip] at he
    cases he
    exact .inl (h.of_eq rfl rfl rfl rfl rfl rfl)
  have htext : (decode l).raw = s.lineText := by
    rw [decode_raw hskip]
    simp [State.lineText, h0, hl]
  have hresult := exec_result he
  generalize decode l = i at htext hresult
  cases hresult with
  | raised _ e => exact .inr (h.inv_raise htext e)
  | callFailed f e =>
    have hanswered : LiveInv s.answered := h.of_eq rfl rfl rfl rfl rfl rfl
    exact .inr (hanswered.inv_raise htext e)
  | pushed f n hsp hcell => exact .inl ((h.push hcell n).of_eq rfl rfl rfl rfl rfl rfl)
  | included f q => exact .inl ((h.enter h0 hl q).of_eq rfl rfl rfl rfl rfl rfl)
  | _ => exact .inl (h.of_eq rfl rfl rfl rfl rfl rfl)

/-! One turn. -/

/-- An include return drops a frame. -/
theorem LiveInv.leave {s : State} {f : Frame} {rest : List Frame} (h : LiveInv s)
    (hframes : s.incStack = f :: rest) :
    LiveInv { s with prog := f.prog, rip := f.resume, incStack := rest } where
  cfg_legal := h.cfg_legal
  mem_wf := h.mem_wf
  mem_cells := h.mem_cells
  frames := fun g hg => h.frames g (by rw [hframes]; exact List.mem_cons_of_mem f hg)
  active := h.active
  no_fault := h.no_fault
  no_info := h.no_info

/-- The end test changes nothing in a machine that meets the invariant. -/
theorem Inv.endTest_eq {s : State} (h : Inv s) : endTest s = s := by
  rcases endTest_cases s with hkeep | ⟨hend, hactive, -⟩
  · exact hkeep
  · rw [h.active_before_end hactive] at hend
    cases hend

theorem LiveInv.microStep {s : State} {p : Consumed × State} (h : LiveInv s)
    (hp : microStep s = .next p) : Inv p.2 := by
  rcases microStep_cases s with ⟨hneg, h'⟩ | ⟨f, rest, -, hframes, h'⟩ | ⟨-, -, h'⟩ |
    ⟨l, t, h0, hl, he, h'⟩ <;>
    rw [h'] at hp <;> cases hp
  · refine h.inv_raise ?_ _
    simp [State.lineText, not_le.mpr hneg]
  · exact (h.leave hframes).inv_endTest
  · exact h.inv_endTest
  · rcases h.exec h0 hl he with hlive | hinv
    · exact hlive.inv_endTest
    · exact hinv.endTest_eq.symm ▸ hinv

/-- The debug pause keeps the invariant: Paused is as live as Running. -/
theorem Inv.debugPause {s : State} (h : Inv s) (c : Consumed) : Inv (debugPause c s) := by
  rcases debugPause_cases c s with hkeep | ⟨-, -, hrun, hpause⟩
  · rw [hkeep]
    exact h
  · have hlive := h.live (.inl hrun)
    have hpaused : LiveInv { s with sched := .paused } :=
      ⟨hlive.cfg_legal, hlive.mem_wf, hlive.mem_cells, hlive.frames, .inr rfl, hlive.no_fault,
        hlive.no_info⟩
    rw [hpause]
    exact hpaused.inv (h.active_before_end (.inl hrun))

theorem Inv.coreTurn {s t : State} (h : Inv s) (hcore : coreTurn s = .next t) : Inv t := by
  by_cases hrun : s.sched = .running
  · obtain ⟨p, hp, hcore'⟩ := coreTurn_of_running hrun
    obtain rfl := Host.Outcome.next.inj (hcore'.symm.trans hcore)
    exact ((h.live (.inl hrun)).microStep hp).debugPause p.1
  · rw [coreTurn_of_not_running hrun] at hcore
    exact Host.Outcome.next.inj hcore ▸ h

theorem Inv.stepLoop {fuel : Nat} {s t : State} (h : Inv s) (hs : s.sched = .paused)
    (hloop : stepLoop fuel s = .next t) : Inv t := by
  induction fuel generalizing s with
  | zero => exact Host.Outcome.next.inj hloop ▸ h
  | succ fuel ih =>
    obtain ⟨p, hp⟩ := microStep_next s
    have hinv : Inv p.2 := (h.live (.inr hs)).microStep hp
    rw [stepLoop_succ hp] at hloop
    split at hloop
    · exact Host.Outcome.next.inj hloop ▸ hinv
    · rename_i hgo
      exact ih hinv (linesLeft_of_goes_on hs hp hgo).1 hloop

theorem Inv.startRun {s : State} (h : Inv s) (P : Program) : Inv (startRun P s) :=
  LiveInv.inv_endTest
    { cfg_legal := h.cfg_legal
      mem_wf := h.mem_wf
      mem_cells := h.mem_cells
      frames := nofun
      active := .inl rfl
      no_fault := rfl
      no_info := rfl }

/-- A reset state meets the invariant, whatever it is a reset of. -/
theorem inv_afterReset {s : State} (hcfg : s.cfg.legal = true) : Inv s.afterReset where
  cfg_legal := hcfg
  mem_wf := rfl
  mem_cells := nofun
  frames := nofun
  active_before_end := by simp
  halted_at_end := nofun
  idle_empty := fun _ => ⟨rfl, rfl, rfl⟩
  fault_iff := by simp
  fault_record := nofun
  fault_info := rfl

theorem Inv.command {c : Command} {s t : State} (h : Inv s) (hc : command c s = .next t) :
    Inv t := by
  rcases command_cases hc with ⟨P, -, -, rfl⟩ | ⟨-, hpaused, hloop⟩ | ⟨-, rfl⟩ | ⟨_, _, _, rfl⟩
  · have hanswered : Inv (s.emit .accepted) := h.of_eq rfl rfl rfl rfl rfl rfl rfl rfl
    exact hanswered.startRun P
  · have hanswered : Inv (s.emit .accepted) := h.of_eq rfl rfl rfl rfl rfl rfl rfl rfl
    exact hanswered.stepLoop hpaused hloop
  · exact (inv_afterReset h.cfg_legal).of_eq rfl rfl rfl rfl rfl rfl rfl rfl
  · exact h.of_eq rfl rfl rfl rfl rfl rfl rfl rfl

/-- Settles O60: using up the turn changes nothing the invariant reads, and a turn of the core and a
command of the host both keep it. -/
theorem everyStepKeepsTheInvariant : Obligations.EveryStepKeepsTheInvariant := by
  unfold Obligations.EveryStepKeepsTheInvariant
  intro s t h hstep
  rcases step_cases s with ⟨u, hturn, hcore⟩ | ⟨c, rest, -, hhost⟩
  · have hu : Inv u := by
      rw [hturn.eq_and_head.1]
      exact h.of_eq rfl rfl rfl rfl rfl rfl rfl rfl
    exact hu.coreTurn (hcore.symm.trans hstep)
  · have hu : Inv { s with turns := rest } := h.of_eq rfl rfl rfl rfl rfl rfl rfl rfl
    exact hu.command (hhost.symm.trans hstep)

/-- Settles O59: power-on is a reset state with legal parameters. -/
theorem powerOnMeetsTheInvariant : Obligations.PowerOnMeetsTheInvariant := by
  unfold Obligations.PowerOnMeetsTheInvariant
  exact inv_afterReset (s := State.reset) (by decide)

end Sys2Proof.Machine
end
